-- ==== Sys2Proof/Word.lean ====
section
/-! DEFINITION. The 32-bit bus word and the names of the eight operand registers (00_scope.md R7, R8). -/

namespace Sys2Proof

/-- A 32-bit word: a bus word, a control register or a command word (00_scope.md R7, R8). -/
abbrev Word := BitVec 32

/-- The name of an operand register, R0 to R7 (10_state.md R20: `NREG = 8`). -/
abbrev Reg := Fin 8

end Sys2Proof
end

