-- ==== Sys2Proof/Syntax.lean ====
section
/-! DEFINITION. The fifteen commands (30_encoding.md R96) and a command word cut into its fields (R90, R91). -/

namespace Sys2Proof

/-- The fields of a command word in format R (30_encoding.md R90, R91). Format I reads RB and RA together as IMM8. -/
structure Fields where
  /-- bits 31:24, reserved -/
  rsv : BitVec 8
  /-- bits 23:20, modulus register -/
  rm : BitVec 4
  /-- bits 19:16, second source register; the high half of IMM8 -/
  rb : BitVec 4
  /-- bits 15:12, first source register; the low half of IMM8 -/
  ra : BitVec 4
  /-- bits 11:8, destination register -/
  rd : BitVec 4
  /-- bits 7:0, opcode -/
  op : BitVec 8
  deriving DecidableEq, Repr

/-- The commands of the MAE, one constructor per row of the opcode table. Operands stand in the order RD, RA, RB, RM
(30_encoding.md R100), less the fields that the command does not use. -/
inductive Instr where
  | nop
  | mov (rd ra : Reg)
  | ldi (rd : Reg) (imm : BitVec 8)
  | reduce (rd ra rm : Reg)
  | modadd (rd ra rb rm : Reg)
  | modsub (rd ra rb rm : Reg)
  | modmul (rd ra rb rm : Reg)
  | modexp (rd ra rb rm : Reg)
  | modinv (rd ra rm : Reg)
  | montmul (rd ra rb rm : Reg)
  | tomont (rd ra rm : Reg)
  | frommont (rd ra rm : Reg)
  | gcd (rd ra rb : Reg)
  | rhostep (rd ra rb rm : Reg)
  | rho (rd ra rb rm : Reg)
  deriving DecidableEq, Repr

end Sys2Proof
end

