-- ==== Sys2Proof/WellFormed.lean ====
section
/-! DEFINITION. When the fields of a word spell a command: the checks of 30_encoding.md R92 (a used register field is below
8), R94 (an unused field is 0), R95 (RSV is 0) and R96 (the opcode is assigned). An `Instr` needs no check of its own: its
operands are typed so that an ill-formed one cannot be written. -/

namespace Sys2Proof

/-- The fields that a row of the opcode map uses (30_encoding.md R96, column "used"). -/
structure UsedFields where
  rd : Bool
  ra : Bool
  rb : Bool
  rm : Bool
  /-- LDI: bits 19:12 are the immediate, so RA and RB are not checked as registers (R90, format I). -/
  imm : Bool
  deriving DecidableEq, Repr

/-- The used fields of each assigned opcode, none for an unassigned one (30_encoding.md R96, R98). -/
def usedFields (op : BitVec 8) : Option UsedFields :=
  match op.toNat with
  | 0x00 => some ⟨false, false, false, false, false⟩
  | 0x01 => some ⟨true, true, false, false, false⟩
  | 0x02 => some ⟨true, false, false, false, true⟩
  | 0x10 | 0x15 | 0x19 | 0x1A => some ⟨true, true, false, true, false⟩
  | 0x11 | 0x12 | 0x13 | 0x14 | 0x18 | 0x30 | 0x31 => some ⟨true, true, true, true, false⟩
  | 0x20 => some ⟨true, true, true, false, false⟩
  | _ => none

/-- A register field: bit 3 must be 0 where it is used (R92), all four bits where it is not (R94). -/
def fieldOk (used : Bool) (f : BitVec 4) : Bool :=
  if used then f.getLsbD 3 == false else f == 0

namespace Fields

/-- The fields spell a command (30_encoding.md R92, R94, R95, R96). -/
def WellFormed (f : Fields) : Bool :=
  match usedFields f.op with
  | none => false
  | some u =>
    f.rsv == 0 && fieldOk u.rd f.rd && fieldOk u.rm f.rm
      && (u.imm || (fieldOk u.ra f.ra && fieldOk u.rb f.rb))

end Fields

end Sys2Proof
end

