-- ==== Sys2Proof/Decode.lean ====
section
/-! DEFINITION. The decoder of command words, total on every word (30_encoding.md R90-R99), the encoder, and the opcode map
as a list of rows (R96). -/

namespace Sys2Proof

/-- A word cut into its fields (30_encoding.md R90, R91). -/
def Fields.ofWord (w : Word) : Fields where
  rsv := w.extractLsb' 24 8
  rm := w.extractLsb' 20 4
  rb := w.extractLsb' 16 4
  ra := w.extractLsb' 12 4
  rd := w.extractLsb' 8 4
  op := w.extractLsb' 0 8

/-- The fields put together, RSV most significant (30_encoding.md R90). -/
def Fields.toWord (f : Fields) : Word :=
  f.rsv ++ (f.rm ++ (f.rb ++ (f.ra ++ (f.rd ++ f.op))))

/-- The register that a used field names; none if its bit 3 is set (30_encoding.md R92). -/
def regOf? (f : BitVec 4) : Option Reg :=
  if h : f.toNat < 8 then some ⟨f.toNat, h⟩ else none

/-- The register that the low three bits of a field name, used where decoding has already passed. -/
def regOf (f : BitVec 4) : Reg := ⟨f.toNat % 8, Nat.mod_lt _ (by decide)⟩

/-- A command that uses RD and RA. -/
def decodeDA (f : Fields) (mk : Reg → Reg → Instr) : Option Instr :=
  match regOf? f.rd, regOf? f.ra with
  | some d, some a => if f.rb = 0 ∧ f.rm = 0 then some (mk d a) else none
  | _, _ => none

/-- LDI: RD and the immediate `word[19:12]` (30_encoding.md R93). -/
def decodeDI (f : Fields) (mk : Reg → BitVec 8 → Instr) : Option Instr :=
  match regOf? f.rd with
  | some d => if f.rm = 0 then some (mk d (f.rb ++ f.ra)) else none
  | none => none

/-- A command that uses RD, RA and RM. -/
def decodeDAM (f : Fields) (mk : Reg → Reg → Reg → Instr) : Option Instr :=
  match regOf? f.rd, regOf? f.ra, regOf? f.rm with
  | some d, some a, some m => if f.rb = 0 then some (mk d a m) else none
  | _, _, _ => none

/-- A command that uses RD, RA and RB. -/
def decodeDAB (f : Fields) (mk : Reg → Reg → Reg → Instr) : Option Instr :=
  match regOf? f.rd, regOf? f.ra, regOf? f.rb with
  | some d, some a, some b => if f.rm = 0 then some (mk d a b) else none
  | _, _, _ => none

/-- A command that uses RD, RA, RB and RM. -/
def decodeDABM (f : Fields) (mk : Reg → Reg → Reg → Reg → Instr) : Option Instr :=
  match regOf? f.rd, regOf? f.ra, regOf? f.rb, regOf? f.rm with
  | some d, some a, some b, some m => some (mk d a b m)
  | _, _, _, _ => none

/-- The command that the fields spell; none for an illegal word (30_encoding.md R97, R98). -/
def decodeFields (f : Fields) : Option Instr :=
  if f.rsv = 0 then
    match f.op.toNat with
    | 0x00 => if f.rd = 0 ∧ f.ra = 0 ∧ f.rb = 0 ∧ f.rm = 0 then some .nop else none
    | 0x01 => decodeDA f .mov
    | 0x02 => decodeDI f .ldi
    | 0x10 => decodeDAM f .reduce
    | 0x11 => decodeDABM f .modadd
    | 0x12 => decodeDABM f .modsub
    | 0x13 => decodeDABM f .modmul
    | 0x14 => decodeDABM f .modexp
    | 0x15 => decodeDAM f .modinv
    | 0x18 => decodeDABM f .montmul
    | 0x19 => decodeDAM f .tomont
    | 0x1A => decodeDAM f .frommont
    | 0x20 => decodeDAB f .gcd
    | 0x30 => decodeDABM f .rhostep
    | 0x31 => decodeDABM f .rho
    | _ => none
  else none

/-- Decoding of a command word, total on every word (30_encoding.md R97). -/
def decode (w : Word) : Option Instr := decodeFields (Fields.ofWord w)

/-- The opcode byte of each command (30_encoding.md R96). -/
def Instr.opcode : Instr → BitVec 8
  | .nop => 0x00
  | .mov .. => 0x01
  | .ldi .. => 0x02
  | .reduce .. => 0x10
  | .modadd .. => 0x11
  | .modsub .. => 0x12
  | .modmul .. => 0x13
  | .modexp .. => 0x14
  | .modinv .. => 0x15
  | .montmul .. => 0x18
  | .tomont .. => 0x19
  | .frommont .. => 0x1A
  | .gcd .. => 0x20
  | .rhostep .. => 0x30
  | .rho .. => 0x31

/-- The four bits of a used register field (30_encoding.md R92). -/
def regField (r : Reg) : BitVec 4 := BitVec.ofNat 4 r.val

/-- The fields of a command; RSV and the unused fields are 0 (30_encoding.md R94, R95). -/
def Instr.fields (i : Instr) : Fields :=
  match i with
  | .nop => ⟨0, 0, 0, 0, 0, i.opcode⟩
  | .mov rd ra => ⟨0, 0, 0, regField ra, regField rd, i.opcode⟩
  | .ldi rd imm => ⟨0, 0, imm.extractLsb' 4 4, imm.extractLsb' 0 4, regField rd, i.opcode⟩
  | .reduce rd ra rm | .modinv rd ra rm | .tomont rd ra rm | .frommont rd ra rm =>
    ⟨0, regField rm, 0, regField ra, regField rd, i.opcode⟩
  | .gcd rd ra rb => ⟨0, 0, regField rb, regField ra, regField rd, i.opcode⟩
  | .modadd rd ra rb rm | .modsub rd ra rb rm | .modmul rd ra rb rm | .modexp rd ra rb rm
  | .montmul rd ra rb rm | .rhostep rd ra rb rm | .rho rd ra rb rm =>
    ⟨0, regField rm, regField rb, regField ra, regField rd, i.opcode⟩

/-- The command word of a command (30_encoding.md R90, R103). -/
def encode (i : Instr) : Word := i.fields.toWord

/-- One row of the opcode map (30_encoding.md R96). -/
structure OpcodeRow where
  op : BitVec 8
  pattern : Word
  mask : Word
  deriving DecidableEq, Repr

/-- The opcode map, in the order of the table (30_encoding.md R96). -/
def opcodeTable : List OpcodeRow :=
  [ ⟨0x00, 0x00000000, 0xFFFFFFFF⟩, ⟨0x01, 0x00000001, 0xFFFF88FF⟩, ⟨0x02, 0x00000002, 0xFFF008FF⟩,
    ⟨0x10, 0x00000010, 0xFF8F88FF⟩, ⟨0x11, 0x00000011, 0xFF8888FF⟩, ⟨0x12, 0x00000012, 0xFF8888FF⟩,
    ⟨0x13, 0x00000013, 0xFF8888FF⟩, ⟨0x14, 0x00000014, 0xFF8888FF⟩, ⟨0x15, 0x00000015, 0xFF8F88FF⟩,
    ⟨0x18, 0x00000018, 0xFF8888FF⟩, ⟨0x19, 0x00000019, 0xFF8F88FF⟩, ⟨0x1A, 0x0000001A, 0xFF8F88FF⟩,
    ⟨0x20, 0x00000020, 0xFFF888FF⟩, ⟨0x30, 0x00000030, 0xFF8888FF⟩, ⟨0x31, 0x00000031, 0xFF8888FF⟩ ]

/-- A word spells a row's command exactly when `(word & mask) = match` (30_encoding.md R96). -/
abbrev OpcodeRow.Matches (r : OpcodeRow) (w : Word) : Prop := w &&& r.mask = r.pattern

/-- What the decoder reads from a table word of `nbits` bits (every command is one 32-bit word, 30_encoding.md R99). -/
def decodeTableWord (nbits w : Nat) : Option Instr :=
  if nbits ≤ 32 then decode (BitVec.ofNat 32 (w % 2 ^ nbits)) else none

end Sys2Proof
end

