-- ==== Sys2Proof/Config.lean ====
section
/-! DEFINITION. What a configuration fixes (00_scope.md R5, R7) and the one free value of the spec (70_reset_and_hazards.md
R290). The configuration is plain data that State carries and no step changes, so that statements hold for every NW. -/

namespace Sys2Proof

/-- A configuration of the MAE. Configurations differ only in `NW` (00_scope.md R2, R5). -/
structure Config where
  /-- `NW`, the number of 32-bit words in one operand register. -/
  nw : Nat
  deriving DecidableEq, Repr

namespace Config

/-- `W = 32·NW`, the width in bits of one operand register (00_scope.md R5). -/
def width (c : Config) : Nat := 32 * c.nw

/-- `1 ≤ NW ≤ 64` (00_scope.md R5). -/
abbrev Valid (c : Config) : Prop := 1 ≤ c.nw ∧ c.nw ≤ 64

/-- The reference configuration, `NW = 2` (00_scope.md R5). -/
def reference : Config := { nw := 2 }

/-- The ISA string, `MAE1-W` and the width in decimal (00_scope.md R1). -/
def isaString (c : Config) : List Char := "MAE1-W".toList ++ Nat.toDigits 10 c.width

/-- FREE VALUE (log 6): the word that the k-th read of an operand word while busy returns; any 32-bit value
(70_reset_and_hazards.md R290, 93 U1). It has no body, so nothing can be proved of its value. -/
opaque freeWord : Nat → Word

end Config

end Sys2Proof
end

