-- ==== Sys2Proof/Machine/State.lean ====
section
/-! DEFINITION. The state of the MAE as plain data (10_state.md, complete by its own preface), the reasons to stop, and the
state after reset (10_state.md R54). The last three fields of State are the model's own: the turns of the two agents still to
come, the answer to the host's last transaction, and the count of unspecified words read (log 3, 5, 6). -/

namespace Sys2Proof.Machine

/-- One turn of one of the two agents (00_scope.md R12). The host's turns are bus transactions, with a byte offset in the
window and the byte strobes (20_memory.md R62), and the hardware reset (70_reset_and_hazards.md R280). -/
inductive Turn where
  | engine
  | read (off : BitVec 12) (strobes : BitVec 4)
  | write (off : BitVec 12) (strobes : BitVec 4) (data : Word)
  | reset
  deriving DecidableEq, Repr

/-- How the MAE answered the host's last transaction (20_memory.md R62): not yet any, a word, or an acknowledgement. -/
inductive Response where
  | none
  | data (v : Word)
  | ack
  deriving DecidableEq, Repr

/-- RHO's working values (10_state.md R52): modulus, tortoise, hare and iterations done. -/
structure RhoWork where
  n : Nat
  x : Nat
  y : Nat
  itc : Nat
  deriving DecidableEq, Repr

/-- The phase of the command in flight (10_state.md R50); `iterate` only for RHO, with its working values (R52). -/
inductive Phase where
  | start
  | iterate (w : RhoWork)
  deriving DecidableEq, Repr

/-- The latch of the command in flight (10_state.md R50). -/
structure Command where
  /-- the command word -/
  word : Word
  /-- CTRL.WIN as sampled at acceptance; it changes no result (41_modular_arith.md R151) -/
  win : BitVec 4
  /-- RHO_LIMIT as sampled at acceptance (10_state.md R47) -/
  limit : Word
  phase : Phase
  deriving DecidableEq, Repr

/-- The engine, `Idle` or `Busy(c)` (10_state.md R50). -/
inductive Engine where
  | idle
  | busy (c : Command)
  deriving DecidableEq, Repr

/-- The errors that end a command (60_exceptions.md R245). -/
inductive ErrorCode where
  | illegal
  | modulus
  | range
  | noinv
  | limit
  | abort
  deriving DecidableEq, Repr

/-- The state of the machine (10_state.md). ID and CFG are constants and BUSY and irq are computed, so they have no field. -/
structure State where
  /-- the configuration, changed by no step (00_scope.md R5) -/
  cfg : Config
  /-- R0 to R7, natural numbers below `2^W` (R20) -/
  regs : Vector Nat 8
  /-- CTRL.IE (R34) -/
  ie : Bool
  /-- CTRL.WIN (R37) -/
  win : BitVec 4
  /-- STATUS.DONE (R40) -/
  done : Bool
  /-- STATUS.ERR (R41) -/
  err : Bool
  /-- STATUS.OVF (R42) -/
  ovf : Bool
  /-- STATUS.ERRCODE (R43) -/
  errcode : BitVec 4
  /-- STATUS.Z (R29) -/
  z : Bool
  /-- STATUS.TRIV (R30) -/
  triv : Bool
  /-- the last accepted command word, read back at CMD (R45) -/
  cmd : Word
  /-- ITER (R46) -/
  iter : BitVec 64
  /-- RHO_LIMIT (R47) -/
  rhoLimit : Word
  /-- the engine (R50); STATUS.BUSY is 1 exactly when it is `busy` -/
  eng : Engine
  /-- abort_pending (R51) -/
  abortPending : Bool
  /-- the model's own: the turns still to come, first one first (log 3) -/
  turns : List Turn
  /-- the model's own: the answer to the host's last transaction (log 5) -/
  response : Response
  /-- the model's own: how many unspecified words have been read (log 6) -/
  draws : Nat
  deriving DecidableEq, Repr

/-- Why the machine stops. Each is a bus error, which the spec makes a fault of the host agent that changes no state
(20_memory.md R63, 60_exceptions.md R251, 93 U11). All are raised by the bus transactions only and all are SAFE: the model
stops where the block answers with an error and goes on. -/
inductive Fault where
  /-- not all four byte strobes are set (20_memory.md R63, R64); raised by a host transaction; safe -/
  | narrowAccess
  /-- the offset is not a multiple of 4 (20_memory.md R63, R64); raised by a host transaction; safe -/
  | misalignedAccess
  /-- no register and no operand word is at the offset (20_memory.md R63, R67); raised by a host transaction; safe -/
  | undefinedOffset
  deriving DecidableEq, Repr

/-- Why the model gives an instruction no meaning. Every command has its meaning, so nothing raises it. -/
inductive Refusal where
  /-- raised by an arm of `exec` for a command that has no meaning yet: no arm does; safe -/
  | notModelled (mnemonic : String)
  deriving DecidableEq, Repr

/-- The state after a hardware or a soft reset, in a configuration (10_state.md R54). -/
def State.resetFor (cfg : Config) : State where
  cfg := cfg
  regs := #v[0, 0, 0, 0, 0, 0, 0, 0]
  ie := false
  win := 0
  done := false
  err := false
  ovf := false
  errcode := 0
  z := false
  triv := false
  cmd := 0
  iter := 0
  rhoLimit := 0
  eng := .idle
  abortPending := false
  turns := []
  response := .none
  draws := 0

/-- The machine right after reset, in the reference configuration (10_state.md R54; log 1). -/
def State.reset : State := State.resetFor Config.reference

end Sys2Proof.Machine
end

