-- ==== Sys2Proof/Machine/Flags.lean ====
section
/-! DEFINITION. Every flag computation, the error codes, the words that the control registers read as, and the interrupt
output (10_state.md R29-R47, 60_exceptions.md R245, R250). -/

namespace Sys2Proof.Machine

/-- Z: the value written to `R[RD]` is 0 (10_state.md R29). -/
def zeroFlag (v : Nat) : Bool := v == 0

/-- TRIV: the divisor equals the modulus (10_state.md R30). -/
def trivFlag (d n : Nat) : Bool := d == n

/-- The code of an error in STATUS.ERRCODE (60_exceptions.md R245). -/
def ErrorCode.code : ErrorCode → BitVec 4
  | .illegal => 1
  | .modulus => 2
  | .range => 3
  | .noinv => 4
  | .limit => 5
  | .abort => 6

/-- STATUS.BUSY: the engine has a command in flight (10_state.md R39, R50). -/
def State.busy (s : State) : Bool :=
  match s.eng with
  | .idle => false
  | .busy _ => true

/-- `irq = CTRL.IE ∧ STATUS.DONE` (60_exceptions.md R250). -/
def State.irq (s : State) : Bool := s.ie && s.done

/-- What ID reads as (10_state.md R31). -/
def idWord : Word := 0x4D414501

/-- What CFG reads as: NW in bits 7:0, NREG = 8 in bits 11:8 (10_state.md R32). -/
def State.cfgWord (s : State) : Word := (0 : BitVec 20) ++ ((8 : BitVec 4) ++ BitVec.ofNat 8 s.cfg.nw)

/-- What CTRL reads as: WIN in bits 7:4, IE in bit 0, the rest 0 (10_state.md R33). -/
def State.ctrlWord (s : State) : Word :=
  (0 : BitVec 24) ++ (s.win ++ ((0 : BitVec 3) ++ BitVec.ofBool s.ie))

/-- What STATUS reads as (10_state.md R38): from bit 31 down, reserved, TRIV, Z, reserved, ERRCODE, reserved, OVF, ERR, DONE,
BUSY. -/
def State.statusWord (s : State) : Word :=
  (0 : BitVec 14) ++ (BitVec.ofBool s.triv ++ (BitVec.ofBool s.z ++ ((0 : BitVec 4) ++ (s.errcode ++ ((0 : BitVec 4)
    ++ (BitVec.ofBool s.ovf ++ (BitVec.ofBool s.err ++ (BitVec.ofBool s.done ++ BitVec.ofBool s.busy))))))))

end Sys2Proof.Machine
end

