-- ==== Sys2Proof/Machine/Operands.lean ====
section
/-! DEFINITION. Operand forms: the words of an operand register (20_memory.md R66, R68), the immediate (30_encoding.md R93),
the residue check (41_modular_arith.md R140) and the places of the window (20_memory.md R65-R67). -/

namespace Sys2Proof.Machine

/-- Word `w` of an operand value, its bits `32·w+31 : 32·w` (20_memory.md R66). -/
def operandWord (v w : Nat) : Word := BitVec.ofNat 32 (v / 2 ^ (32 * w))

/-- An operand value with word `w` replaced and the other words as they were (20_memory.md R66). -/
def setOperandWord (v w : Nat) (x : Word) : Nat :=
  v / 2 ^ (32 * (w + 1)) * 2 ^ (32 * (w + 1)) + x.toNat * 2 ^ (32 * w) + v % 2 ^ (32 * w)

/-- The value of words in order, word 0 least significant (20_memory.md R68; 30_encoding.md R102, RREG). -/
def assembleWords : List Word → Nat
  | [] => 0
  | x :: rest => x.toNat + 2 ^ 32 * assembleWords rest

/-- LDI's immediate, zero-extended to W bits (30_encoding.md R93). -/
def zextImm (imm : BitVec 8) : Nat := imm.toNat

/-- A residue operand must be below the modulus (41_modular_arith.md R140). -/
def isResidue (a n : Nat) : Bool := decide (a < n)

/-- What stands at an offset of the window (20_memory.md R65, R66). -/
inductive Place where
  | id
  | cfg
  | ctrl
  | status
  | cmd
  | iterLo
  | iterHi
  | rhoLimit
  | operand (r : Reg) (w : Nat)
  deriving DecidableEq, Repr

/-- The offset of operand word `w` of `Ri`, `0x100 + 0x100·i + 4·w` (20_memory.md R66). -/
def operandOffset (r : Reg) (w : Nat) : Nat := 0x100 + 0x100 * r.val + 4 * w

/-- The operand word at an aligned offset, `w < NW` in one of the eight slots; none elsewhere (20_memory.md R66, R67). -/
def operandPlace (cfg : Config) (off : Nat) : Option Place :=
  let slot := off / 0x100
  let w := off % 0x100 / 4
  if h : 1 ≤ slot ∧ slot ≤ 8 then
    if w < cfg.nw then some (.operand ⟨slot - 1, by omega⟩ w) else none
  else none

/-- What stands at an aligned offset; none where it is undefined (20_memory.md R65-R67, R73). -/
def placeAt (cfg : Config) (off : Nat) : Option Place :=
  match off with
  | 0x000 => some .id
  | 0x004 => some .cfg
  | 0x008 => some .ctrl
  | 0x00C => some .status
  | 0x010 => some .cmd
  | 0x014 => some .iterLo
  | 0x018 => some .iterHi
  | 0x01C => some .rhoLimit
  | off => operandPlace cfg off

end Sys2Proof.Machine
end

