-- ==== Sys2Proof/Machine/Ops.lean ====
section
/-! DEFINITION. The named operations on the state: the operand registers, the success and the error completion of a command
(60_exceptions.md R242, R243: the MAE's taking of an exception) and the host's acknowledgement beside them (R249), acceptance
(R240), reset (70_reset_and_hazards.md R280, R282), abort (10_state.md R35), and the latch of the command in flight. -/

namespace Sys2Proof.Machine

/-- `R[r]`, read as a natural number (00_scope.md R10). -/
def State.reg (s : State) (r : Reg) : Nat := s.regs[r]

/-- `R[r] <- v` (00_scope.md R10). -/
def State.setReg (s : State) (r : Reg) (v : Nat) : State := { s with regs := s.regs.set r v }

/-- Writes done in order, so that a later write to the same register wins (60_exceptions.md R242). -/
def writeRegs (regs : Vector Nat 8) : List (Reg × Nat) → Vector Nat 8
  | [] => regs
  | (r, v) :: rest => writeRegs (regs.set r v) rest

/-- `complete(list)`, the success completion of a command (60_exceptions.md R242). -/
def State.complete (s : State) (list : List (Reg × Nat)) (z triv : Bool) : State :=
  { s with
    regs := writeRegs s.regs list
    z := z
    triv := triv
    done := true
    err := false
    errcode := 0
    eng := .idle
    abortPending := false }

/-- `complete(rd, v)`: one register written, Z from its value, TRIV 0 (60_exceptions.md R242, 10_state.md R29, R30). -/
def State.completeWith (s : State) (rd : Reg) (v : Nat) : State := s.complete [(rd, v)] (zeroFlag v) false

/-- `raise Error(code)`, the error completion of a command (60_exceptions.md R243). -/
def State.raiseError (s : State) (e : ErrorCode) : State :=
  { s with
    z := false
    triv := false
    errcode := e.code
    err := true
    done := true
    eng := .idle
    abortPending := false }

/-- A host write to STATUS: bits 1, 2 and 3 are W1C, and clearing ERR clears ERRCODE too (10_state.md R38, R40-R43). With
no return instruction, this is how the host acknowledges a completion (60_exceptions.md R249). -/
def State.writeStatus (s : State) (v : Word) : State :=
  { s with
    done := s.done && !v.getLsbD 1
    err := s.err && !v.getLsbD 2
    errcode := if v.getLsbD 2 then 0 else s.errcode
    ovf := s.ovf && !v.getLsbD 3 }

/-- The latch that accepting a word makes (60_exceptions.md R240). -/
def State.latchOf (s : State) (v : Word) : Command :=
  { word := v, win := s.win, limit := s.rhoLimit, phase := .start }

/-- Acceptance of the command word `v` (60_exceptions.md R240). -/
def State.accept (s : State) (v : Word) : State :=
  { s with
    cmd := v
    eng := .busy (s.latchOf v)
    done := false
    err := false
    errcode := 0
    z := false
    triv := false
    abortPending := false }

/-- A host write dropped because the engine is busy (70_reset_and_hazards.md R290, R291, 10_state.md R42). -/
def State.dropWrite (s : State) : State := { s with ovf := true }

/-- The command in flight is RHO, by its opcode 0x31 (10_state.md R35; log 8). -/
def State.rhoInFlight (s : State) : Bool :=
  match s.eng with
  | .idle => false
  | .busy c => (Fields.ofWord c.word).op == 0x31

/-- CTRL.ABORT written 1: sets `abort_pending` while RHO is in flight, else nothing (10_state.md R35). -/
def State.requestAbort (s : State) : State :=
  { s with abortPending := s.abortPending || s.rhoInFlight }

/-- Hardware or soft reset: every item of 10_state.md R54 takes its reset value (70_reset_and_hazards.md R280, R282). The
configuration is no item of it, and of the model's own fields the turns and the draws go on. -/
def State.toReset (s : State) : State :=
  { State.resetFor s.cfg with turns := s.turns, draws := s.draws }

/-- A host write to CTRL (10_state.md R33-R37): SRST discards the write's other bits. -/
def State.writeCtrl (s : State) (v : Word) : State :=
  if v.getLsbD 2 then s.toReset
  else
    let t := if v.getLsbD 1 then s.requestAbort else s
    { t with ie := v.getLsbD 0, win := v.extractLsb' 4 4 }

/-- The latch of the command in flight. With none in flight, where the engine has no step (60_exceptions.md R244), it is the
latch that accepting the CMD readback would make (DESIGN CHOICE, log 10: no step of the machine reaches this case). -/
def State.latch (s : State) : Command :=
  match s.eng with
  | .busy c => c
  | .idle => s.latchOf s.cmd

/-- The command in flight goes on in phase Iterate with these working values (10_state.md R50, R52). -/
def State.continueRho (s : State) (w : RhoWork) : State :=
  { s with eng := .busy { s.latch with phase := .iterate w } }

/-- `ITER <- (ITER + 1) mod 2^64` (10_state.md R46). -/
def State.countIteration (s : State) : State := { s with iter := s.iter + 1 }

/-- RHO sets ITER to 0 when it begins iterating (10_state.md R46). -/
def State.clearIter (s : State) : State := { s with iter := 0 }

/-- The MAE's answer to a host transaction (20_memory.md R62). -/
def State.respond (s : State) (r : Response) : State := { s with response := r }

end Sys2Proof.Machine
end

