-- ==== Sys2Proof/Machine/Bus.lean ====
section
/-! DEFINITION. The host's turns: bus transactions and the hardware reset (20_memory.md R62-R72, 70_reset_and_hazards.md
R280, R290, R291), and the host macros as lists of transactions (30_encoding.md R102). -/

namespace Sys2Proof.Machine

/-- What a transaction reaches, or its bus error (20_memory.md R63, R64, R67). Where several causes hold, the model names the
first in the rule's order (log 7). -/
def accessCheck (cfg : Config) (off : BitVec 12) (strobes : BitVec 4) : Except Fault Place :=
  if strobes ≠ 0xF then .error .narrowAccess
  else if off.toNat % 4 ≠ 0 then .error .misalignedAccess
  else
    match placeAt cfg off.toNat with
    | none => .error .undefinedOffset
    | some p => .ok p

/-- The word that stands at a place of the window (20_memory.md R65, R66). An operand word stands here as it is while idle. -/
def State.wordAt (s : State) (p : Place) : Word :=
  match p with
  | .id => idWord
  | .cfg => s.cfgWord
  | .ctrl => s.ctrlWord
  | .status => s.statusWord
  | .cmd => s.cmd
  | .iterLo => s.iter.extractLsb' 0 32
  | .iterHi => s.iter.extractLsb' 32 32
  | .rhoLimit => s.rhoLimit
  | .operand r w => operandWord (s.reg r) w

/-- A read of an operand word while busy returns an unspecified word, a free value (70_reset_and_hazards.md R290; log 6). -/
def State.drawWord (s : State) : State :=
  { s with response := .data (Config.freeWord s.draws), draws := s.draws + 1 }

/-- A read that reaches a place (20_memory.md R65, R66, 70_reset_and_hazards.md R290). -/
def State.readPlace (s : State) (p : Place) : State :=
  match p with
  | .operand r w => if s.busy then s.drawWord else s.respond (.data (s.wordAt (.operand r w)))
  | .id | .cfg | .ctrl | .status | .cmd | .iterLo | .iterHi | .rhoLimit => s.respond (.data (s.wordAt p))

/-- The effect of a write that reaches a place (20_memory.md R65, R66, R71; 70_reset_and_hazards.md R290, R291). -/
def State.writePlace (s : State) (p : Place) (v : Word) : State :=
  match p with
  | .id | .cfg | .iterLo | .iterHi => s
  | .ctrl => s.writeCtrl v
  | .status => s.writeStatus v
  | .cmd => if s.busy then s.dropWrite else s.accept v
  | .rhoLimit => if s.busy then s.dropWrite else { s with rhoLimit := v }
  | .operand r w => if s.busy then s.dropWrite else s.setReg r (setOperandWord (s.reg r) w v)

/-- A host read transaction (20_memory.md R62, R63). -/
def busRead (off : BitVec 12) (strobes : BitVec 4) (s : State) : Host.Outcome State Fault Refusal :=
  match accessCheck s.cfg off strobes with
  | .error f => .fault f
  | .ok p => .next (s.readPlace p)

/-- A host write transaction (20_memory.md R62, R63). -/
def busWrite (off : BitVec 12) (strobes : BitVec 4) (v : Word) (s : State) : Host.Outcome State Fault Refusal :=
  match accessCheck s.cfg off strobes with
  | .error f => .fault f
  | .ok p => .next ((s.writePlace p v).respond .ack)

/-- The hardware reset, a step of its own, possible at any time (70_reset_and_hazards.md R280). -/
def hardwareReset (s : State) : Host.Outcome State Fault Refusal := .next s.toReset

/-- `MemRead(off, 4)`: all four strobes set (20_memory.md R62). -/
def memRead (off : Nat) : Turn := .read (BitVec.ofNat 12 off) 0xF

/-- `MemWrite(off, 4, v)`: all four strobes set (20_memory.md R62). -/
def memWrite (off : Nat) (v : Word) : Turn := .write (BitVec.ofNat 12 off) 0xF v

/-- The words `w, w+1, …, w+k-1` of WREG's transactions. -/
def wregFrom (r : Reg) (v : Nat) : Nat → Nat → List Turn
  | _, 0 => []
  | w, k + 1 => memWrite (operandOffset r w) (operandWord v w) :: wregFrom r v (w + 1) k

/-- `WREG ri, v` (30_encoding.md R102). -/
def wreg (cfg : Config) (r : Reg) (v : Nat) : List Turn := wregFrom r v 0 cfg.nw

/-- The words `w, w+1, …, w+k-1` of RREG's transactions. -/
def rregFrom (r : Reg) : Nat → Nat → List Turn
  | _, 0 => []
  | w, k + 1 => memRead (operandOffset r w) :: rregFrom r (w + 1) k

/-- `RREG ri`, its transactions; the host assembles the words read with `assembleWords` (30_encoding.md R102). -/
def rreg (cfg : Config) (r : Reg) : List Turn := rregFrom r 0 cfg.nw

/-- The offset of a place of the window (20_memory.md R65, R66). -/
def Place.offset : Place → Nat
  | .id => 0x000
  | .cfg => 0x004
  | .ctrl => 0x008
  | .status => 0x00C
  | .cmd => 0x010
  | .iterLo => 0x014
  | .iterHi => 0x018
  | .rhoLimit => 0x01C
  | .operand r w => operandOffset r w

/-- `WCSR name, v` (30_encoding.md R102). -/
def wcsr (p : Place) (v : Word) : Turn := memWrite p.offset v

/-- `RCSR name` (30_encoding.md R102). -/
def rcsr (p : Place) : Turn := memRead p.offset

/-- `ISSUE insn`: the command word written to CMD (30_encoding.md R102). -/
def issue (i : Instr) : Turn := memWrite 0x010 (encode i)

/-- `WAIT` with `k` polls: the host reads STATUS again and again until BUSY is 0 (30_encoding.md R102). The engine moves once
before each poll here, one of the interleavings that 00_scope.md R12 allows; `k` is how many polls it takes (log 20). -/
def wait : Nat → List Turn
  | 0 => []
  | k + 1 => .engine :: rcsr .status :: wait k

/-- `EXEC insn` with `k` polls: `ISSUE insn`, then `WAIT` (30_encoding.md R102). -/
def execMacro (i : Instr) (k : Nat) : List Turn := issue i :: wait k

end Sys2Proof.Machine
end

