-- ==== Sys2Proof/Machine/DataMovement.lean ====
section
/-! DEFINITION. Register plumbing: NOP, MOV, LDI (40_data_movement.md). -/

namespace Sys2Proof.Machine

/-- NOP: a success completion that writes no register; Z and TRIV become 0 (40_data_movement.md R120, 10_state.md R29). -/
def execNop (s : State) : Host.Outcome State Fault Refusal :=
  .next (s.complete [] false false)

/-- MOV: `R[rd] <- R[ra]` (40_data_movement.md R122). -/
def execMov (rd ra : Reg) (s : State) : Host.Outcome State Fault Refusal :=
  .next (s.completeWith rd (s.reg ra))

/-- LDI: `R[rd] <- zext_W(imm)` (40_data_movement.md R124). -/
def execLdi (rd : Reg) (imm : BitVec 8) (s : State) : Host.Outcome State Fault Refusal :=
  .next (s.completeWith rd (zextImm imm))

end Sys2Proof.Machine
end

