-- ==== Sys2Proof/Machine/Arith.lean ====
section
/-! DEFINITION. The arithmetic of the commands over natural numbers, exact, with no wrap (00_scope.md R9-R11). `Nat.gcd` is
the spec's gcd: `gcd(a, 0) = a`, `gcd(0, 0) = 0` (R10). The results are the rules' own, and the two functions that need an
algorithm (`modPow`, `modInv`) recurse on a count so that they can be evaluated. -/

namespace Sys2Proof.Machine

/-- The number of bits of `v` (00_scope.md R10). -/
def bitlen (v : Nat) : Nat := if v = 0 then 0 else Nat.log2 v + 1

/-- `|a − b|` (00_scope.md R10). -/
def absDiff (a b : Nat) : Nat := if a ≤ b then b - a else a - b

/-- Left-to-right square-and-multiply over the low `k` bits of `e` (41_modular_arith.md R152). -/
def modPowBits (a n : Nat) : Nat → Nat → Nat
  | 0, _ => 1 % n
  | k + 1, e =>
    let r := modPowBits a n k (e / 2)
    let sq := r * r % n
    if e % 2 = 1 then sq * a % n else sq

/-- `(a ^ e) mod n` with `a^0 = 1` (41_modular_arith.md R150), by the binary method of R152. -/
def modPow (a e n : Nat) : Nat := modPowBits a n (bitlen e) e

/-- The extended Euclidean algorithm (41_modular_arith.md R155), at most `k` divisions. It keeps `r0 ≡ t0·a` and
`r1 ≡ t1·a (mod n)` with `t0, t1 < n`, and answers the coefficient of the last nonzero remainder. -/
def euclidCoeff (n : Nat) : Nat → Nat → Nat → Nat → Nat → Nat
  | 0, _, _, t0, _ => t0
  | k + 1, r0, r1, t0, t1 =>
    if r1 = 0 then t0
    else euclidCoeff n k r1 (r0 % r1) t1 ((t0 + (n - r0 / r1 * t1 % n)) % n)

/-- `inv(a, n)`: for `n > 0` and `gcd(a, n) = 1`, the unique `d` in `[0, n)` with `(a·d) mod n = 1 mod n` (00_scope.md R10,
R11). -/
def modInv (a n : Nat) : Nat := euclidCoeff n (2 * bitlen n + 1) n (a % n) 0 (1 % n)

/-- The Montgomery radix `R = 2^W` (42_montgomery.md R180). -/
def montRadix (cfg : Config) : Nat := 2 ^ cfg.width

/-- `R⁻¹ mod n`, as the rules write it: `inv(2^W mod n, n)` (42_montgomery.md R180, R182). -/
def montRadixInv (cfg : Config) (n : Nat) : Nat := modInv (montRadix cfg % n) n

/-- The rho function `g(x) = (x·x + 1) mod n` (43_gcd_rho.md R205). -/
def rhoG (n x : Nat) : Nat := (x * x + 1) % n

/-- One rho iteration, `(x', y', d)` from `(x, y)` (43_gcd_rho.md R206). -/
def rhoIteration (x y n : Nat) : Nat × Nat × Nat :=
  let x' := rhoG n x
  let y' := rhoG n (rhoG n y)
  (x', y', Nat.gcd (absDiff x' y') n)

end Sys2Proof.Machine
end

