-- ==== Sys2Proof/Machine/GcdRho.lean ====
section
/-! DEFINITION. GCD and Pollard's rho: GCD, RHOSTEP, and RHO with its iteration step (43_gcd_rho.md). -/

namespace Sys2Proof.Machine

/-- GCD: `gcd(a, b)`, with no error (43_gcd_rho.md R200). -/
def execGcd (rd ra rb : Reg) (s : State) : Host.Outcome State Fault Refusal :=
  .next (s.completeWith rd (Nat.gcd (s.reg ra) (s.reg rb)))

/-- The success completion of the rho commands: the writes go in the order ra, rb, rd, Z is 0, and TRIV says `d = n`
(43_gcd_rho.md R212, R222). -/
def State.completeRho (s : State) (rd ra rb : Reg) (x y d n : Nat) : State :=
  s.complete [(ra, x), (rb, y), (rd, d)] false (trivFlag d n)

/-- RHOSTEP: one rho iteration on the registers, and ITER + 1 (43_gcd_rho.md R210, R212). -/
def execRhostep (rd ra rb rm : Reg) (s : State) : Host.Outcome State Fault Refusal :=
  let x := s.reg ra
  let y := s.reg rb
  let n := s.reg rm
  if n = 0 then .next (s.raiseError .modulus)
  else if isResidue x n && isResidue y n then
    match rhoIteration x y n with
    | (x', y', d) => .next ((s.completeRho rd ra rb x' y' d n).countIteration)
  else .next (s.raiseError .range)

/-- RHO's start step: E_MOD for `n < 3`, else phase Iterate from `x = y = 2` with ITER 0 and no register written
(43_gcd_rho.md R221). RD, RA and RB are named by the latched word and used at completion (R222). -/
def execRho (_rd _ra _rb rm : Reg) (s : State) : Host.Outcome State Fault Refusal :=
  let n := s.reg rm
  if n < 3 then .next (s.raiseError .modulus)
  else .next (s.clearIter.continueRho { n := n, x := 2, y := 2, itc := 0 })

/-- RHO's iteration step, for the latch `c` with the working values `w` (43_gcd_rho.md R222, R223, R224). -/
def rhoIterate (c : Command) (w : RhoWork) (s : State) : State :=
  if s.abortPending then s.raiseError .abort
  else
    match rhoIteration w.x w.y w.n with
    | (x', y', d) =>
      let f := Fields.ofWord c.word
      let itc := w.itc + 1
      let t := s.countIteration
      if d ≠ 1 then t.completeRho (regOf f.rd) (regOf f.ra) (regOf f.rb) x' y' d w.n
      else if c.limit ≠ 0 ∧ itc = c.limit.toNat then t.raiseError .limit
      else t.continueRho { n := w.n, x := x', y := y', itc := itc }

end Sys2Proof.Machine
end

