-- ==== Sys2Proof/Machine/Modular.lean ====
section
/-! DEFINITION. Modular arithmetic: REDUCE, MODADD, MODSUB, MODMUL, MODEXP, MODINV (41_modular_arith.md). Each reads its
sources before it writes, and checks the modulus (R141) before the residues (R140). -/

namespace Sys2Proof.Machine

/-- REDUCE: `a mod n`, with no range check (41_modular_arith.md R142). -/
def execReduce (rd ra rm : Reg) (s : State) : Host.Outcome State Fault Refusal :=
  let a := s.reg ra
  let n := s.reg rm
  if n = 0 then .next (s.raiseError .modulus)
  else .next (s.completeWith rd (a % n))

/-- MODADD: `(a + b) mod n` (41_modular_arith.md R144). -/
def execModadd (rd ra rb rm : Reg) (s : State) : Host.Outcome State Fault Refusal :=
  let a := s.reg ra
  let b := s.reg rb
  let n := s.reg rm
  if n = 0 then .next (s.raiseError .modulus)
  else if isResidue a n && isResidue b n then .next (s.completeWith rd ((a + b) % n))
  else .next (s.raiseError .range)

/-- MODSUB: `a − b`, or `a + n − b` where `a < b` (41_modular_arith.md R146). -/
def execModsub (rd ra rb rm : Reg) (s : State) : Host.Outcome State Fault Refusal :=
  let a := s.reg ra
  let b := s.reg rb
  let n := s.reg rm
  if n = 0 then .next (s.raiseError .modulus)
  else if isResidue a n && isResidue b n then
    .next (s.completeWith rd (if b ≤ a then a - b else a + n - b))
  else .next (s.raiseError .range)

/-- MODMUL: `(a · b) mod n`, for odd and even `n` alike (41_modular_arith.md R148). -/
def execModmul (rd ra rb rm : Reg) (s : State) : Host.Outcome State Fault Refusal :=
  let a := s.reg ra
  let b := s.reg rb
  let n := s.reg rm
  if n = 0 then .next (s.raiseError .modulus)
  else if isResidue a n && isResidue b n then .next (s.completeWith rd (a * b % n))
  else .next (s.raiseError .range)

/-- MODEXP: `(a ^ e) mod n`; the exponent is not range-checked, and CTRL.WIN changes nothing (41_modular_arith.md R150,
R151). -/
def execModexp (rd ra rb rm : Reg) (s : State) : Host.Outcome State Fault Refusal :=
  let a := s.reg ra
  let e := s.reg rb
  let n := s.reg rm
  if n = 0 then .next (s.raiseError .modulus)
  else if isResidue a n then .next (s.completeWith rd (modPow a e n))
  else .next (s.raiseError .range)

/-- MODINV: the inverse of `a` modulo `n`; E_NOINV where `gcd(a, n) ≠ 1` (41_modular_arith.md R154). -/
def execModinv (rd ra rm : Reg) (s : State) : Host.Outcome State Fault Refusal :=
  let a := s.reg ra
  let n := s.reg rm
  if n = 0 then .next (s.raiseError .modulus)
  else if isResidue a n then
    if Nat.gcd a n = 1 then .next (s.completeWith rd (modInv a n))
    else .next (s.raiseError .noinv)
  else .next (s.raiseError .range)

end Sys2Proof.Machine
end

