-- ==== Sys2Proof/Machine/Montgomery.lean ====
section
/-! DEFINITION. The Montgomery multiplier: MONTMUL, TOMONT, FROMMONT (42_montgomery.md). Each needs an odd modulus, checked
before the residues (R181). -/

namespace Sys2Proof.Machine

/-- MONTMUL: `(a · b · inv(2^W mod n, n)) mod n` (42_montgomery.md R182). -/
def execMontmul (rd ra rb rm : Reg) (s : State) : Host.Outcome State Fault Refusal :=
  let a := s.reg ra
  let b := s.reg rb
  let n := s.reg rm
  if n % 2 = 0 then .next (s.raiseError .modulus)
  else if isResidue a n && isResidue b n then
    .next (s.completeWith rd (a * b * montRadixInv s.cfg n % n))
  else .next (s.raiseError .range)

/-- TOMONT: `(a · 2^W) mod n` (42_montgomery.md R184). -/
def execTomont (rd ra rm : Reg) (s : State) : Host.Outcome State Fault Refusal :=
  let a := s.reg ra
  let n := s.reg rm
  if n % 2 = 0 then .next (s.raiseError .modulus)
  else if isResidue a n then .next (s.completeWith rd (a * montRadix s.cfg % n))
  else .next (s.raiseError .range)

/-- FROMMONT: `(a · inv(2^W mod n, n)) mod n` (42_montgomery.md R186). -/
def execFrommont (rd ra rm : Reg) (s : State) : Host.Outcome State Fault Refusal :=
  let a := s.reg ra
  let n := s.reg rm
  if n % 2 = 0 then .next (s.raiseError .modulus)
  else if isResidue a n then .next (s.completeWith rd (a * montRadixInv s.cfg n % n))
  else .next (s.raiseError .range)

end Sys2Proof.Machine
end

