-- ==== Sys2Proof/Machine/Dispatch.lean ====
section
/-! DEFINITION. exec: the start step of each command, run after decoding has passed (60_exceptions.md R241). -/

namespace Sys2Proof.Machine

-- One arm per constructor: a direct call of the command's meaning.
def exec (i : Instr) (s : State) : Host.Outcome State Fault Refusal :=
  match i with
  | .nop => Sys2Proof.Machine.execNop s
  | .mov rd ra => Sys2Proof.Machine.execMov rd ra s
  | .ldi rd imm => Sys2Proof.Machine.execLdi rd imm s
  | .reduce rd ra rm => Sys2Proof.Machine.execReduce rd ra rm s
  | .modadd rd ra rb rm => Sys2Proof.Machine.execModadd rd ra rb rm s
  | .modsub rd ra rb rm => Sys2Proof.Machine.execModsub rd ra rb rm s
  | .modmul rd ra rb rm => Sys2Proof.Machine.execModmul rd ra rb rm s
  | .modexp rd ra rb rm => Sys2Proof.Machine.execModexp rd ra rb rm s
  | .modinv rd ra rm => Sys2Proof.Machine.execModinv rd ra rm s
  | .montmul rd ra rb rm => Sys2Proof.Machine.execMontmul rd ra rb rm s
  | .tomont rd ra rm => Sys2Proof.Machine.execTomont rd ra rm s
  | .frommont rd ra rm => Sys2Proof.Machine.execFrommont rd ra rm s
  | .gcd rd ra rb => Sys2Proof.Machine.execGcd rd ra rb s
  | .rhostep rd ra rb rm => Sys2Proof.Machine.execRhostep rd ra rb rm s
  | .rho rd ra rb rm => Sys2Proof.Machine.execRho rd ra rb rm s

end Sys2Proof.Machine
end

