-- ==== Sys2Proof/Machine/Engine.lean ====
section
/-! DEFINITION. The engine's turn (60_exceptions.md R241, R244; 43_gcd_rho.md R222). -/

namespace Sys2Proof.Machine

/-- The start step: decode the latched word; an illegal word ends with E_ILLEGAL, a legal one runs (60_exceptions.md R241). -/
def startStep (c : Command) (s : State) : Host.Outcome State Fault Refusal :=
  match decode c.word with
  | none => .next (s.raiseError .illegal)
  | some i => exec i s

/-- The engine's turn. While idle the engine has no step, and the turn changes nothing (60_exceptions.md R244; log 4). -/
def engineTurn (s : State) : Host.Outcome State Fault Refusal :=
  match s.eng with
  | .idle => .next s
  | .busy c =>
    match c.phase with
    | .start => startStep c s
    | .iterate w => .next (rhoIterate c w s)

/-- The machine with a command word in flight as acceptance leaves it, the engine to move next (60_exceptions.md R240). -/
def placeCommand (s : State) (v : Word) : State :=
  match s.turns with
  | [] => s.accept v
  | t :: rest => { s.accept v with turns := .engine :: t :: rest }

end Sys2Proof.Machine
end

