-- ==== Sys2Proof/Machine/Step.lean ====
section
/-! DEFINITION. One step of the machine: the next turn listed in `turns`, or the engine's turn where none is listed
(00_scope.md R12, 60_exceptions.md R244; log 3). -/

namespace Sys2Proof.Machine

/-- One step: the next listed turn is taken off the list and run; with none listed, the engine moves. -/
def step (s : State) : Host.Outcome State Fault Refusal :=
  match s.turns with
  | [] => engineTurn s
  | .engine :: rest => engineTurn { s with turns := rest }
  | .read off strobes :: rest => busRead off strobes { s with turns := rest }
  | .write off strobes v :: rest => busWrite off strobes v { s with turns := rest }
  | .reset :: rest => hardwareReset { s with turns := rest }

/-- `s` with the command word `w` in flight, so that the very next step runs it (log 11). The MAE fetches nothing: a word
comes to run by a CMD write, and this stands for that write (10_state.md R27, R45, 60_exceptions.md R240). -/
def State.withFetchWord (s : State) (nbits w : Nat) : State := placeCommand s (BitVec.ofNat 32 (w % 2 ^ nbits))

end Sys2Proof.Machine
end

