-- ==== Sys2Proof/Machine/Assembler.lean ====
section
/-! DEFINITION. The spec's own assembler: the text of a command and its reading (30_encoding.md R100), and the
pseudo-instructions (R101). Text is a list of characters. -/

namespace Sys2Proof

/-- `CLR rd` is `LDI rd, 0` (30_encoding.md R101). -/
def Instr.clr (rd : Reg) : Instr := .ldi rd 0

/-- `MODSQR rd, ra, rm` is `MODMUL rd, ra, ra, rm` (30_encoding.md R101). -/
def Instr.modsqr (rd ra rm : Reg) : Instr := .modmul rd ra ra rm

/-- `MONTSQR rd, ra, rm` is `MONTMUL rd, ra, ra, rm` (30_encoding.md R101). -/
def Instr.montsqr (rd ra rm : Reg) : Instr := .montmul rd ra ra rm

/-- `FACTOR rd, rm` is `RHO rd, rd, rd, rm` (30_encoding.md R101). -/
def Instr.factor (rd rm : Reg) : Instr := .rho rd rd rd rm

namespace Machine

/-- A register as the assembler writes it, `r0` to `r7` (30_encoding.md R100). -/
def regText (r : Reg) : List Char := ['r', Nat.digitChar r.val]

/-- A number in decimal (30_encoding.md R100). -/
def immText (imm : BitVec 8) : List Char := Nat.toDigits 10 imm.toNat

/-- Operands separated by commas (30_encoding.md R100). -/
def operandsText : List (List Char) → List Char
  | [] => []
  | [x] => x
  | x :: rest => x ++ (',' :: ' ' :: operandsText rest)

/-- A mnemonic and its operands (30_encoding.md R100). -/
def lineText (name : String) (operands : List (List Char)) : List Char :=
  match operands with
  | [] => name.toList
  | _ => name.toList ++ (' ' :: operandsText operands)

/-- The assembler text of a command: mnemonic, then the operands in the order RD, RA, RB, RM (30_encoding.md R100). -/
def asmText : Instr → List Char
  | .nop => lineText "NOP" []
  | .mov rd ra => lineText "MOV" [regText rd, regText ra]
  | .ldi rd imm => lineText "LDI" [regText rd, immText imm]
  | .reduce rd ra rm => lineText "REDUCE" [regText rd, regText ra, regText rm]
  | .modadd rd ra rb rm => lineText "MODADD" [regText rd, regText ra, regText rb, regText rm]
  | .modsub rd ra rb rm => lineText "MODSUB" [regText rd, regText ra, regText rb, regText rm]
  | .modmul rd ra rb rm => lineText "MODMUL" [regText rd, regText ra, regText rb, regText rm]
  | .modexp rd ra rb rm => lineText "MODEXP" [regText rd, regText ra, regText rb, regText rm]
  | .modinv rd ra rm => lineText "MODINV" [regText rd, regText ra, regText rm]
  | .montmul rd ra rb rm => lineText "MONTMUL" [regText rd, regText ra, regText rb, regText rm]
  | .tomont rd ra rm => lineText "TOMONT" [regText rd, regText ra, regText rm]
  | .frommont rd ra rm => lineText "FROMMONT" [regText rd, regText ra, regText rm]
  | .gcd rd ra rb => lineText "GCD" [regText rd, regText ra, regText rb]
  | .rhostep rd ra rb rm => lineText "RHOSTEP" [regText rd, regText ra, regText rb, regText rm]
  | .rho rd ra rb rm => lineText "RHO" [regText rd, regText ra, regText rb, regText rm]

/-- Text less the spaces around it. -/
def trimText (t : List Char) : List Char :=
  ((t.dropWhile (· == ' ')).reverse.dropWhile (· == ' ')).reverse

/-- Text cut at each comma. -/
def splitCommas : List Char → List (List Char)
  | [] => [[]]
  | c :: rest =>
    if c = ',' then [] :: splitCommas rest
    else
      match splitCommas rest with
      | [] => [[c]]
      | t :: ts => (c :: t) :: ts

/-- The value of a digit in a base, letters in either case. -/
def digitValue (base : Nat) (c : Char) : Option Nat :=
  let v :=
    if '0' ≤ c ∧ c ≤ '9' then c.toNat - '0'.toNat
    else if 'a' ≤ c ∧ c ≤ 'f' then c.toNat - 'a'.toNat + 10
    else if 'A' ≤ c ∧ c ≤ 'F' then c.toNat - 'A'.toNat + 10
    else base
  if v < base then some v else none

/-- The value of digits in a base, `acc` before them. -/
def digitsValue (base : Nat) : Nat → List Char → Option Nat
  | acc, [] => some acc
  | acc, c :: rest =>
    match digitValue base c with
    | none => none
    | some v => digitsValue base (acc * base + v) rest

/-- A decimal or `0x` hexadecimal number from 0 to 255 (30_encoding.md R100). -/
def readImm (t : List Char) : Option (BitVec 8) :=
  let v :=
    match t with
    | [] => none
    | '0' :: 'x' :: c :: rest => digitsValue 16 0 (c :: rest)
    | _ => digitsValue 10 0 t
  match v with
  | none => none
  | some v => if v < 256 then some (BitVec.ofNat 8 v) else none

/-- A register name, `r0` to `r7`, in either case (30_encoding.md R100). -/
def readReg (t : List Char) : Option Reg :=
  match t with
  | [r, d] =>
    if r = 'r' ∨ r = 'R' then
      match digitValue 8 d with
      | none => none
      | some v => if h : v < 8 then some ⟨v, h⟩ else none
    else none
  | _ => none

/-- Every operand a register. -/
def readRegs : List (List Char) → Option (List Reg)
  | [] => some []
  | t :: rest =>
    match readReg t, readRegs rest with
    | some r, some rs => some (r :: rs)
    | _, _ => none

/-- The command of a mnemonic that takes register operands only, the pseudo-instructions among them (R100, R101). -/
def ofRegs (name : String) (rs : List Reg) : Option Instr :=
  match name, rs with
  | "NOP", [] => some .nop
  | "MOV", [rd, ra] => some (.mov rd ra)
  | "REDUCE", [rd, ra, rm] => some (.reduce rd ra rm)
  | "MODADD", [rd, ra, rb, rm] => some (.modadd rd ra rb rm)
  | "MODSUB", [rd, ra, rb, rm] => some (.modsub rd ra rb rm)
  | "MODMUL", [rd, ra, rb, rm] => some (.modmul rd ra rb rm)
  | "MODEXP", [rd, ra, rb, rm] => some (.modexp rd ra rb rm)
  | "MODINV", [rd, ra, rm] => some (.modinv rd ra rm)
  | "MONTMUL", [rd, ra, rb, rm] => some (.montmul rd ra rb rm)
  | "TOMONT", [rd, ra, rm] => some (.tomont rd ra rm)
  | "FROMMONT", [rd, ra, rm] => some (.frommont rd ra rm)
  | "GCD", [rd, ra, rb] => some (.gcd rd ra rb)
  | "RHOSTEP", [rd, ra, rb, rm] => some (.rhostep rd ra rb rm)
  | "RHO", [rd, ra, rb, rm] => some (.rho rd ra rb rm)
  | "CLR", [rd] => some (.clr rd)
  | "MODSQR", [rd, ra, rm] => some (.modsqr rd ra rm)
  | "MONTSQR", [rd, ra, rm] => some (.montsqr rd ra rm)
  | "FACTOR", [rd, rm] => some (.factor rd rm)
  | _, _ => none

/-- The command that a line of assembler text writes; none where it writes none (30_encoding.md R100, R101). Mnemonics and
register names are read in either case. -/
def readAsm (text : List Char) : Option Instr :=
  let t := trimText text
  let name := String.ofList ((t.takeWhile (· != ' ')).map Char.toUpper)
  let rest := trimText (t.dropWhile (· != ' '))
  let operands := if rest = [] then [] else (splitCommas rest).map trimText
  if name = "LDI" then
    match operands with
    | [d, imm] =>
      match readReg d, readImm imm with
      | some rd, some v => some (.ldi rd v)
      | _, _ => none
    | _ => none
  else
    match readRegs operands with
    | none => none
    | some rs => ofRegs name rs

end Machine

end Sys2Proof
end

