-- ==== Sys2Proof/Machine/Methods.lean ====
section
/-! DEFINITION. The spec's informative methods for results that the rules define otherwise: sliding-window exponentiation
(41_modular_arith.md R153), word-serial Montgomery reduction (42_montgomery.md R183) and Stein's gcd (43_gcd_rho.md R201). No
step runs them (log 9): they are here so that their results can be stated equal to the rules'. The binary exponentiation of
R152 and the extended Euclidean algorithm of R155 are `modPow` and `modInv` in Machine/Arith.lean. -/

namespace Sys2Proof.Machine

/-- The window width that CTRL.WIN selects: 0 and 1 the binary method, 7 to 15 act as 6 (10_state.md R37). -/
def windowOf (win : BitVec 4) : Nat := if win.toNat ≤ 1 then 1 else min win.toNat 6

/-- The bits of `e` from bit `k-1` down to bit 0. -/
def bitsFromTop (e : Nat) : Nat → List Bool
  | 0 => []
  | k + 1 => e.testBit k :: bitsFromTop e k

/-- The number that bits spell, most significant first. -/
def spelled (bits : List Bool) : Nat := bits.foldl (fun v b => 2 * v + b.toNat) 0

/-- Bits less their trailing zeros, so that they end in a 1. -/
def dropTrailingZeros (bits : List Bool) : List Bool := (bits.reverse.dropWhile (fun b => !b)).reverse

/-- The longest run of at most `k` bits from the front that ends in a 1 (41_modular_arith.md R153). -/
def windowRun (k : Nat) (bits : List Bool) : List Bool := dropTrailingZeros (bits.take k)

/-- `r` squared modulo `n`, `k` times. -/
def squareTimes (n : Nat) : Nat → Nat → Nat
  | 0, r => r
  | k + 1, r => squareTimes n k (r * r % n)

/-- The odd powers `p, p·q, p·q², …`, `k` of them, modulo `n`. -/
def powersFrom (n q : Nat) : Nat → Nat → List Nat
  | 0, _ => []
  | k + 1, p => p :: powersFrom n q k (p * q % n)

/-- The precomputed odd powers `a^1, a^3, …, a^(2^k − 1) mod n` (41_modular_arith.md R153). -/
def oddPowers (k a n : Nat) : List Nat := powersFrom n (a * a % n) (2 ^ (k - 1)) (a % n)

/-- The scan of the sliding-window method, at most `fuel` windows (41_modular_arith.md R153). -/
def slideWindow (k n : Nat) (table : List Nat) : Nat → List Bool → Nat → Nat
  | 0, _, r => r
  | _ + 1, [], r => r
  | fuel + 1, false :: rest, r => slideWindow k n table fuel rest (r * r % n)
  | fuel + 1, true :: rest, r =>
    let run := windowRun k (true :: rest)
    let power := table.getD (spelled run / 2) 0
    slideWindow k n table fuel ((true :: rest).drop run.length) (squareTimes n run.length r * power % n)

/-- Sliding-window exponentiation with window `k` (41_modular_arith.md R153). -/
def modPowWindow (k a e n : Nat) : Nat :=
  slideWindow k n (oddPowers k a n) (bitlen e) (bitsFromTop e (bitlen e)) (1 % n)

/-- The exponentiation that CTRL.WIN selects: the binary method, or a sliding window (10_state.md R37, 41 R151). -/
def modPowScheduled (win : BitVec 4) (a e n : Nat) : Nat :=
  if windowOf win = 1 then modPow a e n else modPowWindow (windowOf win) a e n

/-- `n' = (−n⁻¹) mod 2^32` (42_montgomery.md R183). -/
def montNPrime (n : Nat) : Nat := (2 ^ 32 - modInv (n % 2 ^ 32) (2 ^ 32)) % 2 ^ 32

/-- `k` rounds of the word-serial reduction (42_montgomery.md R183). -/
def montRounds (n n' : Nat) : Nat → Nat → Nat
  | 0, t => t
  | k + 1, t => montRounds n n' k ((t + t % 2 ^ 32 * n' % 2 ^ 32 * n) / 2 ^ 32)

/-- The word-serial Montgomery product with its final conditional subtraction (42_montgomery.md R183). -/
def montMulWordSerial (cfg : Config) (a b n : Nat) : Nat :=
  let t := montRounds n (montNPrime n) cfg.nw (a * b)
  if n ≤ t then t - n else t

/-- The binary (Stein) gcd, at most `fuel` halvings or subtractions (43_gcd_rho.md R201). -/
def steinGcd : Nat → Nat → Nat → Nat
  | 0, a, b => a + b
  | fuel + 1, a, b =>
    if a = 0 then b
    else if b = 0 then a
    else if a % 2 = 0 ∧ b % 2 = 0 then 2 * steinGcd fuel (a / 2) (b / 2)
    else if a % 2 = 0 then steinGcd fuel (a / 2) b
    else if b % 2 = 0 then steinGcd fuel a (b / 2)
    else if b ≤ a then steinGcd fuel ((a - b) / 2) b
    else steinGcd fuel a ((b - a) / 2)

/-- The gcd by the binary algorithm, with enough steps for its operands (43_gcd_rho.md R201). -/
def gcdBinary (a b : Nat) : Nat := steinGcd (bitlen a + bitlen b) a b

end Sys2Proof.Machine
end

