-- ==== Sys2Proof/Safety.lean ====
section
/-! DEFINITION. The terms that the statements use: the two completions of a command as relations between two states, the
registers a command may write, the legal host turns, whose turn it is, and the invariants of the machine. -/

namespace Sys2Proof

/-- The operand registers that a command's start step may write (10_state.md R21). RHO's writes come at its completion. -/
def Instr.destinations : Instr → List Reg
  | .nop => []
  | .mov rd _ => [rd]
  | .ldi rd _ => [rd]
  | .reduce rd _ _ => [rd]
  | .modadd rd _ _ _ => [rd]
  | .modsub rd _ _ _ => [rd]
  | .modmul rd _ _ _ => [rd]
  | .modexp rd _ _ _ => [rd]
  | .modinv rd _ _ => [rd]
  | .montmul rd _ _ _ => [rd]
  | .tomont rd _ _ => [rd]
  | .frommont rd _ _ => [rd]
  | .gcd rd _ _ => [rd]
  | .rhostep rd ra rb _ => [ra, rb, rd]
  | .rho _ _ _ _ => []

/-- The command is RHO, the only one whose start step need not end with a completion (60_exceptions.md R241). -/
def Instr.isRho : Instr → Bool
  | .rho _ _ _ _ => true
  | .nop | .mov _ _ | .ldi _ _ | .reduce _ _ _ | .modadd _ _ _ _ | .modsub _ _ _ _ | .modmul _ _ _ _ | .modexp _ _ _ _
  | .modinv _ _ _ | .montmul _ _ _ _ | .tomont _ _ _ | .frommont _ _ _ | .gcd _ _ _ | .rhostep _ _ _ _ => false

/-- The command counts iterations in ITER (10_state.md R46). -/
def Instr.countsIterations : Instr → Bool
  | .rhostep _ _ _ _ | .rho _ _ _ _ => true
  | .nop | .mov _ _ | .ldi _ _ | .reduce _ _ _ | .modadd _ _ _ _ | .modsub _ _ _ _ | .modmul _ _ _ _ | .modexp _ _ _ _
  | .modinv _ _ _ | .montmul _ _ _ _ | .tomont _ _ _ | .frommont _ _ _ | .gcd _ _ _ => false

/-- Bits `hi` down to `lo` of a word, as a number: the notation `w[hi:lo]` of 00_scope.md R8. -/
def slice (w : Word) (hi lo : Nat) : Nat := w.toNat / 2 ^ lo % 2 ^ (hi + 1 - lo)

namespace Machine

/-- What no step of the engine changes: the configuration, CTRL, OVF, CMD readback, RHO_LIMIT, and the model's own fields. -/
structure EngineKeeps (s t : State) : Prop where
  cfg : t.cfg = s.cfg
  ie : t.ie = s.ie
  win : t.win = s.win
  ovf : t.ovf = s.ovf
  cmd : t.cmd = s.cmd
  rhoLimit : t.rhoLimit = s.rhoLimit
  turns : t.turns = s.turns
  response : t.response = s.response
  draws : t.draws = s.draws

/-- `t` is `s` after a success completion with these flags (60_exceptions.md R242), but for the operand registers and ITER,
which the command's own rule gives. -/
structure SuccessCompletion (s t : State) (z triv : Bool) : Prop where
  keeps : EngineKeeps s t
  z : t.z = z
  triv : t.triv = triv
  done : t.done = true
  err : t.err = false
  errcode : t.errcode = 0
  idle : t.eng = .idle
  abortPending : t.abortPending = false

/-- `t` is `s` after the error completion with this code (60_exceptions.md R243): no operand register is written and ITER keeps
its value. -/
structure ErrorCompletion (s t : State) (code : BitVec 4) : Prop where
  keeps : EngineKeeps s t
  regs : ∀ r, t.reg r = s.reg r
  iter : t.iter = s.iter
  z : t.z = false
  triv : t.triv = false
  errcode : t.errcode = code
  err : t.err = true
  done : t.done = true
  idle : t.eng = .idle
  abortPending : t.abortPending = false

/-- `t` has `v` in register `rd` and every other operand register as in `s`. -/
def WritesOnly (s t : State) (rd : Reg) (v : Nat) : Prop :=
  t.reg rd = v ∧ ∀ r, r ≠ rd → t.reg r = s.reg r

/-- The success of a command that writes one register: the value, Z from it, TRIV 0, ITER as it was. -/
def SucceedsWith (s t : State) (rd : Reg) (v : Nat) : Prop :=
  WritesOnly s t rd v ∧ t.iter = s.iter ∧ SuccessCompletion s t (decide (v = 0)) false

/-- The engine moves next: the next listed turn is the engine's, or no turn is listed (log 3). -/
abbrev State.EngineMoves (s : State) : Prop := s.turns = [] ∨ s.turns.head? = some .engine

/-- A run has ended: the host has no turn left and the engine is idle (70_reset_and_hazards.md R302). -/
abbrev State.RunEnded (s : State) : Prop := s.turns = [] ∧ s.eng = .idle

/-- `s` with the next listed turn taken off the list. -/
def State.popped (s : State) : State := { s with turns := s.turns.tail }

/-- An aligned 32-bit read at `off` answers `w` and changes nothing else. -/
def ReadsTo (s : State) (off : Nat) (w : Word) : Prop :=
  ∀ rest, step { s with turns := .read (BitVec.ofNat 12 off) 0xF :: rest }
    = .next { s with turns := rest, response := .data w }

/-- An aligned 32-bit write of `v` at `off` is acknowledged and leaves `t`, with the turns that follow. -/
def WritesTo (s : State) (off : Nat) (v : Word) (t : State) : Prop :=
  ∀ rest, step { s with turns := .write (BitVec.ofNat 12 off) 0xF v :: rest }
    = .next { t with turns := rest, response := .ack }

/-- The start step of a word ends its command with E_ILLEGAL (30_encoding.md R97, R98): code 1 and no
register written. -/
def EndsWithIllegal (w : Word) : Prop :=
  ∀ s c, s.EngineMoves → s.eng = .busy c → c.phase = .start → c.word = w →
    ∃ t, step s = .next t ∧ ErrorCompletion s.popped t 1

/-- A command succeeds and leaves `v` in `rd`. -/
def Yields (i : Instr) (s : State) (rd : Reg) (v : Nat) : Prop :=
  ∃ t, exec i s = .next t ∧ t.err = false ∧ t.reg rd = v

/-- `s` with other values of CTRL.WIN and of the window latched by the command in flight (10_state.md R37, R50). -/
def State.withWindow (s : State) (k latched : BitVec 4) : State :=
  { s with
    win := k
    eng := match s.eng with
      | .idle => .idle
      | .busy c => .busy { c with win := latched } }

/-- The state after reset, item by item (10_state.md R54). -/
structure AtReset (s : State) : Prop where
  regs : ∀ r, s.reg r = 0
  ctrl : s.ie = false ∧ s.win = 0
  status : s.busy = false ∧ s.done = false ∧ s.err = false ∧ s.ovf = false ∧ s.errcode = 0 ∧ s.z = false ∧ s.triv = false
  cmd : s.cmd = 0
  iter : s.iter = 0
  rhoLimit : s.rhoLimit = 0
  eng : s.eng = .idle
  abortPending : s.abortPending = false
  irq : s.irq = false

/-- The next listed turn is a hardware reset, or a CTRL write with SRST set (70_reset_and_hazards.md R280, R282). -/
def State.Resets (s : State) : Prop :=
  s.turns.head? = some .reset ∨ ∃ v, s.turns.head? = some (.write 0x008 0xF v) ∧ v.getLsbD 2 = true

/-- An offset at which a register or an operand word stands (20_memory.md R65, R66, R67). -/
def DefinedOffset (cfg : Config) (off : Nat) : Prop :=
  off % 4 = 0 ∧ (off < 0x020 ∨ (0x100 ≤ off ∧ off < 0x900 ∧ off % 0x100 / 4 < cfg.nw))

/-- A turn that no bus error can stop (20_memory.md R63). -/
def Turn.Legal (cfg : Config) : Turn → Prop
  | .engine | .reset => True
  | .read off strobes => strobes = 0xF ∧ DefinedOffset cfg off.toNat
  | .write off strobes _ => strobes = 0xF ∧ DefinedOffset cfg off.toNat

/-- Every operand register holds a number below `2^W` (00_scope.md R9, 10_state.md R20), and so do RHO's modulus and working
values, which are residues of it (10_state.md R52, 43_gcd_rho.md R221). -/
structure ValuesInRange (s : State) : Prop where
  regs : ∀ r, s.reg r < 2 ^ s.cfg.width
  rho : ∀ c w, s.eng = .busy c → c.phase = .iterate w → 3 ≤ w.n ∧ w.n < 2 ^ s.cfg.width ∧ w.x < w.n ∧ w.y < w.n

/-- STATUS is coherent (10_state.md R29, R30, R39-R43): codes 7 to 15 never occur, ERR is 1 exactly when ERRCODE is not 0, an
error has no Z and no TRIV, Z and TRIV are never both 1, and while BUSY all of DONE, ERR, Z and TRIV are 0. -/
structure StatusCoherent (s : State) : Prop where
  code : s.errcode.toNat ≤ 6
  err : s.err = true ↔ s.errcode ≠ 0
  errFlags : s.err = true → s.z = false ∧ s.triv = false
  flags : ¬ (s.z = true ∧ s.triv = true)
  busy : s.busy = true → s.done = false ∧ s.err = false ∧ s.z = false ∧ s.triv = false

/-- `abort_pending` is set only while RHO is in flight (10_state.md R35, R51), by the opcode of the word in flight (log 8), and
CMD reads the word in flight (R45). -/
structure CommandCoherent (s : State) : Prop where
  abort : s.abortPending = true → s.rhoInFlight = true
  cmd : ∀ c, s.eng = .busy c → s.cmd = c.word

/-- RHO in phase Iterate is where `itc` rounds of the loop from `x = y = 2` lead: the word in flight spells RHO, the tortoise
is `g^itc(2)`, the hare `g^(2·itc)(2)`, ITER counts the rounds, and a limit is not reached (10_state.md R46, R52; 43_gcd_rho.md
R222, R225). -/
def RhoTrace (s : State) : Prop :=
  ∀ c w, s.eng = .busy c → c.phase = .iterate w →
    (∃ rd ra rb rm, decode c.word = some (.rho rd ra rb rm)) ∧
      w.x = (rhoG w.n)^[w.itc] 2 ∧ w.y = (rhoG w.n)^[2 * w.itc] 2 ∧ s.iter = BitVec.ofNat 64 w.itc ∧
        (c.limit ≠ 0 → w.itc < c.limit.toNat)

end Machine

end Sys2Proof
end

