-- ==== Sys2Proof/Certificates/Slice0/Obligations.lean ====
section
/-! DEFINITION. The statements for the provers, from the spec's numbered rules. Each docstring names the rules. The two agents'
turns come from the list `turns` of State, which is the model's form of 00_scope.md R12 (log 3): `s.EngineMoves` says that the
engine takes the next step, and `s.popped` is `s` with the listed turn taken off. -/

open Sys2Proof Sys2Proof.Machine

-- Encoding (30_encoding.md).

/-- Decoding an encoded command gives the command back, with every operand (30_encoding.md R90-R97). -/
def Obligations.EncodeThenDecodeGivesTheCommand : Prop :=
  ∀ i : Instr, decode (encode i) = some i

/-- The assembler text of a command reads back as that command (30_encoding.md R100). -/
def Obligations.AssemblerTextReadsBack : Prop :=
  ∀ i : Instr, readAsm (asmText i) = some i

/-- Each word spells at most one command, and encoding that command gives the word back (30_encoding.md R90-R97). -/
def Obligations.DecodeThenEncodeGivesTheWord : Prop :=
  ∀ (w : Word) (i : Instr), decode w = some i → encode i = w

/-- 30_encoding.md R97: a word spells a row's command exactly when `(word & mask) = match`, no two rows match one word, and a
word that no row matches is illegal and ends its command with E_ILLEGAL. -/
def Obligations.WordSpellsCommandByMaskAndMatch : Prop :=
  (∀ (w : Word), ∀ r ∈ opcodeTable, (w &&& r.mask = r.pattern ↔ ∃ i, decode w = some i ∧ i.opcode = r.op)) ∧
  (∀ (w : Word), ∀ r ∈ opcodeTable, ∀ q ∈ opcodeTable, w &&& r.mask = r.pattern → w &&& q.mask = q.pattern → r = q) ∧
  (∀ w : Word, (∀ r ∈ opcodeTable, w &&& r.mask ≠ r.pattern) → decode w = none ∧ EndsWithIllegal w)

/-- 30_encoding.md R98: a word with an unassigned opcode, and a word whose fields break R92, R94 or R95, is illegal: it ends
its command with E_ILLEGAL and writes no operand register. Every other word spells a command. -/
def Obligations.WordIsLegalByItsFields : Prop :=
  (∀ w : Word, (Fields.ofWord w).rsv.toNat = slice w 31 24 ∧ (Fields.ofWord w).rm.toNat = slice w 23 20 ∧
    (Fields.ofWord w).rb.toNat = slice w 19 16 ∧ (Fields.ofWord w).ra.toNat = slice w 15 12 ∧
    (Fields.ofWord w).rd.toNat = slice w 11 8 ∧ (Fields.ofWord w).op.toNat = slice w 7 0) ∧
  (∀ w : Word, (decode w).isSome = (Fields.ofWord w).WellFormed) ∧
  (∀ w : Word, (Fields.ofWord w).WellFormed = false → EndsWithIllegal w) ∧
  (∀ w : Word, (0x03 ≤ slice w 7 0 ∧ slice w 7 0 ≤ 0x0F) ∨ slice w 7 0 = 0x16 ∨ slice w 7 0 = 0x17 ∨
    (0x1B ≤ slice w 7 0 ∧ slice w 7 0 ≤ 0x1F) ∨ (0x21 ≤ slice w 7 0 ∧ slice w 7 0 ≤ 0x2F) ∨ 0x32 ≤ slice w 7 0 →
      decode w = none ∧ EndsWithIllegal w)

/-- 30_encoding.md R103: the six example words decode to their commands and encode them, and the two contrast words are
illegal. A sanity statement. -/
def Obligations.ExampleWordsDecode : Prop :=
  (decode 0x00210314 = some (.modexp 3 0 1 2) ∧ encode (.modexp 3 0 1 2) = 0x00210314) ∧
  (decode 0x00601415 = some (.modinv 4 1 6) ∧ encode (.modinv 4 1 6) = 0x00601415) ∧
  (decode 0x00041502 = some (.ldi 5 0x41) ∧ encode (.ldi 5 0x41) = 0x00041502) ∧
  (decode 0x00210331 = some (.rho 3 0 1 2) ∧ encode (.rho 3 0 1 2) = 0x00210331) ∧
  (decode 0x00010220 = some (.gcd 2 0 1) ∧ encode (.gcd 2 0 1) = 0x00010220) ∧
  (decode 0x00000000 = some .nop ∧ encode .nop = 0x00000000) ∧
  decode 0x01210314 = none ∧ decode 0x00290314 = none

-- The engine's steps (60_exceptions.md).

/-- Where the engine moves and the word in flight, in phase Start, spells `i`, the step is the start step of `i` (60 R241). The
step takes the listed engine turn, if any, off the list and does nothing else around `exec`. -/
def Obligations.StepRunsTheDecodedCommand : Prop :=
  ∀ (s : State) (c : Command) (i : Instr), s.EngineMoves → s.eng = .busy c → c.phase = .start →
    decode c.word = some i → step s = exec i { s with turns := s.turns.tail }

/-- 60_exceptions.md R241: an illegal word ends with E_ILLEGAL; a legal one runs its command, which completes in this one
step, but for RHO, which completes only with E_MOD and else enters phase Iterate. -/
def Obligations.StartStepCompletesOrBeginsRho : Prop :=
  ∀ (s : State) (c : Command), s.EngineMoves → s.eng = .busy c → c.phase = .start →
    (decode c.word = none → ∃ t, step s = .next t ∧ ErrorCompletion s.popped t 1) ∧
    (∀ i, decode c.word = some i → ∃ t, step s = .next t ∧ exec i s.popped = .next t ∧
      (i.isRho = false → t.eng = .idle ∧ t.done = true ∧ t.abortPending = false) ∧
      (i.isRho = true → (ErrorCompletion s.popped t 2) ∨ (∃ w, t.eng = .busy { c with phase := .iterate w })))

/-- While busy the engine has a step, which changes the state (60_exceptions.md R244). While idle its turn changes nothing:
R244 gives an idle engine no step at all, and a turn that changes nothing is the model's choice for it (log 4, DESIGN CHOICE). -/
def Obligations.EngineHasAStepExactlyWhileBusy : Prop :=
  ∀ s : State, s.EngineMoves →
    (s.eng = .idle → step s = .next s.popped) ∧
    (∀ c, s.eng = .busy c → ∃ t, step s = .next t ∧ t ≠ s.popped)

-- Register plumbing (40_data_movement.md).

/-- 40_data_movement.md R120: NOP is the word 0 only, writes no operand register, and completes with Z and TRIV 0. -/
def Obligations.NopCompletesWritingNothing : Prop :=
  (∀ w : Word, decode w = some .nop ↔ w &&& 0xFFFFFFFF = 0x00000000) ∧
  (∀ s : State, ∃ t, exec .nop s = .next t ∧ (∀ r, t.reg r = s.reg r) ∧ t.iter = s.iter ∧
    SuccessCompletion s t false false)

/-- 40_data_movement.md R122: MOV copies a register, with Z from the value. -/
def Obligations.MovCopiesRegister : Prop :=
  (∀ (w : Word) (rd ra : Reg), decode w = some (.mov rd ra) ↔
    w &&& 0xFFFF88FF = 0x00000001 ∧ slice w 11 8 = rd.val ∧ slice w 15 12 = ra.val) ∧
  (∀ (s : State) (rd ra : Reg), ∃ t, exec (.mov rd ra) s = .next t ∧ SucceedsWith s t rd (s.reg ra))

/-- 40_data_movement.md R124: LDI loads its 8-bit immediate zero-extended, with Z from the value. -/
def Obligations.LdiLoadsImmediate : Prop :=
  (∀ (w : Word) (rd : Reg) (imm : BitVec 8), decode w = some (.ldi rd imm) ↔
    w &&& 0xFFF008FF = 0x00000002 ∧ slice w 11 8 = rd.val ∧ slice w 19 12 = imm.toNat) ∧
  (∀ (s : State) (rd : Reg) (imm : BitVec 8), ∃ t, exec (.ldi rd imm) s = .next t ∧ SucceedsWith s t rd imm.toNat)

-- Modular arithmetic (41_modular_arith.md).

/-- 41_modular_arith.md R142: REDUCE gives `a mod n`, or E_MOD where `n = 0`. -/
def Obligations.ReduceGivesRemainder : Prop :=
  (∀ (w : Word) (rd ra rm : Reg), decode w = some (.reduce rd ra rm) ↔
    w &&& 0xFF8F88FF = 0x00000010 ∧ slice w 11 8 = rd.val ∧ slice w 15 12 = ra.val ∧ slice w 23 20 = rm.val) ∧
  (∀ (s : State) (rd ra rm : Reg),
    (s.reg rm = 0 → ∃ t, exec (.reduce rd ra rm) s = .next t ∧ ErrorCompletion s t 2) ∧
    (0 < s.reg rm → ∃ t, exec (.reduce rd ra rm) s = .next t ∧ SucceedsWith s t rd (s.reg ra % s.reg rm)))

/-- 41_modular_arith.md R144: MODADD gives `(a + b) mod n`, with E_MOD for `n = 0` before E_RANGE for an operand `≥ n`. -/
def Obligations.ModaddGivesSumModulo : Prop :=
  (∀ (w : Word) (rd ra rb rm : Reg), decode w = some (.modadd rd ra rb rm) ↔
    w &&& 0xFF8888FF = 0x00000011 ∧ slice w 11 8 = rd.val ∧ slice w 15 12 = ra.val ∧ slice w 19 16 = rb.val ∧
      slice w 23 20 = rm.val) ∧
  (∀ (s : State) (rd ra rb rm : Reg),
    (s.reg rm = 0 → ∃ t, exec (.modadd rd ra rb rm) s = .next t ∧ ErrorCompletion s t 2) ∧
    (0 < s.reg rm → s.reg rm ≤ s.reg ra ∨ s.reg rm ≤ s.reg rb →
      ∃ t, exec (.modadd rd ra rb rm) s = .next t ∧ ErrorCompletion s t 3) ∧
    (s.reg ra < s.reg rm → s.reg rb < s.reg rm →
      ∃ t, exec (.modadd rd ra rb rm) s = .next t ∧ SucceedsWith s t rd ((s.reg ra + s.reg rb) % s.reg rm)))

/-- 41_modular_arith.md R146: MODSUB gives `a − b`, or `a + n − b` where `a < b`, with E_MOD before E_RANGE. -/
def Obligations.ModsubGivesDifferenceModulo : Prop :=
  (∀ (w : Word) (rd ra rb rm : Reg), decode w = some (.modsub rd ra rb rm) ↔
    w &&& 0xFF8888FF = 0x00000012 ∧ slice w 11 8 = rd.val ∧ slice w 15 12 = ra.val ∧ slice w 19 16 = rb.val ∧
      slice w 23 20 = rm.val) ∧
  (∀ (s : State) (rd ra rb rm : Reg),
    (s.reg rm = 0 → ∃ t, exec (.modsub rd ra rb rm) s = .next t ∧ ErrorCompletion s t 2) ∧
    (0 < s.reg rm → s.reg rm ≤ s.reg ra ∨ s.reg rm ≤ s.reg rb →
      ∃ t, exec (.modsub rd ra rb rm) s = .next t ∧ ErrorCompletion s t 3) ∧
    (s.reg ra < s.reg rm → s.reg rb < s.reg rm → s.reg rb ≤ s.reg ra →
      ∃ t, exec (.modsub rd ra rb rm) s = .next t ∧ SucceedsWith s t rd (s.reg ra - s.reg rb)) ∧
    (s.reg ra < s.reg rm → s.reg rb < s.reg rm → s.reg ra < s.reg rb →
      ∃ t, exec (.modsub rd ra rb rm) s = .next t ∧ SucceedsWith s t rd (s.reg ra + s.reg rm - s.reg rb)))

/-- 41_modular_arith.md R148: MODMUL gives `(a · b) mod n`, with E_MOD before E_RANGE. -/
def Obligations.ModmulGivesProductModulo : Prop :=
  (∀ (w : Word) (rd ra rb rm : Reg), decode w = some (.modmul rd ra rb rm) ↔
    w &&& 0xFF8888FF = 0x00000013 ∧ slice w 11 8 = rd.val ∧ slice w 15 12 = ra.val ∧ slice w 19 16 = rb.val ∧
      slice w 23 20 = rm.val) ∧
  (∀ (s : State) (rd ra rb rm : Reg),
    (s.reg rm = 0 → ∃ t, exec (.modmul rd ra rb rm) s = .next t ∧ ErrorCompletion s t 2) ∧
    (0 < s.reg rm → s.reg rm ≤ s.reg ra ∨ s.reg rm ≤ s.reg rb →
      ∃ t, exec (.modmul rd ra rb rm) s = .next t ∧ ErrorCompletion s t 3) ∧
    (s.reg ra < s.reg rm → s.reg rb < s.reg rm →
      ∃ t, exec (.modmul rd ra rb rm) s = .next t ∧ SucceedsWith s t rd (s.reg ra * s.reg rb % s.reg rm)))

/-- 41_modular_arith.md R150: MODEXP gives `(a ^ e) mod n` for every exponent (`a^0 = 1`), with E_MOD before E_RANGE for the
base, whatever CTRL.WIN is. -/
def Obligations.ModexpGivesPowerModulo : Prop :=
  (∀ (w : Word) (rd ra rb rm : Reg), decode w = some (.modexp rd ra rb rm) ↔
    w &&& 0xFF8888FF = 0x00000014 ∧ slice w 11 8 = rd.val ∧ slice w 15 12 = ra.val ∧ slice w 19 16 = rb.val ∧
      slice w 23 20 = rm.val) ∧
  (∀ (s : State) (rd ra rb rm : Reg),
    (s.reg rm = 0 → ∃ t, exec (.modexp rd ra rb rm) s = .next t ∧ ErrorCompletion s t 2) ∧
    (0 < s.reg rm → s.reg rm ≤ s.reg ra → ∃ t, exec (.modexp rd ra rb rm) s = .next t ∧ ErrorCompletion s t 3) ∧
    (s.reg ra < s.reg rm →
      ∃ t, exec (.modexp rd ra rb rm) s = .next t ∧ SucceedsWith s t rd (s.reg ra ^ s.reg rb % s.reg rm)))

/-- 41_modular_arith.md R154: MODINV gives the unique inverse in `[0, n)`, with E_MOD, then E_RANGE, then E_NOINV. -/
def Obligations.ModinvGivesTheInverse : Prop :=
  (∀ (w : Word) (rd ra rm : Reg), decode w = some (.modinv rd ra rm) ↔
    w &&& 0xFF8F88FF = 0x00000015 ∧ slice w 11 8 = rd.val ∧ slice w 15 12 = ra.val ∧ slice w 23 20 = rm.val) ∧
  (∀ (s : State) (rd ra rm : Reg),
    (s.reg rm = 0 → ∃ t, exec (.modinv rd ra rm) s = .next t ∧ ErrorCompletion s t 2) ∧
    (0 < s.reg rm → s.reg rm ≤ s.reg ra → ∃ t, exec (.modinv rd ra rm) s = .next t ∧ ErrorCompletion s t 3) ∧
    (s.reg ra < s.reg rm → Nat.gcd (s.reg ra) (s.reg rm) ≠ 1 →
      ∃ t, exec (.modinv rd ra rm) s = .next t ∧ ErrorCompletion s t 4) ∧
    (s.reg ra < s.reg rm → Nat.gcd (s.reg ra) (s.reg rm) = 1 →
      ∃ t d, exec (.modinv rd ra rm) s = .next t ∧ SucceedsWith s t rd d ∧ d < s.reg rm ∧
        s.reg ra * d % s.reg rm = 1 % s.reg rm ∧
        ∀ d', d' < s.reg rm → s.reg ra * d' % s.reg rm = 1 % s.reg rm → d' = d))

-- The Montgomery multiplier (42_montgomery.md).

/-- 42_montgomery.md R182: MONTMUL gives `(a · b · inv(2^W mod n, n)) mod n`, with E_MOD for an even `n` before E_RANGE. -/
def Obligations.MontmulGivesMontgomeryProduct : Prop :=
  (∀ (w : Word) (rd ra rb rm : Reg), decode w = some (.montmul rd ra rb rm) ↔
    w &&& 0xFF8888FF = 0x00000018 ∧ slice w 11 8 = rd.val ∧ slice w 15 12 = ra.val ∧ slice w 19 16 = rb.val ∧
      slice w 23 20 = rm.val) ∧
  (∀ (s : State) (rd ra rb rm : Reg),
    (s.reg rm % 2 = 0 → ∃ t, exec (.montmul rd ra rb rm) s = .next t ∧ ErrorCompletion s t 2) ∧
    (s.reg rm % 2 = 1 → s.reg rm ≤ s.reg ra ∨ s.reg rm ≤ s.reg rb →
      ∃ t, exec (.montmul rd ra rb rm) s = .next t ∧ ErrorCompletion s t 3) ∧
    (s.reg rm % 2 = 1 → s.reg ra < s.reg rm → s.reg rb < s.reg rm →
      ∃ t v, exec (.montmul rd ra rb rm) s = .next t ∧ v < s.reg rm ∧
        2 ^ (32 * s.cfg.nw) % s.reg rm * v % s.reg rm = 1 % s.reg rm ∧
        SucceedsWith s t rd (s.reg ra * s.reg rb * v % s.reg rm)))

/-- 42_montgomery.md R184: TOMONT gives `(a · 2^W) mod n`, with E_MOD for an even `n` before E_RANGE. -/
def Obligations.TomontGivesMontgomeryForm : Prop :=
  (∀ (w : Word) (rd ra rm : Reg), decode w = some (.tomont rd ra rm) ↔
    w &&& 0xFF8F88FF = 0x00000019 ∧ slice w 11 8 = rd.val ∧ slice w 15 12 = ra.val ∧ slice w 23 20 = rm.val) ∧
  (∀ (s : State) (rd ra rm : Reg),
    (s.reg rm % 2 = 0 → ∃ t, exec (.tomont rd ra rm) s = .next t ∧ ErrorCompletion s t 2) ∧
    (s.reg rm % 2 = 1 → s.reg rm ≤ s.reg ra → ∃ t, exec (.tomont rd ra rm) s = .next t ∧ ErrorCompletion s t 3) ∧
    (s.reg rm % 2 = 1 → s.reg ra < s.reg rm →
      ∃ t, exec (.tomont rd ra rm) s = .next t ∧ SucceedsWith s t rd (s.reg ra * 2 ^ (32 * s.cfg.nw) % s.reg rm)))

/-- 42_montgomery.md R186: FROMMONT gives `(a · inv(2^W mod n, n)) mod n`, with E_MOD for an even `n` before E_RANGE. It is
MONTMUL by a register that holds 1, for `n > 1`. R186 says so with no exception; that `n = 1` is one is the model's reading,
since by R181 that register is then no residue and MONTMUL gives E_RANGE (log 19, DEDUCED). -/
def Obligations.FrommontLeavesMontgomeryForm : Prop :=
  (∀ (w : Word) (rd ra rm : Reg), decode w = some (.frommont rd ra rm) ↔
    w &&& 0xFF8F88FF = 0x0000001A ∧ slice w 11 8 = rd.val ∧ slice w 15 12 = ra.val ∧ slice w 23 20 = rm.val) ∧
  (∀ (s : State) (rd ra rm : Reg),
    (s.reg rm % 2 = 0 → ∃ t, exec (.frommont rd ra rm) s = .next t ∧ ErrorCompletion s t 2) ∧
    (s.reg rm % 2 = 1 → s.reg rm ≤ s.reg ra → ∃ t, exec (.frommont rd ra rm) s = .next t ∧ ErrorCompletion s t 3) ∧
    (s.reg rm % 2 = 1 → s.reg ra < s.reg rm →
      ∃ t v, exec (.frommont rd ra rm) s = .next t ∧ v < s.reg rm ∧
        2 ^ (32 * s.cfg.nw) % s.reg rm * v % s.reg rm = 1 % s.reg rm ∧
        SucceedsWith s t rd (s.reg ra * v % s.reg rm) ∧
        (∀ r1, s.reg r1 = 1 → s.reg r1 < s.reg rm → exec (.montmul rd ra r1 rm) s = .next t)))

/-- 42_montgomery.md R187: for odd `n` and `x, y < n`, FROMMONT undoes TOMONT, MONTMUL of two Montgomery forms is the form of
the product, and FROMMONT of that is MODMUL's result. -/
def Obligations.MontgomeryDomainRoundTrips : Prop :=
  ∀ (cfg : Config) (n x y : Nat), n % 2 = 1 → x < n → y < n →
    ∃ xm ym pm : Nat,
      (∀ (s : State) (rd ra rm : Reg), s.cfg = cfg → s.reg rm = n → s.reg ra = x → Yields (.tomont rd ra rm) s rd xm) ∧
      (∀ (s : State) (rd ra rm : Reg), s.cfg = cfg → s.reg rm = n → s.reg ra = y → Yields (.tomont rd ra rm) s rd ym) ∧
      (∀ (s : State) (rd ra rm : Reg), s.cfg = cfg → s.reg rm = n → s.reg ra = xm → Yields (.frommont rd ra rm) s rd x) ∧
      (∀ (s : State) (rd ra rb rm : Reg), s.cfg = cfg → s.reg rm = n → s.reg ra = xm → s.reg rb = ym →
        Yields (.montmul rd ra rb rm) s rd pm) ∧
      (∀ (s : State) (rd ra rm : Reg), s.cfg = cfg → s.reg rm = n → s.reg ra = x * y % n →
        Yields (.tomont rd ra rm) s rd pm) ∧
      (∀ (s : State) (rd ra rm : Reg), s.cfg = cfg → s.reg rm = n → s.reg ra = pm →
        Yields (.frommont rd ra rm) s rd (x * y % n)) ∧
      (∀ (s : State) (rd ra rb rm : Reg), s.cfg = cfg → s.reg rm = n → s.reg ra = x → s.reg rb = y →
        Yields (.modmul rd ra rb rm) s rd (x * y % n))

/-- 42_montgomery.md R183 against R182: the word-serial Montgomery method gives MONTMUL's result, for every NW. -/
def Obligations.WordSerialMethodGivesMontgomeryProduct : Prop :=
  ∀ (s : State) (rd ra rb rm : Reg), s.reg rm < 2 ^ (32 * s.cfg.nw) → s.reg rm % 2 = 1 → s.reg ra < s.reg rm →
    s.reg rb < s.reg rm →
      ∃ t, exec (.montmul rd ra rb rm) s = .next t ∧ t.err = false ∧
        t.reg rd = montMulWordSerial s.cfg (s.reg ra) (s.reg rb) (s.reg rm)

/-- 41_modular_arith.md R151, R152, R153: whichever schedule CTRL.WIN selects, binary or a sliding window of 2 to 6 bits, it
gives MODEXP's result. -/
def Obligations.EveryExponentScheduleGivesModexpResult : Prop :=
  ∀ (s : State) (rd ra rb rm : Reg) (win : BitVec 4), s.reg ra < s.reg rm →
    ∃ t, exec (.modexp rd ra rb rm) s = .next t ∧ t.err = false ∧
      t.reg rd = modPowScheduled win (s.reg ra) (s.reg rb) (s.reg rm)

/-- 10_state.md R37, 41_modular_arith.md R151: CTRL.WIN, also as latched at acceptance, changes no result, flag or error of any
engine step. Two runs that differ only in it go on differing only in it. -/
def Obligations.WindowWidthChangesNoResult : Prop :=
  ∀ (s t : State) (k latched : BitVec 4), s.EngineMoves → step s = .next t →
    step (s.withWindow k latched) = .next (t.withWindow k latched)

-- GCD and rho (43_gcd_rho.md).

/-- 43_gcd_rho.md R200: GCD gives the greatest common divisor, with no error. -/
def Obligations.GcdGivesGreatestCommonDivisor : Prop :=
  (∀ (w : Word) (rd ra rb : Reg), decode w = some (.gcd rd ra rb) ↔
    w &&& 0xFFF888FF = 0x00000020 ∧ slice w 11 8 = rd.val ∧ slice w 15 12 = ra.val ∧ slice w 19 16 = rb.val) ∧
  (∀ (s : State) (rd ra rb : Reg), ∃ t d, exec (.gcd rd ra rb) s = .next t ∧ SucceedsWith s t rd d ∧
    d ∣ s.reg ra ∧ d ∣ s.reg rb ∧ (∀ e, e ∣ s.reg ra → e ∣ s.reg rb → e ∣ d))

/-- 43_gcd_rho.md R201: the binary (Stein) algorithm gives GCD's result. -/
def Obligations.BinaryGcdGivesGcdResult : Prop :=
  ∀ (s : State) (rd ra rb : Reg), ∃ t, exec (.gcd rd ra rb) s = .next t ∧ t.err = false ∧
    t.reg rd = gcdBinary (s.reg ra) (s.reg rb)

/-- 43_gcd_rho.md R210, R212: RHOSTEP does one iteration `x' = g(x)`, `y' = g(g(y))`, `d = gcd(|x' − y'|, n)` with
`g(v) = (v·v + 1) mod n`, writes ra, rb, rd in this order (a later write wins), counts it in ITER and sets TRIV to `d = n`;
E_MOD for `n = 0` before E_RANGE. -/
def Obligations.RhostepDoesOneIteration : Prop :=
  (∀ (w : Word) (rd ra rb rm : Reg), decode w = some (.rhostep rd ra rb rm) ↔
    w &&& 0xFF8888FF = 0x00000030 ∧ slice w 11 8 = rd.val ∧ slice w 15 12 = ra.val ∧ slice w 19 16 = rb.val ∧
      slice w 23 20 = rm.val) ∧
  (∀ (s : State) (rd ra rb rm : Reg),
    (s.reg rm = 0 → ∃ t, exec (.rhostep rd ra rb rm) s = .next t ∧ ErrorCompletion s t 2) ∧
    (0 < s.reg rm → s.reg rm ≤ s.reg ra ∨ s.reg rm ≤ s.reg rb →
      ∃ t, exec (.rhostep rd ra rb rm) s = .next t ∧ ErrorCompletion s t 3) ∧
    (s.reg ra < s.reg rm → s.reg rb < s.reg rm →
      ∀ x y y' d : Nat, x = (s.reg ra * s.reg ra + 1) % s.reg rm → y = (s.reg rb * s.reg rb + 1) % s.reg rm →
        y' = (y * y + 1) % s.reg rm → d = Nat.gcd (Int.natAbs ((x : Int) - (y' : Int))) (s.reg rm) →
        ∃ t, exec (.rhostep rd ra rb rm) s = .next t ∧
          (∀ r, t.reg r = if r = rd then d else if r = rb then y' else if r = ra then x else s.reg r) ∧
          t.iter = s.iter + 1 ∧ SuccessCompletion s t false (decide (d = s.reg rm))))

/-- 43_gcd_rho.md R221: RHO's start step gives E_MOD for `n < 3` with ITER unchanged, and else enters phase Iterate from
`x = y = 2` with ITER 0, BUSY still 1 and no operand register written. RA and RB are not read (R220). -/
def Obligations.RhoStartsFromTwo : Prop :=
  (∀ (w : Word) (rd ra rb rm : Reg), decode w = some (.rho rd ra rb rm) ↔
    w &&& 0xFF8888FF = 0x00000031 ∧ slice w 11 8 = rd.val ∧ slice w 15 12 = ra.val ∧ slice w 19 16 = rb.val ∧
      slice w 23 20 = rm.val) ∧
  (∀ (s : State) (rd ra rb rm : Reg),
    (s.reg rm < 3 → ∃ t, exec (.rho rd ra rb rm) s = .next t ∧ ErrorCompletion s t 2) ∧
    (∀ c, s.eng = .busy c → 3 ≤ s.reg rm →
      exec (.rho rd ra rb rm) s =
        .next { s with iter := 0, eng := .busy { c with phase := .iterate ⟨s.reg rm, 2, 2, 0⟩ } }))

/-- 43_gcd_rho.md R222: RHO's iteration step. A pending abort ends it with E_ABORT and no iteration; else one iteration is done
and counted; `d ≠ 1` ends it with success, writing ra, rb, rd in order with TRIV `d = n`; `d = 1` ends it with E_LIMIT when the
limit is reached, and else it goes on. -/
def Obligations.RhoIterationStep : Prop :=
  ∀ (s : State) (c : Command) (w : RhoWork) (rd ra rb rm : Reg), s.EngineMoves → s.eng = .busy c → c.phase = .iterate w →
    decode c.word = some (.rho rd ra rb rm) →
    (s.abortPending = true → ∃ t, step s = .next t ∧ ErrorCompletion s.popped t 6) ∧
    (s.abortPending = false →
      ∀ x y y' d : Nat, x = (w.x * w.x + 1) % w.n → y = (w.y * w.y + 1) % w.n → y' = (y * y + 1) % w.n →
        d = Nat.gcd (Int.natAbs ((x : Int) - (y' : Int))) w.n →
        (d ≠ 1 → ∃ t, step s = .next t ∧
          (∀ r, t.reg r = if r = rd then d else if r = rb then y' else if r = ra then x else s.reg r) ∧
          t.iter = s.iter + 1 ∧ SuccessCompletion s.popped t false (decide (d = w.n))) ∧
        (d = 1 → c.limit ≠ 0 → w.itc + 1 = c.limit.toNat →
          ∃ t, step s = .next t ∧ ErrorCompletion { s.popped with iter := s.iter + 1 } t 5) ∧
        (d = 1 → c.limit = 0 ∨ w.itc + 1 ≠ c.limit.toNat →
          step s = .next { s.popped with
            iter := s.iter + 1
            eng := .busy { c with phase := .iterate ⟨w.n, x, y', w.itc + 1⟩ } }))

/-- 43_gcd_rho.md R223: from a state where RHO is where its loop leads (RhoTrace, an invariant), a step that ends it with
E_LIMIT leaves the sampled limit in ITER and every operand register as it was, and with the limit 0 no step ends with
E_LIMIT. -/
def Obligations.RhoLimitEndsAfterThatManyIterations : Prop :=
  ∀ (s t : State) (c : Command) (w : RhoWork), RhoTrace s → s.EngineMoves → s.eng = .busy c → c.phase = .iterate w →
    step s = .next t → t.eng = .idle → t.errcode = 5 →
      c.limit ≠ 0 ∧ t.iter = BitVec.ofNat 64 c.limit.toNat ∧ (∀ r, t.reg r = s.reg r)

/-- 43_gcd_rho.md R226: at the success of RHOSTEP, and of RHO, the divisor written divides `n` and lies in `[1, n]`, for RHO
above 1, and TRIV is 1 exactly when it is `n`. -/
def Obligations.RhoDivisorDividesModulus : Prop :=
  (∀ (s t : State) (rd ra rb rm : Reg), exec (.rhostep rd ra rb rm) s = .next t → t.err = false →
    t.reg rd ∣ s.reg rm ∧ 1 ≤ t.reg rd ∧ t.reg rd ≤ s.reg rm ∧ (t.triv = true ↔ t.reg rd = s.reg rm)) ∧
  (∀ (s t : State) (c : Command) (w : RhoWork) (rd ra rb rm : Reg), s.EngineMoves → s.eng = .busy c →
    c.phase = .iterate w → decode c.word = some (.rho rd ra rb rm) → 3 ≤ w.n → step s = .next t → t.eng = .idle →
    t.err = false →
      t.reg rd ∣ w.n ∧ 1 < t.reg rd ∧ t.reg rd ≤ w.n ∧ (t.triv = true ↔ t.reg rd = w.n))

/-- For every `n ≥ 3`, RHO with no limit and no abort reaches `d ≠ 1` within at most `n` iterations, so it always completes
(43_gcd_rho.md R225): after its start step and `k` iteration steps, `1 ≤ k ≤ n`, the engine is idle with a success, ITER is `k`
(modulo 2^64) and the divisor written is above 1 and divides `n`. That every step is the engine's, with no turn listed, is the
model's choice (log 3, DESIGN CHOICE) for the weak fairness that 70_reset_and_hazards.md R301 assumes. -/
def Obligations.RhoAlwaysCompletes : Prop :=
  ∀ (s : State) (c : Command) (rd ra rb rm : Reg), s.turns = [] → s.eng = .busy c → c.phase = .start →
    decode c.word = some (.rho rd ra rb rm) → c.limit = 0 → s.abortPending = false → 3 ≤ s.reg rm →
    ∃ k t, 1 ≤ k ∧ k ≤ s.reg rm ∧ core.run (k + 1) s = .next t ∧ t.eng = .idle ∧ t.done = true ∧ t.err = false ∧
      t.iter = BitVec.ofNat 64 k ∧ 1 < t.reg rd ∧ t.reg rd ∣ s.reg rm ∧ (t.triv = true ↔ t.reg rd = s.reg rm)

-- The host's transactions (20_memory.md, 10_state.md, 70_reset_and_hazards.md).

/-- 10_state.md R45, 60_exceptions.md R240, 70_reset_and_hazards.md R291: a CMD write while idle is accepted, with OVF, the
operand registers and ITER unchanged; while busy it is dropped and sets OVF; CMD reads the last accepted word. -/
def Obligations.CmdWriteIssuesOrIsDropped : Prop :=
  ∀ (s : State) (v : Word),
    (s.eng = .idle →
      WritesTo s 0x010 v
        { s with
          cmd := v
          eng := .busy { word := v, win := s.win, limit := s.rhoLimit, phase := .start }
          done := false
          err := false
          errcode := 0
          z := false
          triv := false
          abortPending := false }) ∧
    (∀ c, s.eng = .busy c → WritesTo s 0x010 v { s with ovf := true }) ∧
    ReadsTo s 0x010 s.cmd

/-- 70_reset_and_hazards.md R290: while busy a write to an operand word or to RHO_LIMIT is dropped and sets OVF, a read of an
operand word returns an unspecified word and changes nothing (the model's count of draws apart, log 6), and the control
registers read their current values. -/
def Obligations.AccessesWhileBusy : Prop :=
  ∀ (s : State) (c : Command), s.cfg.Valid → s.eng = .busy c →
    (∀ v, WritesTo s 0x01C v { s with ovf := true }) ∧
    (∀ (r : Reg) (w : Nat) (v : Word), w < s.cfg.nw →
      WritesTo s (0x100 + 0x100 * r.val + 4 * w) v { s with ovf := true }) ∧
    (∀ (r : Reg) (w : Nat) (rest : List Turn), w < s.cfg.nw →
      ∃ t v, step { s with turns := .read (BitVec.ofNat 12 (0x100 + 0x100 * r.val + 4 * w)) 0xF :: rest } = .next t ∧
        t = { s with turns := rest, response := .data v, draws := t.draws }) ∧
    ReadsTo s 0x000 0x4D414501 ∧ ReadsTo s 0x004 s.cfgWord ∧ ReadsTo s 0x008 s.ctrlWord ∧ ReadsTo s 0x00C s.statusWord ∧
    ReadsTo s 0x010 s.cmd ∧ ReadsTo s 0x014 (s.iter.extractLsb' 0 32) ∧ ReadsTo s 0x018 (s.iter.extractLsb' 32 32) ∧
    ReadsTo s 0x01C s.rhoLimit

/-- 10_state.md R31, R32: ID reads 0x4D414501; CFG reads NW in bits 7:0, 8 in bits 11:8 and 0 above; writes to both are
ignored. -/
def Obligations.IdAndCfgAreConstants : Prop :=
  ∀ (s : State), s.cfg.Valid →
    ReadsTo s 0x000 0x4D414501 ∧
    (∃ w, ReadsTo s 0x004 w ∧ slice w 7 0 = s.cfg.nw ∧ slice w 11 8 = 8 ∧ slice w 31 12 = 0) ∧
    (∀ v, WritesTo s 0x000 v s ∧ WritesTo s 0x004 v s)

/-- CTRL reads IE in bit 0 and WIN in bits 7:4 and 0 elsewhere. A write with SRST clear sets IE and WIN, and with ABORT set it
sets `abort_pending` while RHO is in flight and only then; busy or not. A write with SRST set is the soft reset and its other
bits are discarded (10_state.md R33-R37, 70_reset_and_hazards.md R282). RHO in flight is any word in flight with opcode 0x31,
words with an illegal field included: the model's reading of R35 (log 8, DEDUCED). -/
def Obligations.CtrlHoldsIeAndWin : Prop :=
  ∀ (s : State),
    (∃ w, ReadsTo s 0x008 w ∧ slice w 0 0 = s.ie.toNat ∧ slice w 3 1 = 0 ∧ slice w 7 4 = s.win.toNat ∧
      slice w 31 8 = 0) ∧
    (∀ v : Word, v.getLsbD 2 = false → v.getLsbD 1 = false →
      WritesTo s 0x008 v { s with ie := v.getLsbD 0, win := BitVec.ofNat 4 (slice v 7 4) }) ∧
    (∀ v : Word, v.getLsbD 2 = false → v.getLsbD 1 = true → (∀ c, s.eng = .busy c → slice c.word 7 0 ≠ 0x31) →
      WritesTo s 0x008 v { s with ie := v.getLsbD 0, win := BitVec.ofNat 4 (slice v 7 4) }) ∧
    (∀ (v : Word) (c : Command), v.getLsbD 2 = false → v.getLsbD 1 = true → s.eng = .busy c → slice c.word 7 0 = 0x31 →
      WritesTo s 0x008 v { s with ie := v.getLsbD 0, win := BitVec.ofNat 4 (slice v 7 4), abortPending := true }) ∧
    (∀ v : Word, v.getLsbD 2 = true → ∃ t, WritesTo s 0x008 v t ∧ AtReset t)

/-- 10_state.md R38, R40-R43: STATUS reads its fields at their bits and 0 at the reserved ones, and a write, busy or not, acts
only through its W1C bits: DONE, ERR (with ERRCODE) and OVF. -/
def Obligations.StatusReadsFieldsAndClearsByOnes : Prop :=
  ∀ (s : State),
    (∃ w, ReadsTo s 0x00C w ∧ (slice w 0 0 = 1 ↔ ∃ c, s.eng = .busy c) ∧ slice w 1 1 = s.done.toNat ∧
      slice w 2 2 = s.err.toNat ∧ slice w 3 3 = s.ovf.toNat ∧ slice w 7 4 = 0 ∧ slice w 11 8 = s.errcode.toNat ∧
      slice w 15 12 = 0 ∧ slice w 16 16 = s.z.toNat ∧ slice w 17 17 = s.triv.toNat ∧ slice w 31 18 = 0) ∧
    (∀ v : Word, WritesTo s 0x00C v
      { s with
        done := s.done && !v.getLsbD 1
        err := s.err && !v.getLsbD 2
        errcode := if v.getLsbD 2 then 0 else s.errcode
        ovf := s.ovf && !v.getLsbD 3 })

/-- 10_state.md R46, R47, R48: ITER reads in two halves and RHO_LIMIT reads back; a write to RHO_LIMIT while idle sets it, and
writes to the halves of ITER are ignored. -/
def Obligations.IterAndRhoLimitRegisters : Prop :=
  ∀ (s : State),
    (∃ lo hi : Word, ReadsTo s 0x014 lo ∧ ReadsTo s 0x018 hi ∧ s.iter.toNat = hi.toNat * 2 ^ 32 + lo.toNat) ∧
    (∀ v, WritesTo s 0x014 v s ∧ WritesTo s 0x018 v s) ∧
    ReadsTo s 0x01C s.rhoLimit ∧
    (s.eng = .idle → ∀ v, WritesTo s 0x01C v { s with rhoLimit := v })

/-- A hardware reset, taken at any time (70_reset_and_hazards.md R280), and a CTRL write with SRST set (R282) leave the reset
state of 10_state.md R54 in the same configuration, a command in flight abandoned. `State.reset` is that state. That the turns
still listed go on through a reset (`t.turns = rest`) is the model's choice (log 17, DESIGN CHOICE). -/
def Obligations.ResetLeavesTheResetState : Prop :=
  AtReset State.reset ∧
  (∀ (s : State) (rest : List Turn), ∃ t, step { s with turns := .reset :: rest } = .next t ∧ AtReset t ∧
    t.cfg = s.cfg ∧ t.turns = rest) ∧
  (∀ (s : State) (v : Word) (rest : List Turn), v.getLsbD 2 = true →
    ∃ t, step { s with turns := .write 0x008 0xF v :: rest } = .next t ∧ AtReset t ∧ t.cfg = s.cfg ∧ t.turns = rest)

/-- 20_memory.md R66, R68: while idle, operand word `w` of `Ri` reads bits `32w+31 : 32w` of it at offset
`0x100 + 0x100·i + 4·w`, and a write there replaces that word and leaves the other words and registers unchanged. -/
def Obligations.OperandWordsInTheWindow : Prop :=
  ∀ (s : State) (r : Reg) (w : Nat), s.cfg.Valid → s.eng = .idle → w < s.cfg.nw →
    (∃ x : Word, ReadsTo s (0x100 + 0x100 * r.val + 4 * w) x ∧ x.toNat = s.reg r / 2 ^ (32 * w) % 2 ^ 32) ∧
    (∀ v : Word, ∃ t, WritesTo s (0x100 + 0x100 * r.val + 4 * w) v t ∧ t = { s with regs := t.regs } ∧
      t.reg r / 2 ^ (32 * w) % 2 ^ 32 = v.toNat ∧
      (∀ u, u ≠ w → t.reg r / 2 ^ (32 * u) % 2 ^ 32 = s.reg r / 2 ^ (32 * u) % 2 ^ 32) ∧
      (∀ q, q ≠ r → t.reg q = s.reg q))

/-- 30_encoding.md R102 over 20_memory.md R66: the host macro WREG, its NW transactions run while idle, leaves the value in the
register and nothing else changed, whatever the register held. -/
def Obligations.WregWritesTheWholeRegister : Prop :=
  ∀ (s : State) (r : Reg) (v : Nat), s.cfg.Valid → s.eng = .idle → s.reg r < 2 ^ (32 * s.cfg.nw) →
    v < 2 ^ (32 * s.cfg.nw) →
      core.run s.cfg.nw { s with turns := wreg s.cfg r v }
        = .next { s with turns := [], response := .ack, regs := s.regs.set r v }

/-- 20_memory.md R63, R64, R67: a step is a bus error exactly when the next listed turn is a transaction that is narrower than
32 bits, misaligned, or at an undefined offset; nothing else stops the machine. -/
def Obligations.BusErrorExactlyForIllegalTransactions : Prop :=
  (∀ s : State, (∃ f, step s = .fault f) ↔ ∃ u, s.turns.head? = some u ∧ ¬ u.Legal s.cfg) ∧
  (∀ (s : State) (r : Refusal), step s ≠ .refused r)

/-- 20_memory.md R71, 10_state.md R48: no read has a side effect: it changes no item of the MAE's state, only the answer to the
host (and the model's count of draws). -/
def Obligations.ReadsHaveNoSideEffect : Prop :=
  ∀ (s t : State) (off : BitVec 12) (strobes : BitVec 4), s.turns.head? = some (.read off strobes) → step s = .next t →
    t = { s with turns := s.turns.tail, response := t.response, draws := t.draws }

/-- 60_exceptions.md R250: `irq` is IE and DONE: a completion raises it while IE is 1, setting IE raises it while DONE is 1,
and it falls when DONE is cleared by W1C, when a command is accepted, when IE is written 0, and at reset. -/
def Obligations.IrqFollowsIeAndDone : Prop :=
  (∀ s : State, s.irq = true ↔ s.ie = true ∧ s.done = true) ∧
  (∀ (s t : State), s.EngineMoves → step s = .next t → (∃ c, s.eng = .busy c) → t.eng = .idle → t.irq = s.ie) ∧
  (∀ (s t : State) (v : Word) (rest : List Turn), s.turns = .write 0x008 0xF v :: rest → step s = .next t →
    v.getLsbD 2 = false → t.irq = (v.getLsbD 0 && s.done)) ∧
  (∀ (s t : State) (v : Word) (rest : List Turn), s.turns = .write 0x00C 0xF v :: rest → step s = .next t →
    t.irq = (s.irq && !v.getLsbD 1)) ∧
  (∀ (s t : State) (v : Word) (rest : List Turn), s.turns = .write 0x010 0xF v :: rest → step s = .next t →
    s.eng = .idle → t.irq = false) ∧
  (∀ (s t : State), s.Resets → step s = .next t → t.irq = false)

/-- Issuing a command while idle and then the engine's turn runs its start step on the accepted state (30_encoding.md R102
ISSUE, 60_exceptions.md R240, R241). R244 allows other host steps between the two; that the engine moves next, with no turn
listed, is the model's choice (log 3, log 11, DESIGN CHOICE). -/
def Obligations.IssuedCommandRuns : Prop :=
  ∀ (s : State) (i : Instr), s.eng = .idle →
    core.run 2 { s with turns := [issue i] } =
      exec i { s with
        turns := []
        response := .ack
        cmd := encode i
        eng := .busy { word := encode i, win := s.win, limit := s.rhoLimit, phase := .start }
        done := false
        err := false
        errcode := 0
        z := false
        triv := false
        abortPending := false }

/-- 70_reset_and_hazards.md R301 over 30_encoding.md R102: EXEC of any command from an idle state ends. Some number `k` of
polls has the run of its turns end idle, the last poll having read BUSY 0; `k` is 1 for every command but RHO, and at most
`n + 1` for RHO, `n` the modulus. The model's engine moves before each poll (log 3, 20). -/
def Obligations.ExecMacroEnds : Prop :=
  ∀ (s : State) (i : Instr), s.eng = .idle →
    ∃ k t w, core.run (2 * k + 1) { s with turns := execMacro i k } = .next t ∧ t.RunEnded ∧ t.response = .data w ∧
      slice w 0 0 = 0 ∧ (i.isRho = false → k = 1) ∧ (∀ rd ra rb rm, i = .rho rd ra rb rm → k ≤ s.reg rm + 1)

-- Frames and whole-machine rules.

/-- The frame of every command's start step, where it gives a next state: every operand register but its destinations (RD; for
RHOSTEP RA and RB too; none for NOP and RHO), every operand word of the window outside them, CTRL, OVF, CMD, RHO_LIMIT and the
configuration are unchanged, and so is ITER but for RHOSTEP and RHO (10_state.md R21, 60_exceptions.md R242, R243). -/
def Obligations.CommandChangesOnlyItsDestinations : Prop :=
  ∀ (i : Instr) (s t : State), exec i s = .next t →
    EngineKeeps s t ∧ (∀ r, r ∉ i.destinations → t.reg r = s.reg r) ∧
    (∀ r w, r ∉ i.destinations → t.wordAt (.operand r w) = s.wordAt (.operand r w)) ∧
    (i.countsIterations = false → t.iter = s.iter)

/-- 10_state.md R21: an operand register changes only by a success completion of a command that names it as a destination
(RD; for RHOSTEP and RHO also RA and RB), by a host write to one of its words while idle (70_reset_and_hazards.md R290 drops
it while busy), or by a reset (R54, 70 R280, R282). Stated from states where a word in phase Iterate spells RHO (RhoTrace, an
invariant). -/
def Obligations.OperandRegistersChangeOnlyAsStated : Prop :=
  ∀ (s t : State) (r : Reg), RhoTrace s → step s = .next t → t.reg r ≠ s.reg r →
    (s.EngineMoves ∧ t.eng = .idle ∧ t.done = true ∧ t.err = false ∧ ∃ c i, s.eng = .busy c ∧ decode c.word = some i ∧
      (r ∈ i.destinations ∨ ∃ rd ra rb rm, i = .rho rd ra rb rm ∧ (r = rd ∨ r = ra ∨ r = rb))) ∨
    (s.eng = .idle ∧ ∃ w off v, w < s.cfg.nw ∧ s.turns.head? = some (.write off 0xF v) ∧
      off.toNat = 0x100 + 0x100 * r.val + 4 * w) ∨
    s.Resets

/-- 60_exceptions.md R248: errors are precise: a step of the engine that leaves an error leaves every operand register as it
was, and no step while a command is in flight changes one but its success or a reset, so they are as at acceptance. -/
def Obligations.ErrorsLeaveOperandsUnchanged : Prop :=
  (∀ s t : State, s.EngineMoves → step s = .next t → t.err = true → ∀ r, t.reg r = s.reg r) ∧
  (∀ (s t : State) (c : Command), s.eng = .busy c → step s = .next t → (∃ c', t.eng = .busy c') →
    ∀ r, t.reg r = s.reg r)

/-- 10_state.md R46: ITER changes only by RHO's start and iteration steps (to 0, or by 1), by the success of RHOSTEP (by 1),
or by a reset. Stated from states where a word in phase Iterate spells RHO (RhoTrace, an invariant). -/
def Obligations.IterCountsOnlyRhoIterations : Prop :=
  ∀ s t : State, RhoTrace s → step s = .next t → t.iter ≠ s.iter →
    (s.EngineMoves ∧ ∃ c rd ra rb rm, s.eng = .busy c ∧
      ((decode c.word = some (.rhostep rd ra rb rm) ∧ t.iter = s.iter + 1 ∧ t.err = false) ∨
       (decode c.word = some (.rho rd ra rb rm) ∧
         ((c.phase = .start ∧ t.iter = 0) ∨ (c.phase ≠ .start ∧ t.iter = s.iter + 1))))) ∨
    s.Resets

/-- 10_state.md R42: OVF becomes 1 only when a host write is dropped because the engine is busy, and becomes 0 only when the
host writes STATUS with bit 3 set, and at reset; acceptance and completion leave it unchanged. -/
def Obligations.OvfIsSticky : Prop :=
  ∀ s t : State, step s = .next t →
    (s.ovf = false → t.ovf = true → (∃ c, s.eng = .busy c) ∧ ∃ off v, s.turns.head? = some (.write off 0xF v) ∧
      (off.toNat = 0x010 ∨ off.toNat = 0x01C ∨ 0x100 ≤ off.toNat)) ∧
    (s.ovf = true → t.ovf = false → s.Resets ∨ ∃ v, s.turns.head? = some (.write 0x00C 0xF v) ∧ v.getLsbD 3 = true)

-- Invariants.

/-- 00_scope.md R9, 10_state.md R20, R52: every step keeps every operand register below `2^W`, and RHO's working values
residues of a modulus of at least 3 below `2^W`. No result wraps. -/
def Obligations.StepKeepsValuesInRange : Prop :=
  ∀ s t : State, s.cfg.Valid → ValuesInRange s → step s = .next t → ValuesInRange t

/-- 10_state.md R29, R30, R39-R43, 60_exceptions.md R245: every step keeps STATUS coherent. -/
def Obligations.StepKeepsStatusCoherent : Prop :=
  ∀ s t : State, StatusCoherent s → step s = .next t → StatusCoherent t

/-- 10_state.md R35, R45, R51: every step keeps `abort_pending` for RHO alone and CMD the word in flight. RHO is
any word in flight with opcode 0x31, words with an illegal field included: the model's reading of R35 (log 8, DEDUCED). -/
def Obligations.StepKeepsCommandCoherent : Prop :=
  ∀ s t : State, CommandCoherent s → step s = .next t → CommandCoherent t

/-- 43_gcd_rho.md R222, R225 (proof), 10_state.md R46, R52: every step keeps RHO on its trace: after `k` iterations the
tortoise is `g^k(2)`, the hare `g^(2k)(2)`, ITER is `k`, and a limit is not yet reached. -/
def Obligations.StepKeepsRhoTrace : Prop :=
  ∀ s t : State, RhoTrace s → step s = .next t → RhoTrace t

/-- 70_reset_and_hazards.md R301, R302: once the host has no turn left, the run ends: after finitely many steps of the engine it
is idle. Stated from states on RHO's trace with values in range (both invariants). The engine moves where no turn is listed,
the model's form of the weak fairness that R301 assumes (log 3). -/
def Obligations.EveryRunEndsOnceTheHostIsDone : Prop :=
  ∀ s : State, s.turns = [] → RhoTrace s → ValuesInRange s → ∃ k t, core.run k s = .next t ∧ t.RunEnded

/-- 00_scope.md R5: NW is fixed: no step changes the configuration. -/
def Obligations.StepKeepsConfiguration : Prop :=
  ∀ s t : State, step s = .next t → t.cfg = s.cfg

/-- The state after reset meets every invariant, in every configuration. -/
def Obligations.ResetMeetsEveryInvariant : Prop :=
  (∀ cfg : Config, ValuesInRange (State.resetFor cfg) ∧ StatusCoherent (State.resetFor cfg) ∧
    CommandCoherent (State.resetFor cfg) ∧ RhoTrace (State.resetFor cfg)) ∧
  State.reset.cfg.Valid ∧ State.reset = State.resetFor State.reset.cfg
end

