-- ==== Sys2Proof/Laws/Arith.lean ====
section
/-! SUPPORT. Laws of the arithmetic: the binary method computes the power, the extended Euclidean algorithm the inverse, and
the bounds that keep every result below the modulus. -/

namespace Sys2Proof.Machine

/-- A value is below the power of two of its bit count. -/
theorem lt_two_pow_bitlen (v : Nat) : v < 2 ^ bitlen v := by
  unfold bitlen
  split
  · next h => simp [h]
  · exact Nat.lt_log2_self

/-- The binary method over at least the bits of `e` computes `a^e mod n` (41_modular_arith.md R152). -/
theorem modPowBits_eq (a n : Nat) : ∀ k e, e < 2 ^ k → modPowBits a n k e = a ^ e % n := by
  intro k
  induction k with
  | zero => intro e h; simp at h; simp [modPowBits, h]
  | succ k ih =>
    intro e h
    have he : e / 2 < 2 ^ k := by rw [pow_succ] at h; omega
    have hsplit : e = e / 2 + e / 2 + e % 2 := by omega
    simp only [modPowBits, ih _ he, ← Nat.mul_mod]
    have hpow : a ^ (e / 2) * a ^ (e / 2) = a ^ (e / 2 + e / 2) := (pow_add _ _ _).symm
    split
    · next h1 =>
      rw [Nat.mod_mul_mod, hpow, ← pow_succ]
      congr 2
      omega
    · next h1 =>
      rw [hpow]
      congr 2
      omega

/-- `modPow` is the power of 41_modular_arith.md R150. -/
theorem modPow_eq (a e n : Nat) : modPow a e n = a ^ e % n :=
  modPowBits_eq a n _ e (lt_two_pow_bitlen e)

/-- One division keeps `r ≡ t·a (mod n)` (41_modular_arith.md R155). -/
theorem euclid_step {n a r0 r1 t0 t1 : Nat} (hn : 0 < n) (h0 : r0 ≡ t0 * a [MOD n]) (h1 : r1 ≡ t1 * a [MOD n]) :
    r0 % r1 ≡ (t0 + (n - r0 / r1 * t1 % n)) % n * a [MOD n] := by
  have hq : r0 / r1 * t1 % n ≤ n := (Nat.mod_lt _ hn).le
  have key : r0 % r1 + r0 / r1 * r1 ≡ (t0 + (n - r0 / r1 * t1 % n)) % n * a + r0 / r1 * r1 [MOD n] := by
    calc r0 % r1 + r0 / r1 * r1 = r0 := by rw [Nat.mul_comm]; exact Nat.mod_add_div r0 r1
      _ ≡ t0 * a [MOD n] := h0
      _ ≡ t0 * a + n * a [MOD n] := by simp [Nat.ModEq]
      _ = (t0 + (n - r0 / r1 * t1 % n)) * a + r0 / r1 * t1 % n * a := by
          rw [← Nat.add_mul, ← Nat.add_mul]; congr 1; omega
      _ ≡ (t0 + (n - r0 / r1 * t1 % n)) % n * a + r0 / r1 * t1 * a [MOD n] :=
          Nat.ModEq.add ((Nat.mod_modEq _ _).symm.mul_right a) ((Nat.mod_modEq _ _).mul_right a)
      _ = (t0 + (n - r0 / r1 * t1 % n)) % n * a + r0 / r1 * (t1 * a) := by rw [Nat.mul_assoc]
      _ ≡ (t0 + (n - r0 / r1 * t1 % n)) % n * a + r0 / r1 * r1 [MOD n] :=
          Nat.ModEq.add_left _ (h1.symm.mul_left _)
  exact Nat.ModEq.add_right_cancel' _ key

/-- The coefficient found is below `n` and makes the gcd (41_modular_arith.md R155). -/
theorem euclidCoeff_spec {n a : Nat} (hn : 0 < n) : ∀ k r0 r1 t0 t1, r1 ≤ r0 → r0 * r1 < 2 ^ k → t0 < n → t1 < n →
    r0 ≡ t0 * a [MOD n] → r1 ≡ t1 * a [MOD n] →
      euclidCoeff n (k + 1) r0 r1 t0 t1 < n ∧ Nat.gcd r0 r1 ≡ euclidCoeff n (k + 1) r0 r1 t0 t1 * a [MOD n] := by
  intro k
  induction k with
  | zero =>
    intro r0 r1 t0 t1 hle hlt ht0 _ h0 _
    have hr1 : r1 = 0 := by
      by_contra h
      have : 1 * 1 ≤ r0 * r1 := Nat.mul_le_mul (by omega) (by omega)
      simp at hlt
      omega
    subst hr1
    simpa [euclidCoeff] using ⟨ht0, h0⟩
  | succ k ih =>
    intro r0 r1 t0 t1 hle hlt ht0 ht1 h0 h1
    by_cases hr1 : r1 = 0
    · subst hr1
      simpa [euclidCoeff] using ⟨ht0, h0⟩
    · have hpos : 0 < r1 := by omega
      have hmod : r0 % r1 < r1 := Nat.mod_lt _ hpos
      have hhalf : 2 * (r0 % r1) ≤ r0 := by
        have := Nat.div_add_mod r0 r1
        have hq : 1 ≤ r0 / r1 := Nat.div_pos hle hpos
        have : r1 * 1 ≤ r1 * (r0 / r1) := Nat.mul_le_mul_left _ hq
        omega
      have hprod : r1 * (r0 % r1) < 2 ^ k := by
        have : 2 * (r1 * (r0 % r1)) ≤ r0 * r1 := by
          calc 2 * (r1 * (r0 % r1)) = r1 * (2 * (r0 % r1)) := by ring
            _ ≤ r1 * r0 := Nat.mul_le_mul_left _ hhalf
            _ = r0 * r1 := Nat.mul_comm _ _
        rw [pow_succ] at hlt
        omega
      have := ih r1 (r0 % r1) t1 ((t0 + (n - r0 / r1 * t1 % n)) % n) hmod.le hprod ht1 (Nat.mod_lt _ hn) h1
        (euclid_step hn h0 h1)
      rw [euclidCoeff, if_neg hr1, Nat.gcd_comm r0 r1, Nat.gcd_rec, Nat.gcd_comm]
      exact this

/-- `modInv` is below the modulus, and times `a` it is the gcd (00_scope.md R10). -/
theorem modInv_gcd {a n : Nat} (ha : a < n) : modInv a n < n ∧ a * modInv a n % n = Nat.gcd a n % n := by
  have hn : 0 < n := by omega
  have hprod : n * a < 2 ^ (2 * bitlen n) := by
    rw [Nat.two_mul, pow_add]
    have := lt_two_pow_bitlen n
    exact Nat.mul_lt_mul'' this (by omega)
  have h := euclidCoeff_spec (a := a) hn (2 * bitlen n) n a 0 (1 % n) ha.le hprod hn (Nat.mod_lt _ hn)
    (by simp [Nat.ModEq]) (by simp [Nat.ModEq])
  rw [modInv, Nat.mod_eq_of_lt ha]
  exact ⟨h.1, by rw [Nat.mul_comm, ← h.2, Nat.gcd_comm]⟩

/-- `modInv a n` is the inverse of `a` where one exists (00_scope.md R10, R11). -/
theorem modInv_spec {a n : Nat} (ha : a < n) (hg : Nat.gcd a n = 1) :
    modInv a n < n ∧ a * modInv a n % n = 1 % n :=
  ⟨(modInv_gcd ha).1, by rw [(modInv_gcd ha).2, hg]⟩

/-- There is one inverse below `n` (00_scope.md R10, R11). -/
theorem inverse_unique {a n d e : Nat} (hg : Nat.gcd a n = 1) (hd : d < n) (he : e < n)
    (h1 : a * d % n = 1 % n) (h2 : a * e % n = 1 % n) : d = e := by
  have h : a * d ≡ a * e [MOD n] := h1.trans h2.symm
  have := Nat.ModEq.cancel_left_of_coprime (by rw [Nat.gcd_comm]; exact hg) h
  exact Nat.ModEq.eq_of_lt_of_lt this hd he

/-- For an odd modulus the Montgomery radix is invertible (42_montgomery.md R180). -/
theorem montRadix_coprime (cfg : Config) {n : Nat} (h : n % 2 = 1) : Nat.gcd (montRadix cfg % n) n = 1 := by
  have h2 : Nat.Coprime 2 n := (Nat.coprime_two_left (n := n)).2 (Nat.odd_iff.2 h)
  have : Nat.Coprime (montRadix cfg) n := h2.pow_left _
  rw [← Nat.gcd_rec, Nat.gcd_comm]
  exact this

/-- `R·R⁻¹ = 1 (mod n)` for an odd modulus (42_montgomery.md R180). -/
theorem montRadixInv_spec (cfg : Config) {n : Nat} (h : n % 2 = 1) :
    montRadixInv cfg n < n ∧ montRadix cfg * montRadixInv cfg n % n = 1 % n := by
  have hn : 0 < n := by omega
  have hs := modInv_spec (Nat.mod_lt (montRadix cfg) hn) (montRadix_coprime cfg h)
  refine ⟨hs.1, ?_⟩
  rw [montRadixInv, ← hs.2, Nat.mod_mul_mod]

/-- `|a − b|` is below whatever both are below. -/
theorem absDiff_lt {a b n : Nat} (ha : a < n) (hb : b < n) : absDiff a b < n := by
  unfold absDiff
  split <;> omega

/-- `|a − b|` is 0 exactly when they are equal. -/
theorem absDiff_eq_zero {a b : Nat} : absDiff a b = 0 ↔ a = b := by
  unfold absDiff
  split <;> omega

/-- The rho function stays below its modulus (43_gcd_rho.md R205). -/
theorem rhoG_lt {n : Nat} (hn : 0 < n) (x : Nat) : rhoG n x < n := Nat.mod_lt _ hn

/-- What one rho iteration can give (43_gcd_rho.md R206): residues, and a divisor of `n` that is `n` exactly when they
meet. -/
theorem rhoIteration_spec {n : Nat} (hn : 0 < n) (x y : Nat) :
    (rhoIteration x y n).1 = rhoG n x ∧ (rhoIteration x y n).2.1 = rhoG n (rhoG n y) ∧
      (rhoIteration x y n).2.2 ∣ n ∧ 1 ≤ (rhoIteration x y n).2.2 ∧ (rhoIteration x y n).2.2 ≤ n ∧
        ((rhoIteration x y n).2.2 = n ↔ rhoG n x = rhoG n (rhoG n y)) := by
  have hd : Nat.gcd (absDiff (rhoG n x) (rhoG n (rhoG n y))) n ∣ n := Nat.gcd_dvd_right _ _
  refine ⟨rfl, rfl, hd, Nat.pos_of_dvd_of_pos hd hn, Nat.le_of_dvd hn hd, ?_⟩
  show Nat.gcd (absDiff (rhoG n x) (rhoG n (rhoG n y))) n = n ↔ _
  have hlt : absDiff (rhoG n x) (rhoG n (rhoG n y)) < n := absDiff_lt (rhoG_lt hn _) (rhoG_lt hn _)
  rw [← absDiff_eq_zero (a := rhoG n x)]
  refine ⟨fun h => ?_, fun h => by rw [h, Nat.gcd_zero_left]⟩
  have hdvd := Nat.gcd_dvd_left (absDiff (rhoG n x) (rhoG n (rhoG n y))) n
  rw [h] at hdvd
  exact Nat.eq_zero_of_dvd_of_lt hdvd hlt

end Sys2Proof.Machine
end

