-- ==== Sys2Proof/Laws/Decode.lean ====
section
/-! SUPPORT. Laws of the command word: cutting it into fields and putting the fields together are inverse to each other, a
mask acts field by field, and a used register field is a register. -/

namespace Sys2Proof.Laws

/-- The number of two bit vectors put together. -/
theorem toNat_append_mul {n m : Nat} (a : BitVec n) (b : BitVec m) :
    (a ++ b).toNat = a.toNat * 2 ^ m + b.toNat := by
  rw [BitVec.toNat_append, ← Nat.shiftLeft_add_eq_or_of_lt b.isLt, Nat.shiftLeft_eq]

/-- Two pairs of bit vectors put together are equal only if their parts are. -/
theorem append_inj {n m : Nat} {a a' : BitVec n} {b b' : BitVec m} :
    a ++ b = a' ++ b' ↔ a = a' ∧ b = b' := by
  refine ⟨fun h => ?_, fun ⟨ha, hb⟩ => by rw [ha, hb]⟩
  have hn := congrArg BitVec.toNat h
  rw [toNat_append_mul, toNat_append_mul] at hn
  have hb : b.toNat = b'.toNat := by
    have := congrArg (· % 2 ^ m) hn
    simpa [Nat.mul_add_mod', Nat.mod_eq_of_lt b.isLt, Nat.mod_eq_of_lt b'.isLt] using this
  have ha : a.toNat = a'.toNat := by
    rw [hb] at hn
    exact Nat.eq_of_mul_eq_mul_right (Nat.two_pow_pos m) (Nat.add_right_cancel hn)
  exact ⟨BitVec.eq_of_toNat_eq ha, BitVec.eq_of_toNat_eq hb⟩

/-- A mask acts on each part of two bit vectors put together. -/
theorem append_and {n m : Nat} (a a' : BitVec n) (b b' : BitVec m) :
    (a ++ b) &&& (a' ++ b') = (a &&& a') ++ (b &&& b') := by
  ext i hi
  simp only [BitVec.getElem_and, BitVec.getElem_append]
  split <;> simp

/-- A command word as a number, field by field. -/
theorem toNat_toWord (f : Fields) :
    f.toWord.toNat = f.rsv.toNat * 2 ^ 24 + (f.rm.toNat * 2 ^ 20 + (f.rb.toNat * 2 ^ 16
      + (f.ra.toNat * 2 ^ 12 + (f.rd.toNat * 2 ^ 8 + f.op.toNat)))) := by
  simp only [Fields.toWord, toNat_append_mul]

/-- Cutting the word that fields make gives the fields back. -/
theorem ofWord_toWord (f : Fields) : Fields.ofWord f.toWord = f := by
  have h := toNat_toWord f
  obtain ⟨rsv, rm, rb, ra, rd, op⟩ := f
  simp only [Fields.ofWord, Fields.mk.injEq]
  refine ⟨?_, ?_, ?_, ?_, ?_, ?_⟩ <;> apply BitVec.eq_of_toNat_eq <;>
    simp only [BitVec.extractLsb'_toNat, Nat.shiftRight_eq_div_pow, h] <;> omega

/-- Putting the fields of a word together gives the word back. -/
theorem toWord_ofWord (w : Word) : (Fields.ofWord w).toWord = w := by
  apply BitVec.eq_of_toNat_eq
  rw [toNat_toWord]
  have := w.isLt
  simp only [Fields.ofWord, BitVec.extractLsb'_toNat, Nat.shiftRight_eq_div_pow]
  omega

/-- A masked word has a pattern exactly when each masked field has the pattern's field. -/
theorem mask_iff (f m p : Fields) :
    f.toWord &&& m.toWord = p.toWord ↔
      f.rsv &&& m.rsv = p.rsv ∧ f.rm &&& m.rm = p.rm ∧ f.rb &&& m.rb = p.rb ∧ f.ra &&& m.ra = p.ra
        ∧ f.rd &&& m.rd = p.rd ∧ f.op &&& m.op = p.op := by
  unfold Fields.toWord
  erw [append_and, append_inj, append_and, append_inj, append_and, append_inj, append_and, append_inj, append_and,
    append_inj]

/-- A used field with bit 3 clear names the register of its value. -/
@[simp] theorem regOf?_regField (r : Reg) : regOf? (regField r) = some r := by
  revert r; decide

/-- The low three bits of a used field name its register. -/
@[simp] theorem regOf_regField (r : Reg) : regOf (regField r) = r := by
  revert r; decide

/-- Only the field of a register names it. -/
theorem regOf?_eq_some {f : BitVec 4} {r : Reg} : regOf? f = some r ↔ f = regField r := by
  revert f r; decide

/-- A used register field passes its check. -/
@[simp] theorem fieldOk_regField (r : Reg) : fieldOk true (regField r) = true := by
  revert r; decide

/-- The mask of a used register field checks its bit 3 (30_encoding.md R92). -/
theorem used_mask_iff (f : BitVec 4) : f &&& 8 = 0 ↔ ∃ r, regOf? f = some r := by
  revert f; decide

/-- The fields of an encoded command. -/
@[simp] theorem ofWord_encode (i : Instr) : Fields.ofWord (encode i) = i.fields := ofWord_toWord _

end Sys2Proof.Laws
end

