-- ==== Sys2Proof/Laws/Operands.lean ====
section
/-! SUPPORT. Laws of the operand words and of the window: a word read after a write to it, the other words, the range, and
which offsets are defined. -/

namespace Sys2Proof.Machine

/-- A power of two at the next word is 2^32 times the one before. -/
theorem pow_word_succ (w : Nat) : 2 ^ (32 * (w + 1)) = 2 ^ (32 * w) * 2 ^ 32 := by
  rw [← pow_add]; congr 1

/-- A number put together from a part above a word, the word and a part below it, cut into these parts again. -/
theorem word_parts (v x P : Nat) (hP : 0 < P) (hx : x < 2 ^ 32) :
    (v / (P * 2 ^ 32) * (P * 2 ^ 32) + x * P + v % P) / (P * 2 ^ 32) = v / (P * 2 ^ 32) ∧
      (v / (P * 2 ^ 32) * (P * 2 ^ 32) + x * P + v % P) / P % 2 ^ 32 = x ∧
        (v / (P * 2 ^ 32) * (P * 2 ^ 32) + x * P + v % P) % P = v % P := by
  have hlo : v % P < P := Nat.mod_lt _ hP
  have hform : v / (P * 2 ^ 32) * (P * 2 ^ 32) + x * P + v % P = P * (v / (P * 2 ^ 32) * 2 ^ 32 + x) + v % P := by ring
  have hdiv : (P * (v / (P * 2 ^ 32) * 2 ^ 32 + x) + v % P) / P = v / (P * 2 ^ 32) * 2 ^ 32 + x := by
    rw [Nat.mul_add_div hP, Nat.div_eq_of_lt hlo, Nat.add_zero]
  rw [hform]
  refine ⟨?_, ?_, ?_⟩
  · rw [← Nat.div_div_eq_div_mul, hdiv]
    omega
  · rw [hdiv]
    omega
  · rw [Nat.mul_add_mod, Nat.mod_mod]

/-- A value with word `w` replaced, above that word, at it and below it. -/
theorem setOperandWord_parts (v w : Nat) (x : Word) :
    setOperandWord v w x / 2 ^ (32 * (w + 1)) = v / 2 ^ (32 * (w + 1)) ∧
      setOperandWord v w x / 2 ^ (32 * w) % 2 ^ 32 = x.toNat ∧
        setOperandWord v w x % 2 ^ (32 * w) = v % 2 ^ (32 * w) := by
  unfold setOperandWord
  rw [pow_word_succ w]
  exact word_parts v x.toNat _ (Nat.two_pow_pos _) x.isLt

/-- The word just written reads back (20_memory.md R66). -/
@[simp] theorem operandWord_setOperandWord_same (v w : Nat) (x : Word) : operandWord (setOperandWord v w x) w = x := by
  apply BitVec.eq_of_toNat_eq
  rw [operandWord, BitVec.toNat_ofNat]
  exact (setOperandWord_parts v w x).2.1

/-- A word write leaves the other words alone (20_memory.md R66). -/
theorem operandWord_setOperandWord_other (v : Nat) {w u : Nat} (x : Word) (h : u ≠ w) :
    operandWord (setOperandWord v w x) u = operandWord v u := by
  obtain ⟨hhi, _, hlo⟩ := setOperandWord_parts v w x
  apply BitVec.eq_of_toNat_eq
  simp only [operandWord, BitVec.toNat_ofNat]
  rcases Nat.lt_or_gt_of_ne h with hu | hu
  · obtain ⟨k, rfl⟩ : ∃ k, w = u + 1 + k := ⟨w - (u + 1), by omega⟩
    have hm : (2 : Nat) ^ (32 * (u + 1 + k)) = 2 ^ (32 * u) * (2 ^ 32 * 2 ^ (32 * k)) := by
      rw [← pow_add, ← pow_add]; congr 1; ring
    rw [hm] at hlo
    generalize setOperandWord v (u + 1 + k) x = y at hlo
    have hy := Nat.mod_mul_right_div_self y (2 ^ (32 * u)) (2 ^ 32 * 2 ^ (32 * k))
    have hv := Nat.mod_mul_right_div_self v (2 ^ (32 * u)) (2 ^ 32 * 2 ^ (32 * k))
    rw [hlo, hv] at hy
    have := congrArg (· % 2 ^ 32) hy
    simpa [Nat.mod_mul_right_mod] using this.symm
  · obtain ⟨k, rfl⟩ : ∃ k, u = w + 1 + k := ⟨u - (w + 1), by omega⟩
    have hm : (2 : Nat) ^ (32 * (w + 1 + k)) = 2 ^ (32 * (w + 1)) * 2 ^ (32 * k) := by
      rw [← pow_add]; congr 1; ring
    rw [hm, ← Nat.div_div_eq_div_mul, ← Nat.div_div_eq_div_mul, hhi]

/-- A word write keeps an operand value in range (00_scope.md R9). -/
theorem setOperandWord_lt {v w nw : Nat} (x : Word) (hv : v < 2 ^ (32 * nw)) (hw : w < nw) :
    setOperandWord v w x < 2 ^ (32 * nw) := by
  obtain ⟨hhi, _, _⟩ := setOperandWord_parts v w x
  obtain ⟨k, rfl⟩ : ∃ k, nw = w + 1 + k := ⟨nw - (w + 1), by omega⟩
  have hm : (2 : Nat) ^ (32 * (w + 1 + k)) = 2 ^ (32 * (w + 1)) * 2 ^ (32 * k) := by
    rw [← pow_add]; congr 1; ring
  rw [hm] at hv ⊢
  rw [Nat.mul_comm, ← Nat.div_lt_iff_lt_mul (Nat.two_pow_pos _)] at hv ⊢
  rwa [hhi]

-- The window.

/-- At and above 0x100 only operand words stand (20_memory.md R65, R73). -/
theorem placeAt_of_ge {cfg : Config} {off : Nat} (h : 0x100 ≤ off) : placeAt cfg off = operandPlace cfg off := by
  unfold placeAt
  split <;> first | omega | rfl

/-- Operand word `w` of `Ri` stands at its offset (20_memory.md R66). -/
theorem placeAt_operandOffset {cfg : Config} (r : Reg) {w : Nat} (hw : w < cfg.nw) (hcfg : cfg.nw ≤ 64) :
    placeAt cfg (operandOffset r w) = some (.operand r w) := by
  have hr := r.isLt
  rw [placeAt_of_ge (by unfold operandOffset; omega)]
  have hslot : operandOffset r w / 0x100 = r.val + 1 := by unfold operandOffset; omega
  have hword : operandOffset r w % 0x100 / 4 = w := by unfold operandOffset; omega
  have hin : 1 ≤ r.val + 1 ∧ r.val + 1 ≤ 8 := by omega
  simp only [operandPlace, hslot, hword, hin, hw, if_true, dif_pos, and_self]
  rfl

/-- A place that holds an operand word holds a word of the configuration (20_memory.md R66, R67). -/
theorem lt_nw_of_placeAt {cfg : Config} {off w : Nat} {r : Reg} (h : placeAt cfg off = some (.operand r w)) :
    w < cfg.nw := by
  unfold placeAt at h
  split at h
  all_goals try cases h
  unfold operandPlace at h
  dsimp only at h
  split_ifs at h with h1 h2
  cases h
  exact h2

/-- A transaction that is not bus-errored reaches the place at its offset. -/
theorem accessCheck_place {cfg : Config} {off : BitVec 12} {strobes : BitVec 4} {p : Place}
    (h : accessCheck cfg off strobes = .ok p) : strobes = 0xF ∧ off.toNat % 4 = 0 ∧ placeAt cfg off.toNat = some p := by
  unfold accessCheck at h
  split_ifs at h with h1 h2
  split at h
  · cases h
  · next q hq =>
    cases h
    exact ⟨by simpa using h1, by omega, hq⟩

end Sys2Proof.Machine
end

