-- ==== Sys2Proof/Laws/PerInstr.lean ====
section
/-! SUPPORT. Statements about every command as syntax, one lemma per constructor. Encoding: the word that encodes a command is
well formed (30_encoding.md R92, R94, R95) and carries its opcode (R96). -/

namespace Sys2Proof.Laws.Encoding

/-- The encoded word passes the checks of 30_encoding.md R92, R94, R95 and R96 and has the command's opcode. -/
def Statement (i : Instr) : Prop :=
  (Fields.ofWord (encode i)).WellFormed = true ∧ (Fields.ofWord (encode i)).op = i.opcode

/-- It is enough to check the fields that the encoder sets, each used one a register and each unused one 0. -/
theorem of_fields {i : Instr} (u : UsedFields) (hop : i.fields.op = i.opcode) (hu : usedFields i.opcode = some u)
    (hrsv : i.fields.rsv = 0) (hd : fieldOk u.rd i.fields.rd = true) (hm : fieldOk u.rm i.fields.rm = true)
    (hab : (u.imm || (fieldOk u.ra i.fields.ra && fieldOk u.rb i.fields.rb)) = true) : Statement i := by
  rw [Statement, ofWord_encode]
  exact ⟨by simp [Fields.WellFormed, hop, hu, hrsv, hd, hm, hab], hop⟩

theorem nop : Statement .nop := of_fields _ rfl rfl rfl rfl rfl rfl
theorem mov (rd ra : Reg) : Statement (.mov rd ra) :=
  of_fields _ rfl rfl rfl (fieldOk_regField rd) rfl (by simp [Instr.fields]; rfl)
theorem ldi (rd : Reg) (imm : BitVec 8) : Statement (.ldi rd imm) :=
  of_fields _ rfl rfl rfl (fieldOk_regField rd) rfl rfl
theorem reduce (rd ra rm : Reg) : Statement (.reduce rd ra rm) :=
  of_fields _ rfl rfl rfl (fieldOk_regField rd) (fieldOk_regField rm) (by simp [Instr.fields]; rfl)
theorem modinv (rd ra rm : Reg) : Statement (.modinv rd ra rm) :=
  of_fields _ rfl rfl rfl (fieldOk_regField rd) (fieldOk_regField rm) (by simp [Instr.fields]; rfl)
theorem tomont (rd ra rm : Reg) : Statement (.tomont rd ra rm) :=
  of_fields _ rfl rfl rfl (fieldOk_regField rd) (fieldOk_regField rm) (by simp [Instr.fields]; rfl)
theorem frommont (rd ra rm : Reg) : Statement (.frommont rd ra rm) :=
  of_fields _ rfl rfl rfl (fieldOk_regField rd) (fieldOk_regField rm) (by simp [Instr.fields]; rfl)
theorem modadd (rd ra rb rm : Reg) : Statement (.modadd rd ra rb rm) :=
  of_fields _ rfl rfl rfl (fieldOk_regField rd) (fieldOk_regField rm) (by simp [Instr.fields])
theorem modsub (rd ra rb rm : Reg) : Statement (.modsub rd ra rb rm) :=
  of_fields _ rfl rfl rfl (fieldOk_regField rd) (fieldOk_regField rm) (by simp [Instr.fields])
theorem modmul (rd ra rb rm : Reg) : Statement (.modmul rd ra rb rm) :=
  of_fields _ rfl rfl rfl (fieldOk_regField rd) (fieldOk_regField rm) (by simp [Instr.fields])
theorem modexp (rd ra rb rm : Reg) : Statement (.modexp rd ra rb rm) :=
  of_fields _ rfl rfl rfl (fieldOk_regField rd) (fieldOk_regField rm) (by simp [Instr.fields])
theorem montmul (rd ra rb rm : Reg) : Statement (.montmul rd ra rb rm) :=
  of_fields _ rfl rfl rfl (fieldOk_regField rd) (fieldOk_regField rm) (by simp [Instr.fields])
theorem rhostep (rd ra rb rm : Reg) : Statement (.rhostep rd ra rb rm) :=
  of_fields _ rfl rfl rfl (fieldOk_regField rd) (fieldOk_regField rm) (by simp [Instr.fields])
theorem rho (rd ra rb rm : Reg) : Statement (.rho rd ra rb rm) :=
  of_fields _ rfl rfl rfl (fieldOk_regField rd) (fieldOk_regField rm) (by simp [Instr.fields])
theorem gcd (rd ra rb : Reg) : Statement (.gcd rd ra rb) :=
  of_fields _ rfl rfl rfl (fieldOk_regField rd) rfl (by simp [Instr.fields])

end Sys2Proof.Laws.Encoding
end

