-- ==== Sys2Proof/Laws/State.lean ====
section
/-! SUPPORT. One lemma per field of State per update, true by rfl, so that no proof unfolds a record update; and the lemmas of
the register file and of BUSY. -/

namespace Sys2Proof.Machine

-- One register written.
@[simp] theorem State.setReg_cfg (s : State) (r : Reg) (v : Nat) : (s.setReg r v).cfg = s.cfg := rfl
@[simp] theorem State.setReg_regs (s : State) (r : Reg) (v : Nat) : (s.setReg r v).regs = s.regs.set r v := rfl
@[simp] theorem State.setReg_ie (s : State) (r : Reg) (v : Nat) : (s.setReg r v).ie = s.ie := rfl
@[simp] theorem State.setReg_win (s : State) (r : Reg) (v : Nat) : (s.setReg r v).win = s.win := rfl
@[simp] theorem State.setReg_done (s : State) (r : Reg) (v : Nat) : (s.setReg r v).done = s.done := rfl
@[simp] theorem State.setReg_err (s : State) (r : Reg) (v : Nat) : (s.setReg r v).err = s.err := rfl
@[simp] theorem State.setReg_ovf (s : State) (r : Reg) (v : Nat) : (s.setReg r v).ovf = s.ovf := rfl
@[simp] theorem State.setReg_errcode (s : State) (r : Reg) (v : Nat) : (s.setReg r v).errcode = s.errcode := rfl
@[simp] theorem State.setReg_z (s : State) (r : Reg) (v : Nat) : (s.setReg r v).z = s.z := rfl
@[simp] theorem State.setReg_triv (s : State) (r : Reg) (v : Nat) : (s.setReg r v).triv = s.triv := rfl
@[simp] theorem State.setReg_cmd (s : State) (r : Reg) (v : Nat) : (s.setReg r v).cmd = s.cmd := rfl
@[simp] theorem State.setReg_iter (s : State) (r : Reg) (v : Nat) : (s.setReg r v).iter = s.iter := rfl
@[simp] theorem State.setReg_rhoLimit (s : State) (r : Reg) (v : Nat) : (s.setReg r v).rhoLimit = s.rhoLimit := rfl
@[simp] theorem State.setReg_eng (s : State) (r : Reg) (v : Nat) : (s.setReg r v).eng = s.eng := rfl
@[simp] theorem State.setReg_abortPending (s : State) (r : Reg) (v : Nat) :
    (s.setReg r v).abortPending = s.abortPending := rfl
@[simp] theorem State.setReg_turns (s : State) (r : Reg) (v : Nat) : (s.setReg r v).turns = s.turns := rfl
@[simp] theorem State.setReg_response (s : State) (r : Reg) (v : Nat) : (s.setReg r v).response = s.response := rfl
@[simp] theorem State.setReg_draws (s : State) (r : Reg) (v : Nat) : (s.setReg r v).draws = s.draws := rfl

-- The success completion (60_exceptions.md R242).
@[simp] theorem State.complete_cfg (s : State) (l : List (Reg × Nat)) (z triv : Bool) :
    (s.complete l z triv).cfg = s.cfg := rfl
@[simp] theorem State.complete_regs (s : State) (l : List (Reg × Nat)) (z triv : Bool) :
    (s.complete l z triv).regs = writeRegs s.regs l := rfl
@[simp] theorem State.complete_ie (s : State) (l : List (Reg × Nat)) (z triv : Bool) : (s.complete l z triv).ie = s.ie := rfl
@[simp] theorem State.complete_win (s : State) (l : List (Reg × Nat)) (z triv : Bool) :
    (s.complete l z triv).win = s.win := rfl
@[simp] theorem State.complete_done (s : State) (l : List (Reg × Nat)) (z triv : Bool) :
    (s.complete l z triv).done = true := rfl
@[simp] theorem State.complete_err (s : State) (l : List (Reg × Nat)) (z triv : Bool) :
    (s.complete l z triv).err = false := rfl
@[simp] theorem State.complete_ovf (s : State) (l : List (Reg × Nat)) (z triv : Bool) :
    (s.complete l z triv).ovf = s.ovf := rfl
@[simp] theorem State.complete_errcode (s : State) (l : List (Reg × Nat)) (z triv : Bool) :
    (s.complete l z triv).errcode = 0 := rfl
@[simp] theorem State.complete_z (s : State) (l : List (Reg × Nat)) (z triv : Bool) : (s.complete l z triv).z = z := rfl
@[simp] theorem State.complete_triv (s : State) (l : List (Reg × Nat)) (z triv : Bool) :
    (s.complete l z triv).triv = triv := rfl
@[simp] theorem State.complete_cmd (s : State) (l : List (Reg × Nat)) (z triv : Bool) :
    (s.complete l z triv).cmd = s.cmd := rfl
@[simp] theorem State.complete_iter (s : State) (l : List (Reg × Nat)) (z triv : Bool) :
    (s.complete l z triv).iter = s.iter := rfl
@[simp] theorem State.complete_rhoLimit (s : State) (l : List (Reg × Nat)) (z triv : Bool) :
    (s.complete l z triv).rhoLimit = s.rhoLimit := rfl
@[simp] theorem State.complete_eng (s : State) (l : List (Reg × Nat)) (z triv : Bool) :
    (s.complete l z triv).eng = .idle := rfl
@[simp] theorem State.complete_abortPending (s : State) (l : List (Reg × Nat)) (z triv : Bool) :
    (s.complete l z triv).abortPending = false := rfl
@[simp] theorem State.complete_turns (s : State) (l : List (Reg × Nat)) (z triv : Bool) :
    (s.complete l z triv).turns = s.turns := rfl
@[simp] theorem State.complete_response (s : State) (l : List (Reg × Nat)) (z triv : Bool) :
    (s.complete l z triv).response = s.response := rfl
@[simp] theorem State.complete_draws (s : State) (l : List (Reg × Nat)) (z triv : Bool) :
    (s.complete l z triv).draws = s.draws := rfl

-- The error completion (60_exceptions.md R243).
@[simp] theorem State.raiseError_cfg (s : State) (e : ErrorCode) : (s.raiseError e).cfg = s.cfg := rfl
@[simp] theorem State.raiseError_regs (s : State) (e : ErrorCode) : (s.raiseError e).regs = s.regs := rfl
@[simp] theorem State.raiseError_ie (s : State) (e : ErrorCode) : (s.raiseError e).ie = s.ie := rfl
@[simp] theorem State.raiseError_win (s : State) (e : ErrorCode) : (s.raiseError e).win = s.win := rfl
@[simp] theorem State.raiseError_done (s : State) (e : ErrorCode) : (s.raiseError e).done = true := rfl
@[simp] theorem State.raiseError_err (s : State) (e : ErrorCode) : (s.raiseError e).err = true := rfl
@[simp] theorem State.raiseError_ovf (s : State) (e : ErrorCode) : (s.raiseError e).ovf = s.ovf := rfl
@[simp] theorem State.raiseError_errcode (s : State) (e : ErrorCode) : (s.raiseError e).errcode = e.code := rfl
@[simp] theorem State.raiseError_z (s : State) (e : ErrorCode) : (s.raiseError e).z = false := rfl
@[simp] theorem State.raiseError_triv (s : State) (e : ErrorCode) : (s.raiseError e).triv = false := rfl
@[simp] theorem State.raiseError_cmd (s : State) (e : ErrorCode) : (s.raiseError e).cmd = s.cmd := rfl
@[simp] theorem State.raiseError_iter (s : State) (e : ErrorCode) : (s.raiseError e).iter = s.iter := rfl
@[simp] theorem State.raiseError_rhoLimit (s : State) (e : ErrorCode) : (s.raiseError e).rhoLimit = s.rhoLimit := rfl
@[simp] theorem State.raiseError_eng (s : State) (e : ErrorCode) : (s.raiseError e).eng = .idle := rfl
@[simp] theorem State.raiseError_abortPending (s : State) (e : ErrorCode) : (s.raiseError e).abortPending = false := rfl
@[simp] theorem State.raiseError_turns (s : State) (e : ErrorCode) : (s.raiseError e).turns = s.turns := rfl
@[simp] theorem State.raiseError_response (s : State) (e : ErrorCode) : (s.raiseError e).response = s.response := rfl
@[simp] theorem State.raiseError_draws (s : State) (e : ErrorCode) : (s.raiseError e).draws = s.draws := rfl

-- A write to STATUS (10_state.md R38).
@[simp] theorem State.writeStatus_cfg (s : State) (v : Word) : (s.writeStatus v).cfg = s.cfg := rfl
@[simp] theorem State.writeStatus_regs (s : State) (v : Word) : (s.writeStatus v).regs = s.regs := rfl
@[simp] theorem State.writeStatus_ie (s : State) (v : Word) : (s.writeStatus v).ie = s.ie := rfl
@[simp] theorem State.writeStatus_win (s : State) (v : Word) : (s.writeStatus v).win = s.win := rfl
@[simp] theorem State.writeStatus_done (s : State) (v : Word) : (s.writeStatus v).done = (s.done && !v.getLsbD 1) := rfl
@[simp] theorem State.writeStatus_err (s : State) (v : Word) : (s.writeStatus v).err = (s.err && !v.getLsbD 2) := rfl
@[simp] theorem State.writeStatus_ovf (s : State) (v : Word) : (s.writeStatus v).ovf = (s.ovf && !v.getLsbD 3) := rfl
@[simp] theorem State.writeStatus_errcode (s : State) (v : Word) :
    (s.writeStatus v).errcode = (if v.getLsbD 2 then 0 else s.errcode) := rfl
@[simp] theorem State.writeStatus_z (s : State) (v : Word) : (s.writeStatus v).z = s.z := rfl
@[simp] theorem State.writeStatus_triv (s : State) (v : Word) : (s.writeStatus v).triv = s.triv := rfl
@[simp] theorem State.writeStatus_cmd (s : State) (v : Word) : (s.writeStatus v).cmd = s.cmd := rfl
@[simp] theorem State.writeStatus_iter (s : State) (v : Word) : (s.writeStatus v).iter = s.iter := rfl
@[simp] theorem State.writeStatus_rhoLimit (s : State) (v : Word) : (s.writeStatus v).rhoLimit = s.rhoLimit := rfl
@[simp] theorem State.writeStatus_eng (s : State) (v : Word) : (s.writeStatus v).eng = s.eng := rfl
@[simp] theorem State.writeStatus_abortPending (s : State) (v : Word) :
    (s.writeStatus v).abortPending = s.abortPending := rfl
@[simp] theorem State.writeStatus_turns (s : State) (v : Word) : (s.writeStatus v).turns = s.turns := rfl
@[simp] theorem State.writeStatus_response (s : State) (v : Word) : (s.writeStatus v).response = s.response := rfl
@[simp] theorem State.writeStatus_draws (s : State) (v : Word) : (s.writeStatus v).draws = s.draws := rfl

-- Acceptance (60_exceptions.md R240).
@[simp] theorem State.accept_cfg (s : State) (v : Word) : (s.accept v).cfg = s.cfg := rfl
@[simp] theorem State.accept_regs (s : State) (v : Word) : (s.accept v).regs = s.regs := rfl
@[simp] theorem State.accept_ie (s : State) (v : Word) : (s.accept v).ie = s.ie := rfl
@[simp] theorem State.accept_win (s : State) (v : Word) : (s.accept v).win = s.win := rfl
@[simp] theorem State.accept_done (s : State) (v : Word) : (s.accept v).done = false := rfl
@[simp] theorem State.accept_err (s : State) (v : Word) : (s.accept v).err = false := rfl
@[simp] theorem State.accept_ovf (s : State) (v : Word) : (s.accept v).ovf = s.ovf := rfl
@[simp] theorem State.accept_errcode (s : State) (v : Word) : (s.accept v).errcode = 0 := rfl
@[simp] theorem State.accept_z (s : State) (v : Word) : (s.accept v).z = false := rfl
@[simp] theorem State.accept_triv (s : State) (v : Word) : (s.accept v).triv = false := rfl
@[simp] theorem State.accept_cmd (s : State) (v : Word) : (s.accept v).cmd = v := rfl
@[simp] theorem State.accept_iter (s : State) (v : Word) : (s.accept v).iter = s.iter := rfl
@[simp] theorem State.accept_rhoLimit (s : State) (v : Word) : (s.accept v).rhoLimit = s.rhoLimit := rfl
@[simp] theorem State.accept_eng (s : State) (v : Word) : (s.accept v).eng = .busy (s.latchOf v) := rfl
@[simp] theorem State.accept_abortPending (s : State) (v : Word) : (s.accept v).abortPending = false := rfl
@[simp] theorem State.accept_turns (s : State) (v : Word) : (s.accept v).turns = s.turns := rfl
@[simp] theorem State.accept_response (s : State) (v : Word) : (s.accept v).response = s.response := rfl
@[simp] theorem State.accept_draws (s : State) (v : Word) : (s.accept v).draws = s.draws := rfl

-- A dropped write (70_reset_and_hazards.md R290, R291).
@[simp] theorem State.dropWrite_cfg (s : State) : (s.dropWrite).cfg = s.cfg := rfl
@[simp] theorem State.dropWrite_regs (s : State) : (s.dropWrite).regs = s.regs := rfl
@[simp] theorem State.dropWrite_ie (s : State) : (s.dropWrite).ie = s.ie := rfl
@[simp] theorem State.dropWrite_win (s : State) : (s.dropWrite).win = s.win := rfl
@[simp] theorem State.dropWrite_done (s : State) : (s.dropWrite).done = s.done := rfl
@[simp] theorem State.dropWrite_err (s : State) : (s.dropWrite).err = s.err := rfl
@[simp] theorem State.dropWrite_ovf (s : State) : (s.dropWrite).ovf = true := rfl
@[simp] theorem State.dropWrite_errcode (s : State) : (s.dropWrite).errcode = s.errcode := rfl
@[simp] theorem State.dropWrite_z (s : State) : (s.dropWrite).z = s.z := rfl
@[simp] theorem State.dropWrite_triv (s : State) : (s.dropWrite).triv = s.triv := rfl
@[simp] theorem State.dropWrite_cmd (s : State) : (s.dropWrite).cmd = s.cmd := rfl
@[simp] theorem State.dropWrite_iter (s : State) : (s.dropWrite).iter = s.iter := rfl
@[simp] theorem State.dropWrite_rhoLimit (s : State) : (s.dropWrite).rhoLimit = s.rhoLimit := rfl
@[simp] theorem State.dropWrite_eng (s : State) : (s.dropWrite).eng = s.eng := rfl
@[simp] theorem State.dropWrite_abortPending (s : State) : (s.dropWrite).abortPending = s.abortPending := rfl
@[simp] theorem State.dropWrite_turns (s : State) : (s.dropWrite).turns = s.turns := rfl
@[simp] theorem State.dropWrite_response (s : State) : (s.dropWrite).response = s.response := rfl
@[simp] theorem State.dropWrite_draws (s : State) : (s.dropWrite).draws = s.draws := rfl

-- An abort request (10_state.md R35).
@[simp] theorem State.requestAbort_cfg (s : State) : (s.requestAbort).cfg = s.cfg := rfl
@[simp] theorem State.requestAbort_regs (s : State) : (s.requestAbort).regs = s.regs := rfl
@[simp] theorem State.requestAbort_ie (s : State) : (s.requestAbort).ie = s.ie := rfl
@[simp] theorem State.requestAbort_win (s : State) : (s.requestAbort).win = s.win := rfl
@[simp] theorem State.requestAbort_done (s : State) : (s.requestAbort).done = s.done := rfl
@[simp] theorem State.requestAbort_err (s : State) : (s.requestAbort).err = s.err := rfl
@[simp] theorem State.requestAbort_ovf (s : State) : (s.requestAbort).ovf = s.ovf := rfl
@[simp] theorem State.requestAbort_errcode (s : State) : (s.requestAbort).errcode = s.errcode := rfl
@[simp] theorem State.requestAbort_z (s : State) : (s.requestAbort).z = s.z := rfl
@[simp] theorem State.requestAbort_triv (s : State) : (s.requestAbort).triv = s.triv := rfl
@[simp] theorem State.requestAbort_cmd (s : State) : (s.requestAbort).cmd = s.cmd := rfl
@[simp] theorem State.requestAbort_iter (s : State) : (s.requestAbort).iter = s.iter := rfl
@[simp] theorem State.requestAbort_rhoLimit (s : State) : (s.requestAbort).rhoLimit = s.rhoLimit := rfl
@[simp] theorem State.requestAbort_eng (s : State) : (s.requestAbort).eng = s.eng := rfl
@[simp] theorem State.requestAbort_abortPending (s : State) :
    (s.requestAbort).abortPending = (s.abortPending || s.rhoInFlight) := rfl
@[simp] theorem State.requestAbort_turns (s : State) : (s.requestAbort).turns = s.turns := rfl
@[simp] theorem State.requestAbort_response (s : State) : (s.requestAbort).response = s.response := rfl
@[simp] theorem State.requestAbort_draws (s : State) : (s.requestAbort).draws = s.draws := rfl

-- Reset (10_state.md R54).
@[simp] theorem State.toReset_cfg (s : State) : (s.toReset).cfg = s.cfg := rfl
@[simp] theorem State.toReset_regs (s : State) : (s.toReset).regs = #v[0, 0, 0, 0, 0, 0, 0, 0] := rfl
@[simp] theorem State.toReset_ie (s : State) : (s.toReset).ie = false := rfl
@[simp] theorem State.toReset_win (s : State) : (s.toReset).win = 0 := rfl
@[simp] theorem State.toReset_done (s : State) : (s.toReset).done = false := rfl
@[simp] theorem State.toReset_err (s : State) : (s.toReset).err = false := rfl
@[simp] theorem State.toReset_ovf (s : State) : (s.toReset).ovf = false := rfl
@[simp] theorem State.toReset_errcode (s : State) : (s.toReset).errcode = 0 := rfl
@[simp] theorem State.toReset_z (s : State) : (s.toReset).z = false := rfl
@[simp] theorem State.toReset_triv (s : State) : (s.toReset).triv = false := rfl
@[simp] theorem State.toReset_cmd (s : State) : (s.toReset).cmd = 0 := rfl
@[simp] theorem State.toReset_iter (s : State) : (s.toReset).iter = 0 := rfl
@[simp] theorem State.toReset_rhoLimit (s : State) : (s.toReset).rhoLimit = 0 := rfl
@[simp] theorem State.toReset_eng (s : State) : (s.toReset).eng = .idle := rfl
@[simp] theorem State.toReset_abortPending (s : State) : (s.toReset).abortPending = false := rfl
@[simp] theorem State.toReset_turns (s : State) : (s.toReset).turns = s.turns := rfl
@[simp] theorem State.toReset_response (s : State) : (s.toReset).response = .none := rfl
@[simp] theorem State.toReset_draws (s : State) : (s.toReset).draws = s.draws := rfl

-- RHO goes on (43_gcd_rho.md R221, R222).
@[simp] theorem State.continueRho_cfg (s : State) (w : RhoWork) : (s.continueRho w).cfg = s.cfg := rfl
@[simp] theorem State.continueRho_regs (s : State) (w : RhoWork) : (s.continueRho w).regs = s.regs := rfl
@[simp] theorem State.continueRho_ie (s : State) (w : RhoWork) : (s.continueRho w).ie = s.ie := rfl
@[simp] theorem State.continueRho_win (s : State) (w : RhoWork) : (s.continueRho w).win = s.win := rfl
@[simp] theorem State.continueRho_done (s : State) (w : RhoWork) : (s.continueRho w).done = s.done := rfl
@[simp] theorem State.continueRho_err (s : State) (w : RhoWork) : (s.continueRho w).err = s.err := rfl
@[simp] theorem State.continueRho_ovf (s : State) (w : RhoWork) : (s.continueRho w).ovf = s.ovf := rfl
@[simp] theorem State.continueRho_errcode (s : State) (w : RhoWork) : (s.continueRho w).errcode = s.errcode := rfl
@[simp] theorem State.continueRho_z (s : State) (w : RhoWork) : (s.continueRho w).z = s.z := rfl
@[simp] theorem State.continueRho_triv (s : State) (w : RhoWork) : (s.continueRho w).triv = s.triv := rfl
@[simp] theorem State.continueRho_cmd (s : State) (w : RhoWork) : (s.continueRho w).cmd = s.cmd := rfl
@[simp] theorem State.continueRho_iter (s : State) (w : RhoWork) : (s.continueRho w).iter = s.iter := rfl
@[simp] theorem State.continueRho_rhoLimit (s : State) (w : RhoWork) : (s.continueRho w).rhoLimit = s.rhoLimit := rfl
@[simp] theorem State.continueRho_eng (s : State) (w : RhoWork) :
    (s.continueRho w).eng = .busy { s.latch with phase := .iterate w } := rfl
@[simp] theorem State.continueRho_abortPending (s : State) (w : RhoWork) :
    (s.continueRho w).abortPending = s.abortPending := rfl
@[simp] theorem State.continueRho_turns (s : State) (w : RhoWork) : (s.continueRho w).turns = s.turns := rfl
@[simp] theorem State.continueRho_response (s : State) (w : RhoWork) : (s.continueRho w).response = s.response := rfl
@[simp] theorem State.continueRho_draws (s : State) (w : RhoWork) : (s.continueRho w).draws = s.draws := rfl

-- One more iteration counted (10_state.md R46).
@[simp] theorem State.countIteration_cfg (s : State) : (s.countIteration).cfg = s.cfg := rfl
@[simp] theorem State.countIteration_regs (s : State) : (s.countIteration).regs = s.regs := rfl
@[simp] theorem State.countIteration_ie (s : State) : (s.countIteration).ie = s.ie := rfl
@[simp] theorem State.countIteration_win (s : State) : (s.countIteration).win = s.win := rfl
@[simp] theorem State.countIteration_done (s : State) : (s.countIteration).done = s.done := rfl
@[simp] theorem State.countIteration_err (s : State) : (s.countIteration).err = s.err := rfl
@[simp] theorem State.countIteration_ovf (s : State) : (s.countIteration).ovf = s.ovf := rfl
@[simp] theorem State.countIteration_errcode (s : State) : (s.countIteration).errcode = s.errcode := rfl
@[simp] theorem State.countIteration_z (s : State) : (s.countIteration).z = s.z := rfl
@[simp] theorem State.countIteration_triv (s : State) : (s.countIteration).triv = s.triv := rfl
@[simp] theorem State.countIteration_cmd (s : State) : (s.countIteration).cmd = s.cmd := rfl
@[simp] theorem State.countIteration_iter (s : State) : (s.countIteration).iter = s.iter + 1 := rfl
@[simp] theorem State.countIteration_rhoLimit (s : State) : (s.countIteration).rhoLimit = s.rhoLimit := rfl
@[simp] theorem State.countIteration_eng (s : State) : (s.countIteration).eng = s.eng := rfl
@[simp] theorem State.countIteration_abortPending (s : State) : (s.countIteration).abortPending = s.abortPending := rfl
@[simp] theorem State.countIteration_turns (s : State) : (s.countIteration).turns = s.turns := rfl
@[simp] theorem State.countIteration_response (s : State) : (s.countIteration).response = s.response := rfl
@[simp] theorem State.countIteration_draws (s : State) : (s.countIteration).draws = s.draws := rfl

-- ITER cleared (10_state.md R46).
@[simp] theorem State.clearIter_cfg (s : State) : (s.clearIter).cfg = s.cfg := rfl
@[simp] theorem State.clearIter_regs (s : State) : (s.clearIter).regs = s.regs := rfl
@[simp] theorem State.clearIter_ie (s : State) : (s.clearIter).ie = s.ie := rfl
@[simp] theorem State.clearIter_win (s : State) : (s.clearIter).win = s.win := rfl
@[simp] theorem State.clearIter_done (s : State) : (s.clearIter).done = s.done := rfl
@[simp] theorem State.clearIter_err (s : State) : (s.clearIter).err = s.err := rfl
@[simp] theorem State.clearIter_ovf (s : State) : (s.clearIter).ovf = s.ovf := rfl
@[simp] theorem State.clearIter_errcode (s : State) : (s.clearIter).errcode = s.errcode := rfl
@[simp] theorem State.clearIter_z (s : State) : (s.clearIter).z = s.z := rfl
@[simp] theorem State.clearIter_triv (s : State) : (s.clearIter).triv = s.triv := rfl
@[simp] theorem State.clearIter_cmd (s : State) : (s.clearIter).cmd = s.cmd := rfl
@[simp] theorem State.clearIter_iter (s : State) : (s.clearIter).iter = 0 := rfl
@[simp] theorem State.clearIter_rhoLimit (s : State) : (s.clearIter).rhoLimit = s.rhoLimit := rfl
@[simp] theorem State.clearIter_eng (s : State) : (s.clearIter).eng = s.eng := rfl
@[simp] theorem State.clearIter_abortPending (s : State) : (s.clearIter).abortPending = s.abortPending := rfl
@[simp] theorem State.clearIter_turns (s : State) : (s.clearIter).turns = s.turns := rfl
@[simp] theorem State.clearIter_response (s : State) : (s.clearIter).response = s.response := rfl
@[simp] theorem State.clearIter_draws (s : State) : (s.clearIter).draws = s.draws := rfl

-- The answer to a transaction (20_memory.md R62).
@[simp] theorem State.respond_cfg (s : State) (r : Response) : (s.respond r).cfg = s.cfg := rfl
@[simp] theorem State.respond_regs (s : State) (r : Response) : (s.respond r).regs = s.regs := rfl
@[simp] theorem State.respond_ie (s : State) (r : Response) : (s.respond r).ie = s.ie := rfl
@[simp] theorem State.respond_win (s : State) (r : Response) : (s.respond r).win = s.win := rfl
@[simp] theorem State.respond_done (s : State) (r : Response) : (s.respond r).done = s.done := rfl
@[simp] theorem State.respond_err (s : State) (r : Response) : (s.respond r).err = s.err := rfl
@[simp] theorem State.respond_ovf (s : State) (r : Response) : (s.respond r).ovf = s.ovf := rfl
@[simp] theorem State.respond_errcode (s : State) (r : Response) : (s.respond r).errcode = s.errcode := rfl
@[simp] theorem State.respond_z (s : State) (r : Response) : (s.respond r).z = s.z := rfl
@[simp] theorem State.respond_triv (s : State) (r : Response) : (s.respond r).triv = s.triv := rfl
@[simp] theorem State.respond_cmd (s : State) (r : Response) : (s.respond r).cmd = s.cmd := rfl
@[simp] theorem State.respond_iter (s : State) (r : Response) : (s.respond r).iter = s.iter := rfl
@[simp] theorem State.respond_rhoLimit (s : State) (r : Response) : (s.respond r).rhoLimit = s.rhoLimit := rfl
@[simp] theorem State.respond_eng (s : State) (r : Response) : (s.respond r).eng = s.eng := rfl
@[simp] theorem State.respond_abortPending (s : State) (r : Response) : (s.respond r).abortPending = s.abortPending := rfl
@[simp] theorem State.respond_turns (s : State) (r : Response) : (s.respond r).turns = s.turns := rfl
@[simp] theorem State.respond_response (s : State) (r : Response) : (s.respond r).response = r := rfl
@[simp] theorem State.respond_draws (s : State) (r : Response) : (s.respond r).draws = s.draws := rfl

-- An unspecified word drawn (70_reset_and_hazards.md R290).
@[simp] theorem State.drawWord_cfg (s : State) : (s.drawWord).cfg = s.cfg := rfl
@[simp] theorem State.drawWord_regs (s : State) : (s.drawWord).regs = s.regs := rfl
@[simp] theorem State.drawWord_ie (s : State) : (s.drawWord).ie = s.ie := rfl
@[simp] theorem State.drawWord_win (s : State) : (s.drawWord).win = s.win := rfl
@[simp] theorem State.drawWord_done (s : State) : (s.drawWord).done = s.done := rfl
@[simp] theorem State.drawWord_err (s : State) : (s.drawWord).err = s.err := rfl
@[simp] theorem State.drawWord_ovf (s : State) : (s.drawWord).ovf = s.ovf := rfl
@[simp] theorem State.drawWord_errcode (s : State) : (s.drawWord).errcode = s.errcode := rfl
@[simp] theorem State.drawWord_z (s : State) : (s.drawWord).z = s.z := rfl
@[simp] theorem State.drawWord_triv (s : State) : (s.drawWord).triv = s.triv := rfl
@[simp] theorem State.drawWord_cmd (s : State) : (s.drawWord).cmd = s.cmd := rfl
@[simp] theorem State.drawWord_iter (s : State) : (s.drawWord).iter = s.iter := rfl
@[simp] theorem State.drawWord_rhoLimit (s : State) : (s.drawWord).rhoLimit = s.rhoLimit := rfl
@[simp] theorem State.drawWord_eng (s : State) : (s.drawWord).eng = s.eng := rfl
@[simp] theorem State.drawWord_abortPending (s : State) : (s.drawWord).abortPending = s.abortPending := rfl
@[simp] theorem State.drawWord_turns (s : State) : (s.drawWord).turns = s.turns := rfl
@[simp] theorem State.drawWord_response (s : State) : (s.drawWord).response = .data (Config.freeWord s.draws) := rfl
@[simp] theorem State.drawWord_draws (s : State) : (s.drawWord).draws = s.draws + 1 := rfl

-- The register file.

/-- A register just written holds the value written. -/
@[simp] theorem State.setReg_reg_same (s : State) (r : Reg) (v : Nat) : (s.setReg r v).reg r = v := by
  simp [State.reg]

/-- A write leaves every other register alone. -/
theorem State.setReg_reg_other (s : State) {r q : Reg} (v : Nat) (h : q ≠ r) : (s.setReg r v).reg q = s.reg q := by
  simp [State.reg, Fin.val_ne_of_ne h.symm]

/-- Two states with the same register file hold the same values. -/
theorem State.reg_congr {s t : State} (h : t.regs = s.regs) (r : Reg) : t.reg r = s.reg r := by
  simp [State.reg, h]

/-- Writes done in order leave a register that none of them names alone. -/
theorem writeRegs_other (l : List (Reg × Nat)) (regs : Vector Nat 8) {q : Reg} (h : ∀ p ∈ l, p.1 ≠ q) :
    (writeRegs regs l)[q] = regs[q] := by
  induction l generalizing regs with
  | nil => rfl
  | cons p rest ih =>
    obtain ⟨r, v⟩ := p
    have hr : r ≠ q := h (r, v) (by simp)
    rw [writeRegs, ih _ fun p hp => h p (by simp [hp])]
    simp [Fin.val_ne_of_ne hr]

/-- A register after writes done in order holds its old value or one of the values written to it. -/
theorem writeRegs_mem (l : List (Reg × Nat)) (regs : Vector Nat 8) (q : Reg) :
    (writeRegs regs l)[q] = regs[q] ∨ (q, (writeRegs regs l)[q]) ∈ l := by
  induction l generalizing regs with
  | nil => exact .inl rfl
  | cons p rest ih =>
    obtain ⟨r, v⟩ := p
    rw [writeRegs]
    rcases ih (regs.set r v) with h | h
    · by_cases hr : q = r
      · subst hr
        right
        rw [h]
        simp
      · left
        rw [h]
        simp [Fin.val_ne_of_ne (Ne.symm hr)]
    · exact .inr (List.mem_cons_of_mem _ h)

/-- The register after writes done in order whose last write names it. -/
theorem writeRegs_last (l : List (Reg × Nat)) (regs : Vector Nat 8) (r : Reg) (v : Nat) :
    writeRegs regs (l ++ [(r, v)]) = (writeRegs regs l).set r v := by
  induction l generalizing regs with
  | nil => rfl
  | cons p rest ih => exact ih _

/-- After the success completion of one register, that register holds the value. -/
@[simp] theorem State.completeWith_reg_same (s : State) (rd : Reg) (v : Nat) : (s.completeWith rd v).reg rd = v := by
  simp [State.completeWith, State.reg, writeRegs]

/-- The success completion of one register leaves every other register alone. -/
theorem State.completeWith_reg_other (s : State) {rd q : Reg} (v : Nat) (h : q ≠ rd) :
    (s.completeWith rd v).reg q = s.reg q := by
  simp [State.completeWith, State.reg, writeRegs, Fin.val_ne_of_ne h.symm]

/-- The registers after the rho commands' three writes: the later write to one register wins (43_gcd_rho.md R212). -/
theorem State.completeRho_reg (s : State) (rd ra rb : Reg) (x y d n : Nat) (q : Reg) :
    (s.completeRho rd ra rb x y d n).reg q
      = if q = rd then d else if q = rb then y else if q = ra then x else s.reg q := by
  simp only [State.completeRho, State.reg, State.complete_regs, writeRegs, Fin.getElem_fin, Vector.getElem_set, Fin.ext_iff]
  split_ifs <;> first | rfl | omega

-- BUSY (10_state.md R39, R50).

/-- BUSY is 1 exactly when a command is in flight. -/
theorem State.busy_iff (s : State) : s.busy = true ↔ ∃ c, s.eng = .busy c := by
  unfold State.busy
  cases s.eng <;> simp

/-- BUSY is 0 exactly when the engine is idle. -/
theorem State.not_busy_iff (s : State) : s.busy = false ↔ s.eng = .idle := by
  unfold State.busy
  cases s.eng <;> simp

/-- The latch of a busy engine is the command in flight. -/
theorem State.latch_busy {s : State} {c : Command} (h : s.eng = .busy c) : s.latch = c := by
  simp [State.latch, h]

end Sys2Proof.Machine
end

