-- ==== Sys2Proof/Laws/Step.lean ====
section
/-! SUPPORT. Inversion lemmas: what the start step of a command, RHO's iteration step, the engine's turn, a bus transaction and
one step of the machine can give, each said once. -/

namespace Sys2Proof.Machine

-- The completions, as the relations of Safety.lean.

/-- The error completion changes STATUS, the engine and abort_pending only. -/
theorem errorCompletion_raiseError (s : State) (e : ErrorCode) : ErrorCompletion s (s.raiseError e) e.code :=
  ⟨⟨rfl, rfl, rfl, rfl, rfl, rfl, rfl, rfl, rfl⟩, fun _ => rfl, rfl, rfl, rfl, rfl, rfl, rfl, rfl, rfl⟩

/-- The success completion sets the flags given and changes nothing that the engine keeps. -/
theorem successCompletion_complete (s : State) (l : List (Reg × Nat)) (z triv : Bool) :
    SuccessCompletion s (s.complete l z triv) z triv :=
  ⟨⟨rfl, rfl, rfl, rfl, rfl, rfl, rfl, rfl, rfl⟩, rfl, rfl, rfl, rfl, rfl, rfl, rfl⟩

/-- Counting an iteration does not touch what a success completion leaves. -/
theorem SuccessCompletion.countIteration {s t : State} {z triv : Bool} (h : SuccessCompletion s t z triv) :
    SuccessCompletion s t.countIteration z triv :=
  ⟨⟨h.keeps.cfg, h.keeps.ie, h.keeps.win, h.keeps.ovf, h.keeps.cmd, h.keeps.rhoLimit, h.keeps.turns, h.keeps.response,
    h.keeps.draws⟩, h.z, h.triv, h.done, h.err, h.errcode, h.idle, h.abortPending⟩

/-- The success completion of one register. -/
theorem succeedsWith_completeWith (s : State) (rd : Reg) (v : Nat) : SucceedsWith s (s.completeWith rd v) rd v :=
  ⟨⟨s.completeWith_reg_same rd v, fun _ h => s.completeWith_reg_other v h⟩, rfl,
    successCompletion_complete s _ (zeroFlag v) false⟩

-- Commands.

/-- Everything a start step can give: an error completion, a success completion that writes destinations only (with ITER
counted for RHOSTEP), or RHO begun. -/
theorem exec_cases (i : Instr) (s : State) :
    (∃ e, exec i s = .next (s.raiseError e)) ∨
    (∃ l z triv, (∀ p ∈ l, p.1 ∈ i.destinations) ∧ i.countsIterations = false ∧ exec i s = .next (s.complete l z triv)) ∨
    (∃ rd ra rb rm, i = .rhostep rd ra rb rm ∧ 0 < s.reg rm ∧ s.reg ra < s.reg rm ∧ s.reg rb < s.reg rm ∧
      exec i s = .next ((s.completeRho rd ra rb (rhoIteration (s.reg ra) (s.reg rb) (s.reg rm)).1
        (rhoIteration (s.reg ra) (s.reg rb) (s.reg rm)).2.1 (rhoIteration (s.reg ra) (s.reg rb) (s.reg rm)).2.2
        (s.reg rm)).countIteration)) ∨
    (∃ rd ra rb rm, i = .rho rd ra rb rm ∧ 3 ≤ s.reg rm ∧
      exec i s = .next (s.clearIter.continueRho ⟨s.reg rm, 2, 2, 0⟩)) := by
  cases i with
  | nop => exact .inr (.inl ⟨[], false, false, by simp, rfl, rfl⟩)
  | mov rd ra => exact .inr (.inl ⟨[(rd, _)], _, _, by simp [Instr.destinations], rfl, rfl⟩)
  | ldi rd imm => exact .inr (.inl ⟨[(rd, _)], _, _, by simp [Instr.destinations], rfl, rfl⟩)
  | gcd rd ra rb => exact .inr (.inl ⟨[(rd, _)], _, _, by simp [Instr.destinations], rfl, rfl⟩)
  | rhostep rd ra rb rm =>
    simp only [exec, execRhostep]
    split
    · exact .inl ⟨_, rfl⟩
    · split
      · next h0 h =>
        simp only [isResidue, Bool.and_eq_true, decide_eq_true_eq] at h
        exact .inr (.inr (.inl ⟨rd, ra, rb, rm, rfl, by omega, h.1, h.2, rfl⟩))
      · exact .inl ⟨_, rfl⟩
  | rho rd ra rb rm =>
    simp only [exec, execRho]
    split
    · exact .inl ⟨_, rfl⟩
    · exact .inr (.inr (.inr ⟨rd, ra, rb, rm, rfl, by omega, rfl⟩))
  | reduce | modadd | modsub | modmul | modexp | modinv | montmul | tomont | frommont =>
    simp only [exec, execReduce, execModadd, execModsub, execModmul, execModexp, execModinv, execMontmul, execTomont,
      execFrommont]
    split_ifs
    all_goals
      first
        | exact .inl ⟨_, rfl⟩
        | exact .inr (.inl ⟨[(_, _)], _, _, by simp [Instr.destinations], rfl, rfl⟩)

/-- The start step of every command answers a next state. -/
theorem exec_next (i : Instr) (s : State) : ∃ t, exec i s = .next t := by
  rcases exec_cases i s with ⟨_, h⟩ | ⟨_, _, _, _, _, h⟩ | ⟨_, _, _, _, _, _, _, _, h⟩ | ⟨_, _, _, _, _, _, h⟩ <;> exact ⟨_, h⟩

/-- Everything RHO's iteration step can give (43_gcd_rho.md R222): aborted, ended by a divisor, ended by the limit, or gone
on. -/
theorem rhoIterate_cases (c : Command) (w : RhoWork) (s : State) :
    (s.abortPending = true ∧ rhoIterate c w s = s.raiseError .abort) ∨
    (s.abortPending = false ∧ (rhoIteration w.x w.y w.n).2.2 ≠ 1 ∧
      rhoIterate c w s = s.countIteration.completeRho (regOf (Fields.ofWord c.word).rd) (regOf (Fields.ofWord c.word).ra)
        (regOf (Fields.ofWord c.word).rb) (rhoIteration w.x w.y w.n).1 (rhoIteration w.x w.y w.n).2.1
        (rhoIteration w.x w.y w.n).2.2 w.n) ∨
    (s.abortPending = false ∧ (rhoIteration w.x w.y w.n).2.2 = 1 ∧ c.limit ≠ 0 ∧ w.itc + 1 = c.limit.toNat ∧
      rhoIterate c w s = s.countIteration.raiseError .limit) ∨
    (s.abortPending = false ∧ (rhoIteration w.x w.y w.n).2.2 = 1 ∧ (c.limit ≠ 0 → w.itc + 1 ≠ c.limit.toNat) ∧
      rhoIterate c w s = s.countIteration.continueRho
        ⟨w.n, (rhoIteration w.x w.y w.n).1, (rhoIteration w.x w.y w.n).2.1, w.itc + 1⟩) := by
  unfold rhoIterate
  by_cases ha : s.abortPending = true
  · exact .inl ⟨ha, by simp [ha]⟩
  · rw [Bool.not_eq_true] at ha
    by_cases hd : (rhoIteration w.x w.y w.n).2.2 = 1
    · by_cases hl : c.limit ≠ 0 ∧ w.itc + 1 = c.limit.toNat
      · exact .inr (.inr (.inl ⟨ha, hd, hl.1, hl.2, by simp only [ha, hd, if_pos hl]; simp⟩))
      · exact .inr (.inr (.inr ⟨ha, hd, fun h h' => hl ⟨h, h'⟩, by simp only [ha, hd, if_neg hl]; simp⟩))
    · exact .inr (.inl ⟨ha, hd, by simp [ha, hd]⟩)

-- The engine's turn and the machine's step.

/-- An idle engine has no step. -/
theorem engineTurn_idle {s : State} (h : s.eng = .idle) : engineTurn s = .next s := by simp [engineTurn, h]

/-- A start step of a word that spells no command. -/
theorem engineTurn_illegal {s : State} {c : Command} (he : s.eng = .busy c) (hp : c.phase = .start)
    (hd : decode c.word = none) : engineTurn s = .next (s.raiseError .illegal) := by
  simp [engineTurn, he, hp, startStep, hd]

/-- A start step of a word that spells a command. -/
theorem engineTurn_start {s : State} {c : Command} {i : Instr} (he : s.eng = .busy c) (hp : c.phase = .start)
    (hd : decode c.word = some i) : engineTurn s = exec i s := by
  simp [engineTurn, he, hp, startStep, hd]

/-- An iteration step. -/
theorem engineTurn_iterate {s : State} {c : Command} {w : RhoWork} (he : s.eng = .busy c) (hp : c.phase = .iterate w) :
    engineTurn s = .next (rhoIterate c w s) := by
  simp [engineTurn, he, hp]

/-- Where the engine moves, the step is its turn, with the listed turn taken off. -/
theorem step_engine {s : State} (h : s.EngineMoves) : step s = engineTurn s.popped := by
  rcases s with ⟨_, _, _, _, _, _, _, _, _, _, _, _, _, _, _, turns, _, _⟩
  cases turns with
  | nil => rfl
  | cons t rest =>
    rcases h with h | h
    · simp at h
    · simp at h
      subst h
      rfl

/-- Everything one step that answers a next state can be: the engine's turn, a read, a write, or a hardware reset. -/
theorem step_cases {s t : State} (h : step s = .next t) :
    (s.EngineMoves ∧ engineTurn s.popped = .next t) ∨
    (∃ off strobes p, s.turns.head? = some (.read off strobes) ∧ accessCheck s.cfg off strobes = .ok p ∧
      t = s.popped.readPlace p) ∨
    (∃ off strobes v p, s.turns.head? = some (.write off strobes v) ∧ accessCheck s.cfg off strobes = .ok p ∧
      t = (s.popped.writePlace p v).respond .ack) ∨
    (s.turns.head? = some .reset ∧ t = s.popped.toReset) := by
  rcases s with ⟨cfg, _, _, _, _, _, _, _, _, _, _, _, _, _, _, turns, _, _⟩
  cases turns with
  | nil => exact .inl ⟨.inl rfl, h⟩
  | cons u rest =>
    cases u with
    | engine => exact .inl ⟨.inr rfl, h⟩
    | read off strobes =>
      simp only [step, busRead] at h
      split at h
      · cases h
      · next p hp => cases h; exact .inr (.inl ⟨off, strobes, p, rfl, hp, rfl⟩)
    | write off strobes v =>
      simp only [step, busWrite] at h
      split at h
      · cases h
      · next p hp => cases h; exact .inr (.inr (.inl ⟨off, strobes, v, p, rfl, hp, rfl⟩))
    | reset => cases h; exact .inr (.inr (.inr ⟨rfl, rfl⟩))

/-- A step that the engine takes always answers a next state. -/
theorem engineTurn_next (s : State) : ∃ t, engineTurn s = .next t := by
  cases he : s.eng with
  | idle => exact ⟨s, engineTurn_idle he⟩
  | busy c =>
    cases hp : c.phase with
    | iterate w => exact ⟨_, engineTurn_iterate he hp⟩
    | start =>
      cases hd : decode c.word with
      | none => exact ⟨_, engineTurn_illegal he hp hd⟩
      | some i => rw [engineTurn_start he hp hd]; exact exec_next i s

end Sys2Proof.Machine
end

