-- ==== Sys2Proof/Tests/Slice0.lean ====
section
/-! SUPPORT. Tests. Expected results are the spec's own: the worked example of a command's rule, 30_encoding.md R103, or a row
of 95_test_vectors.md (derived there from the rules). The theorems named witness_<Statement> show a state and operands that meet
the hypotheses of that statement. -/

namespace Sys2Proof.Tests

open Sys2Proof Sys2Proof.Machine

/-- The reset state with some operand registers written, as 95_test_vectors.md section 0 starts a vector. -/
def started (l : List (Reg × Nat)) : State := { State.reset with regs := writeRegs State.reset.regs l }

/-- The same at another NW. -/
def startedAt (nw : Nat) (l : List (Reg × Nat)) : State := { started l with cfg := { nw := nw } }

/-- An operand register and STATUS after a step. -/
def seen (o : Host.Outcome State Fault Refusal) (r : Reg) : Option (Nat × Word) :=
  match o with
  | .next s => some (s.reg r, s.statusWord)
  | .fault _ => none
  | .refused _ => none

/-- A property of the next state, false where there is none. -/
def holds (o : Host.Outcome State Fault Refusal) (p : State → Bool) : Bool :=
  match o with
  | .next s => p s
  | .fault _ => false
  | .refused _ => false

/-- One command word, started from registers: register `r` and STATUS after the step. -/
def vec (l : List (Reg × Nat)) (w : Nat) (r : Reg) : Option (Nat × Word) := seen (step ((started l).withFetchWord 32 w)) r

/-- A command in flight, in phase Start, on registers. -/
def inFlight (l : List (Reg × Nat)) (w : Word) : State := (started l).accept w

/-- A list of turns run from a state. -/
def runTurns (s : State) (turns : List Turn) : Host.Outcome State Fault Refusal :=
  core.run turns.length { s with turns := turns }

-- WellFormed: an ill-formed term for each check, and a well-formed one of each shape.

/-- R96: opcode 0x03 is unassigned. -/
theorem smoke_opcode : (Fields.mk 0 0 0 0 0 0x03).WellFormed = false := by decide
/-- R95: RSV must be 0. -/
theorem smoke_rsv : (Fields.mk 1 2 1 0 3 0x14).WellFormed = false := by decide
/-- R94: NOP uses no field. -/
theorem smoke_unused_rd : (Fields.mk 0 0 0 0 1 0x00).WellFormed = false := by decide
/-- R94: NOP uses no RA. -/
theorem smoke_unused_ra : (Fields.mk 0 0 0 1 0 0x00).WellFormed = false := by decide
/-- R94: REDUCE does not use RB. -/
theorem smoke_unused_rb : (Fields.mk 0 2 1 0 3 0x10).WellFormed = false := by decide
/-- R94: GCD does not use RM. -/
theorem smoke_unused_rm : (Fields.mk 0 3 1 0 2 0x20).WellFormed = false := by decide
/-- R92: a used RD is below 8. -/
theorem smoke_used_rd : (Fields.mk 0 2 1 0 8 0x14).WellFormed = false := by decide
/-- R92: a used RA is below 8. -/
theorem smoke_used_ra : (Fields.mk 0 2 1 9 3 0x14).WellFormed = false := by decide
/-- R92: a used RB is below 8. -/
theorem smoke_used_rb : (Fields.mk 0 2 9 0 3 0x14).WellFormed = false := by decide
/-- R92: a used RM is below 8. -/
theorem smoke_used_rm : (Fields.mk 0 8 1 0 3 0x14).WellFormed = false := by decide
/-- LDI takes any immediate. -/
theorem smoke_ldi_imm : (Fields.mk 0 0 0xF 0xF 7 0x02).WellFormed = true := by decide
theorem smoke_legal : (Fields.mk 0 2 1 0 3 0x14).WellFormed = true := by decide

-- Decoding: words written from the encodings of 30_encoding.md R90 and R96, OP | RD<<8 | RA<<12 | RB<<16 | RM<<20.

theorem test_decode_nop : decode 0x00000000 = some .nop := by decide
/-- 40 R122's example word. -/
theorem test_decode_mov : decode 0x00001401 = some (.mov 4 1) := by decide
/-- 95 section 2.1: the largest immediate. -/
theorem test_decode_ldi : decode 0x000FF702 = some (.ldi 7 255) := by decide
theorem test_decode_reduce : decode 0x00200310 = some (.reduce 3 0 2) := by decide
/-- Every register field different: RD 1, RA 2, RB 4, RM 7. -/
theorem test_decode_modadd : decode 0x00742111 = some (.modadd 1 2 4 7) := by decide
theorem test_decode_modsub : decode 0x00210312 = some (.modsub 3 0 1 2) := by decide
/-- 95 section 2.6. -/
theorem test_decode_modmul : decode 0x00777713 = some (.modmul 7 7 7 7) := by decide
theorem test_decode_modexp : decode 0x00243514 = some (.modexp 5 3 4 2) := by decide
theorem test_decode_modinv : decode 0x00601415 = some (.modinv 4 1 6) := by decide
theorem test_decode_montmul : decode 0x00213318 = some (.montmul 3 3 1 2) := by decide
theorem test_decode_tomont : decode 0x00203319 = some (.tomont 3 3 2) := by decide
theorem test_decode_frommont : decode 0x0020341A = some (.frommont 4 3 2) := by decide
theorem test_decode_gcd : decode 0x00061220 = some (.gcd 2 1 6) := by decide
theorem test_decode_rhostep : decode 0x00210330 = some (.rhostep 3 0 1 2) := by decide
theorem test_decode_rho : decode 0x00222231 = some (.rho 2 2 2 2) := by decide
/-- 95 section 2.6: illegal words. -/
theorem test_decode_illegal :
    [0x01210314, 0x00290314, 0x00310220, 0x00000100, 0x00000003, 0x80000014, 0x00800013, 0x000000FF, 0x00141502].all
      (fun w : Word => (decode w).isNone) = true := by decide
/-- R96: no two rows of the opcode map share an opcode. -/
theorem test_rows_distinct : (opcodeTable.map OpcodeRow.op).Nodup := by decide
/-- R100: the assembler text of the example of R103. -/
theorem test_asm : asmText (.modexp 3 0 1 2) = "MODEXP r3, r0, r1, r2".toList := by decide
/-- R100: either case, a hexadecimal immediate, an immediate out of range; R101: a pseudo-instruction. -/
theorem test_readAsm : readAsm "modexp R3, r0, r1, r2".toList = some (.modexp 3 0 1 2) ∧
    readAsm "LDI r5, 0x41".toList = some (.ldi 5 0x41) ∧ readAsm "LDI r5, 256".toList = none ∧
      readAsm "FACTOR r2, r3".toList = some (.rho 2 2 2 3) := by decide
/-- 00_scope.md R1: the ISA string of the reference configuration. -/
theorem test_isaString : Config.reference.isaString = "MAE1-W64".toList := by decide
/-- R102, RREG: word 0 is least significant. -/
theorem test_assemble : assembleWords [0x00000002, 0x00000001] = 0x0000000100000002 := by decide
/-- R101: `FACTOR r2, r2` is the word of 95 section 2.5. -/
theorem test_factor : encode (.factor 2 2) = 0x00222231 := by decide

-- Commands: rows of 95_test_vectors.md, one step each, and the register and STATUS after it.

/-- R120's example: STATUS 2 and no register written. -/
theorem test_nop : vec [] 0x00000000 0 = some (0, 0x00000002) := by decide
theorem test_nop_rd1_illegal : vec [] 0x00000100 1 = some (0, 0x00000106) := by decide
theorem test_mov : vec [(1, 17)] 0x00001401 4 = some (17, 0x00000002) := by decide
theorem test_mov_zero : vec [] 0x00001401 4 = some (0, 0x00010002) := by decide
theorem test_ldi : vec [(3, 2 ^ 64 - 1)] 0x00001302 3 = some (1, 0x00000002) := by decide
theorem test_ldi_zero : vec [(3, 2 ^ 64 - 1)] 0x00000302 3 = some (0, 0x00010002) := by decide
theorem test_reduce : vec [(0, 2 ^ 64 - 1), (2, 2 ^ 64 - 59)] 0x00200310 3 = some (58, 0x00000002) := by decide
theorem test_reduce_mod0 : vec [(0, 5)] 0x00200310 3 = some (0, 0x00000206) := by decide
/-- 65-bit intermediate. -/
theorem test_modadd : vec [(0, 2 ^ 64 - 60), (1, 2 ^ 64 - 60), (2, 2 ^ 64 - 59)] 0x00210311 3
    = some (18446744073709551555, 0x00000002) := by decide
theorem test_modadd_range : vec [(0, 3233), (1, 1), (2, 3233)] 0x00210311 3 = some (0, 0x00000306) := by decide
theorem test_modsub_borrow : vec [(0, 0), (1, 1), (2, 3233)] 0x00210312 3 = some (3232, 0x00000002) := by decide
theorem test_modsub_equal : vec [(0, 5), (1, 5), (2, 3233)] 0x00210312 3 = some (0, 0x00010002) := by decide
theorem test_modmul : vec [(0, 65), (2, 3233)] 0x00200313 3 = some (992, 0x00000002) := by decide
theorem test_modmul_even : vec [(0, 17), (1, 2753), (2, 3120)] 0x00210313 3 = some (1, 0x00000002) := by decide
/-- The source's worked example. -/
theorem test_modexp : vec [(0, 65), (1, 17), (2, 3233)] 0x00210314 3 = some (2790, 0x00000002) := by decide
theorem test_modexp_zero_zero : vec [(0, 0), (1, 0), (2, 7)] 0x00210314 3 = some (1, 0x00000002) := by decide
/-- The source's worked example. -/
theorem test_modinv : vec [(1, 17), (6, 3120)] 0x00601415 4 = some (2753, 0x00000002) := by decide
theorem test_modinv_none : vec [(1, 6), (6, 3120)] 0x00601415 4 = some (0, 0x00000406) := by decide
theorem test_montmul : vec [(0, 2565), (2, 3233)] 0x00200318 3 = some (1842, 0x00000002) := by decide
theorem test_montmul_even : vec [(0, 5000), (2, 3120)] 0x00200318 3 = some (0, 0x00000206) := by decide
theorem test_tomont : vec [(0, 65), (2, 3233)] 0x00200319 3 = some (2565, 0x00000002) := by decide
/-- At W = 32 the same command gives 716. -/
theorem test_tomont_w32 : seen (step ((startedAt 1 [(0, 65), (2, 3233)]).withFetchWord 32 0x00200319)) 3
    = some (716, 0x00000002) := by decide
theorem test_frommont : vec [(3, 1842), (2, 3233)] 0x0020341A 4 = some (992, 0x00000002) := by decide
theorem test_frommont_range : vec [(0, 3233), (2, 3233)] 0x0020031A 3 = some (0, 0x00000306) := by decide
theorem test_gcd : vec [(0, 2 ^ 64 - 2), (1, 2 ^ 63)] 0x00010220 2 = some (2, 0x00000002) := by decide
theorem test_gcd_zero : vec [] 0x00010220 2 = some (0, 0x00010002) := by decide
/-- All three registers aliased: the later write wins. -/
theorem test_rhostep_aliased : vec [(0, 2), (2, 3233)] 0x00200330 0 = some (26, 0x00000002) := by decide
/-- `n = 21` gives `d = n`: TRIV. -/
theorem test_rhostep_triv : vec [(0, 2), (1, 2), (2, 21)] 0x00210330 3 = some (21, 0x00020002) := by decide
/-- RHO begins: BUSY stays 1. -/
theorem test_rho_begins : vec [(2, 3233)] 0x00210331 3 = some (0, 0x00000001) := by decide
theorem test_rho_mod : vec [(2, 2)] 0x00210331 3 = some (0, 0x00000206) := by decide

/-- RHO at its sixth iteration on 3233, from the trace of 95 section 1.3. -/
def sixth (limit : Word) : State :=
  { inFlight [(2, 3233)] 0x00210331 with
    iter := 5
    eng := .busy { word := 0x00210331, win := 0, limit := limit, phase := .iterate ⟨3233, 2529, 226, 5⟩ } }

/-- 95 section 1.3, row 6: x 968, y 279, d 53, ITER 6; and a limit of 6 loses to the success. -/
theorem test_rho_last : holds (step (sixth 6)) (fun s =>
    s.reg 0 == 968 && s.reg 1 == 279 && s.reg 3 == 53 && s.iter == 6 && s.statusWord == 0x00000002) = true := by decide
/-- 95 section 2.5: an abort while the sixth iteration is pending gives E_ABORT with ITER 5. -/
theorem test_rho_abort : holds (step { sixth 0 with abortPending := true }) (fun s =>
    s.reg 3 == 0 && s.iter == 5 && s.statusWord == 0x00000606) = true := by decide

-- The host's transactions: rows of 95_test_vectors.md section 2.7.

/-- What a read at an offset answers, with its byte strobes. -/
def readAt (s : State) (off : BitVec 12) (strobes : BitVec 4) : Option Response :=
  match step { s with turns := [.read off strobes] } with
  | .next t => some t.response
  | .fault _ => none
  | .refused _ => none

/-- The reset values at NW = 2. -/
theorem test_reset_reads : ([0x000, 0x004, 0x008, 0x00C, 0x010, 0x014, 0x018, 0x01C].map fun off => readAt State.reset off 0xF)
    = [0x4D414501, 0x00000802, 0, 0, 0, 0, 0, 0].map fun v => some (.data v) := by decide
/-- CTRL readback after 0xFFFFFFF1. -/
theorem test_ctrl_readback : holds (runTurns State.reset [wcsr .ctrl 0xFFFFFFF1]) (fun s => s.ctrlWord == 0x000000F1) = true := by
  decide
/-- Operand word order: word 0 is least significant. -/
theorem test_word_order : holds (runTurns State.reset [memWrite 0x100 0x00000055, memWrite 0x104 0xFFFFFFEA])
    (fun s => s.reg 0 == 18446743979220271189) = true := by decide
/-- Bus errors: an unmapped offset, a word beyond NW, the end of the operand region, a narrow access, a misaligned one. -/
theorem test_bus_errors : [readAt State.reset 0x020 0xF, readAt State.reset 0x108 0xF, readAt State.reset 0x900 0xF,
    readAt State.reset 0x100 0x1, readAt State.reset 0x102 0xF] = [none, none, none, none, none] := by decide
/-- ERR W1C clears ERRCODE. -/
theorem test_err_w1c : holds (runTurns { State.reset with done := true, err := true, errcode := 3 } [wcsr .status 0x4])
    (fun s => s.statusWord == 0x00000002) = true := by decide
/-- Dropped writes while RHO is in flight set OVF; the next command leaves OVF set. -/
theorem test_busy_drop : holds (runTurns (inFlight [(2, 3233)] 0x00210331) [issue .nop, memWrite 0x600 7, wcsr .rhoLimit 1])
    (fun s => s.ovf && s.cmd == 0x00210331 && s.reg 5 == 0 && s.rhoLimit == 0) = true := by decide
/-- Soft reset discards the other bits of its write. -/
theorem test_soft_reset : holds (runTurns { inFlight [(2, 3233)] 0x00210331 with ovf := true } [wcsr .ctrl 0x5])
    (fun s => s == { State.reset with response := .ack }) = true := by decide
/-- ISSUE NOP and the engine's turn with IE = 1: irq. -/
theorem test_irq : holds (runTurns State.reset [wcsr .ctrl 0x1, issue .nop, .engine])
    (fun s => s.irq && s.statusWord == 0x00000002) = true := by decide

-- Witnesses of hypotheses.

/-- Registers for the witnesses: 0, 1, the moduli 0, 1, 2, 3 and a residue pair below 3233. -/
def wit : State := started [(1, 1), (2, 3233), (3, 3232), (4, 2), (5, 3), (6, 6)]

theorem witness_WordSpellsCommandByMaskAndMatch :
    (⟨0x01, 0x00000001, 0xFFFF88FF⟩ : OpcodeRow) ∈ opcodeTable ∧ (0x00007701 : Word) &&& 0xFFFF88FF = 0x00000001 ∧
      (∀ r ∈ opcodeTable, (0x00000003 : Word) &&& r.mask ≠ r.pattern) := by decide

theorem witness_DecodeThenEncodeGivesTheWord : decode 0x000FF702 = some (.ldi 7 255) := by decide

theorem witness_WordIsLegalByItsFields :
    (Fields.ofWord 0x00290314).WellFormed = false ∧ slice 0x0000000F 7 0 = 0x0F ∧ slice 0x00000016 7 0 = 0x16 ∧
      slice 0x00000017 7 0 = 0x17 ∧ slice 0x0000001F 7 0 = 0x1F ∧ slice 0x0000002F 7 0 = 0x2F ∧
        slice 0x00000032 7 0 = 0x32 := by decide

theorem witness_StepRunsTheDecodedCommand :
    (inFlight [] 0x00001401).EngineMoves ∧ decode 0x00001401 = some (.mov 4 1) := by decide

theorem witness_StartStepCompletesOrBeginsRho :
    (inFlight [] 3).EngineMoves ∧ (inFlight [] 3).eng = .busy ⟨3, 0, 0, .start⟩ ∧ decode 3 = none ∧
      decode 0 = some .nop ∧ decode 0x00210331 = some (.rho 3 0 1 2) := by decide

theorem witness_EngineHasAStepExactlyWhileBusy :
    State.reset.EngineMoves ∧ State.reset.eng = .idle ∧ (inFlight [] 3).EngineMoves ∧ (inFlight [] 3).busy = true ∧
      ({ State.reset with turns := [.engine, .reset] } : State).EngineMoves := by decide

theorem witness_ReduceGivesRemainder : wit.reg 0 = 0 ∧ 0 < wit.reg 1 := by decide

theorem witness_ModaddGivesSumModulo : wit.reg 0 = 0 ∧ (0 < wit.reg 2 ∧ wit.reg 2 ≤ wit.reg 2) ∧
    (wit.reg 3 < wit.reg 2 ∧ wit.reg 1 < wit.reg 2) := by decide

theorem witness_ModsubGivesDifferenceModulo : wit.reg 0 = 0 ∧ (0 < wit.reg 2 ∧ wit.reg 2 ≤ wit.reg 2) ∧
    (wit.reg 3 < wit.reg 2 ∧ wit.reg 3 ≤ wit.reg 3) ∧ (wit.reg 0 < wit.reg 2 ∧ wit.reg 1 < wit.reg 2 ∧ wit.reg 0 < wit.reg 1) := by
  decide

theorem witness_ModmulGivesProductModulo : wit.reg 0 = 0 ∧ (0 < wit.reg 2 ∧ wit.reg 2 ≤ wit.reg 2) ∧
    (wit.reg 3 < wit.reg 2 ∧ wit.reg 3 < wit.reg 2) := by decide

theorem witness_ModexpGivesPowerModulo : wit.reg 0 = 0 ∧ (0 < wit.reg 2 ∧ wit.reg 2 ≤ wit.reg 2) ∧ wit.reg 3 < wit.reg 2 ∧
    wit.reg 0 < wit.reg 1 := by decide

theorem witness_ModinvGivesTheInverse : wit.reg 0 = 0 ∧ (0 < wit.reg 1 ∧ wit.reg 1 ≤ wit.reg 1) ∧
    (wit.reg 4 < wit.reg 6 ∧ Nat.gcd (wit.reg 4) (wit.reg 6) ≠ 1) ∧
    (wit.reg 0 < wit.reg 1 ∧ Nat.gcd (wit.reg 0) (wit.reg 1) = 1) := by decide

theorem witness_MontmulGivesMontgomeryProduct : wit.reg 0 % 2 = 0 ∧ wit.reg 4 % 2 = 0 ∧
    (wit.reg 1 % 2 = 1 ∧ wit.reg 1 ≤ wit.reg 1) ∧ (wit.reg 1 % 2 = 1 ∧ wit.reg 0 < wit.reg 1) ∧
    (wit.reg 2 % 2 = 1 ∧ wit.reg 3 < wit.reg 2) := by decide

theorem witness_TomontGivesMontgomeryForm : wit.reg 0 % 2 = 0 ∧ (wit.reg 1 % 2 = 1 ∧ wit.reg 1 ≤ wit.reg 1) ∧
    (wit.reg 2 % 2 = 1 ∧ wit.reg 3 < wit.reg 2) := by decide

theorem witness_FrommontLeavesMontgomeryForm : wit.reg 0 % 2 = 0 ∧ (wit.reg 1 % 2 = 1 ∧ wit.reg 1 ≤ wit.reg 1) ∧
    (wit.reg 2 % 2 = 1 ∧ wit.reg 3 < wit.reg 2 ∧ wit.reg 1 = 1 ∧ wit.reg 1 < wit.reg 2) := by decide

theorem witness_MontgomeryDomainRoundTrips : 3233 % 2 = 1 ∧ 3232 < 3233 ∧ 65 < 3233 ∧ wit.cfg = ⟨2⟩ ∧ wit.reg 2 = 3233 := by
  decide

theorem witness_WordSerialMethodGivesMontgomeryProduct :
    (started [(0, 2 ^ 64 - 60), (2, 2 ^ 64 - 59)]).reg 2 < 2 ^ (32 * 2) ∧
      (started [(0, 2 ^ 64 - 60), (2, 2 ^ 64 - 59)]).reg 2 % 2 = 1 ∧
        (started [(0, 2 ^ 64 - 60), (2, 2 ^ 64 - 59)]).reg 0 < (started [(0, 2 ^ 64 - 60), (2, 2 ^ 64 - 59)]).reg 2 := by decide

theorem witness_EveryExponentScheduleGivesModexpResult : wit.reg 3 < wit.reg 2 := by decide

theorem witness_WindowWidthChangesNoResult : (sixth 0).EngineMoves ∧ holds (step (sixth 0)) (fun _ => true) = true := by decide

theorem witness_RhostepDoesOneIteration : wit.reg 0 = 0 ∧ (0 < wit.reg 2 ∧ wit.reg 2 ≤ wit.reg 2) ∧
    (wit.reg 0 < wit.reg 1) ∧ (wit.reg 3 < wit.reg 2) := by decide

theorem witness_RhoStartsFromTwo : wit.reg 4 < 3 ∧ (inFlight [(2, 3)] 0x00210331).busy = true ∧
    3 ≤ (inFlight [(2, 3)] 0x00210331).reg 2 := by decide

/-- For each clause of the iteration step: abort, a divisor, the limit reached at its first iteration, and going on. -/
theorem witness_RhoIterationStep : (sixth 6).EngineMoves ∧ decode 0x00210331 = some (.rho 3 0 1 2) ∧
    (rhoIteration 2529 226 3233).2.2 ≠ 1 ∧ (rhoIteration 2 2 3233).2.2 = 1 ∧ (1 : Word) ≠ 0 ∧ 0 + 1 = (1 : Word).toNat ∧
      0 + 1 ≠ (2 : Word).toNat ∧ ({ sixth 6 with abortPending := true } : State).abortPending = true := by decide

/-- A state of RHO after one iteration on 3233, with the limit 2. -/
def second : State :=
  { inFlight [(2, 3233)] 0x00210331 with
    iter := 1
    eng := .busy { word := 0x00210331, win := 0, limit := 2, phase := .iterate ⟨3233, 5, 26, 1⟩ } }

theorem second_rhoTrace : RhoTrace second := by
  intro c w he hp
  cases he
  cases hp
  exact ⟨⟨3, 0, 1, 2, by decide⟩, by decide, by decide, by decide, by decide⟩

theorem second_valuesInRange : ValuesInRange second := by
  refine ⟨by decide, ?_⟩
  intro c w he hp
  cases he
  cases hp
  decide

theorem second_statusCoherent : StatusCoherent second :=
  ⟨by decide, by decide, by decide, by decide, by decide⟩

theorem second_commandCoherent : CommandCoherent second := by
  refine ⟨by decide, ?_⟩
  intro c he
  cases he
  rfl

theorem witness_RhoLimitEndsAfterThatManyIterations : RhoTrace second ∧ second.EngineMoves ∧
    holds (step second) (fun t => t.eng == .idle && t.errcode == 5) = true :=
  ⟨second_rhoTrace, by decide, by decide⟩

theorem witness_RhoDivisorDividesModulus :
    holds (exec (.rhostep 3 0 0 1) wit) (fun t => !t.err) = true ∧ (sixth 0).EngineMoves ∧
      decode 0x00210331 = some (.rho 3 0 1 2) ∧ holds (step (sixth 0)) (fun t => t.eng == .idle && !t.err) = true := by decide

theorem witness_RhoAlwaysCompletes : (inFlight [(2, 3)] 0x00210331).turns = [] ∧
    (inFlight [(2, 3)] 0x00210331).eng = .busy ⟨0x00210331, 0, 0, .start⟩ ∧ decode 0x00210331 = some (.rho 3 0 1 2) ∧
      (inFlight [(2, 3)] 0x00210331).abortPending = false ∧ 3 ≤ (inFlight [(2, 3)] 0x00210331).reg 2 := by decide

theorem witness_CmdWriteIssuesOrIsDropped : State.reset.eng = .idle ∧ second.busy = true := by decide

theorem witness_AccessesWhileBusy : second.cfg.Valid ∧ second.busy = true ∧ 1 < second.cfg.nw := by decide

theorem witness_IdAndCfgAreConstants : (startedAt 1 []).cfg.Valid ∧ (startedAt 64 []).cfg.Valid := by decide

/-- The clauses of CTRL: no abort, an abort while idle, an abort of RHO, and SRST. -/
theorem witness_CtrlHoldsIeAndWin : (0xFFFFFFF9 : Word).getLsbD 2 = false ∧ (0xFFFFFFF9 : Word).getLsbD 1 = false ∧
    (0x2 : Word).getLsbD 1 = true ∧ State.reset.busy = false ∧ slice 0x00210331 7 0 = 0x31 ∧
      slice (0x00210330 : Word) 7 0 ≠ 0x31 ∧ (0x4 : Word).getLsbD 2 = true := by decide

theorem witness_IterAndRhoLimitRegisters : State.reset.eng = .idle := by decide

theorem witness_ResetLeavesTheResetState : (0x5 : Word).getLsbD 2 = true := by decide

theorem witness_OperandWordsInTheWindow : (startedAt 64 []).cfg.Valid ∧ (startedAt 64 []).eng = .idle ∧
    63 < (startedAt 64 []).cfg.nw ∧ 0 < (startedAt 1 []).cfg.nw := by decide

theorem witness_WregWritesTheWholeRegister : wit.cfg.Valid ∧ wit.eng = .idle ∧ wit.reg 3 < 2 ^ (32 * 2) ∧
    2 ^ 64 - 1 < 2 ^ (32 * wit.cfg.nw) := by decide

theorem witness_ReadsHaveNoSideEffect :
    holds (step { second with turns := [.read 0x500 0xF] }) (fun t => t.turns == []) = true ∧
      holds (step { wit with turns := [.read 0x304 0xF] }) (fun t => t.response == .data 0) = true := by decide

theorem witness_IrqFollowsIeAndDone :
    (sixth 0).EngineMoves ∧ (sixth 0).busy = true ∧ holds (step (sixth 0)) (fun t => t.eng == .idle) = true ∧
      (0x9 : Word).getLsbD 2 = false ∧ holds (step { second with turns := [.write 0x008 0xF 0x9] }) (fun _ => true) = true ∧
        holds (step { second with turns := [.write 0x00C 0xF 0x2] }) (fun _ => true) = true ∧
          holds (step { wit with turns := [.write 0x010 0xF 0] }) (fun t => t.busy) = true ∧
            holds (step { wit with turns := [.reset] }) (fun _ => true) = true := by decide

theorem witness_IssuedCommandRuns : wit.eng = .idle := by decide

/-- One poll for MODADD and for RHO with a modulus below 3, and two polls, at most `n + 1`, for RHO with `n = 3`. -/
theorem witness_ExecMacroEnds : wit.eng = .idle ∧
    holds (runTurns wit (execMacro (.modadd 0 3 1 2) 1)) (fun t => t.eng == .idle) = true ∧
      holds (runTurns wit (execMacro (.rho 7 0 1 4) 1)) (fun t => t.eng == .idle && t.errcode == 2) = true ∧
        holds (runTurns wit (execMacro (.rho 7 0 1 5) 2))
          (fun t => t.eng == .idle && t.reg 7 == 3 && t.response == .data 0x20002) = true ∧ 2 ≤ wit.reg 5 + 1 := by decide

theorem witness_CommandChangesOnlyItsDestinations :
    holds (exec (.modadd 0 3 1 2) wit) (fun t => !t.err) = true ∧ (7 : Reg) ∉ (Instr.modadd 0 3 1 2).destinations ∧
      (Instr.modadd 0 3 1 2).countsIterations = false := by decide

/-- A register changed by each of the three causes: a success, a host write while idle, a reset. -/
theorem witness_OperandRegistersChangeOnlyAsStated : RhoTrace State.reset ∧
    holds (step (inFlight [] 0x00041502)) (fun t => t.reg 5 != 0) = true ∧
      holds (step { State.reset with turns := [.write 0x804 0xF 1] }) (fun t => t.reg 7 != 0) = true ∧
        holds (step { wit with turns := [.reset] }) (fun t => t.reg 2 != wit.reg 2) = true := by
  refine ⟨?_, by decide, by decide, by decide⟩
  intro c w he
  cases he

theorem witness_ErrorsLeaveOperandsUnchanged : second.EngineMoves ∧ holds (step second) (fun t => t.err) = true ∧
    holds (step { second with turns := [issue .nop] }) (fun t => t.busy) = true := by decide

theorem witness_IterCountsOnlyRhoIterations : RhoTrace second ∧ holds (step second) (fun t => t.iter != second.iter) = true ∧
    holds (step (inFlight [(0, 2), (2, 3233)] 0x00200330)) (fun t => t.iter == 1) = true :=
  ⟨second_rhoTrace, by decide, by decide⟩

theorem witness_OvfIsSticky :
    (second.ovf = false ∧ holds (step { second with turns := [issue .nop] }) (fun t => t.ovf) = true) ∧
      holds (step { second with ovf := true, turns := [.write 0x00C 0xF 0x8] }) (fun t => !t.ovf) = true := by decide

theorem witness_StepKeepsValuesInRange : second.cfg.Valid ∧ ValuesInRange second ∧ holds (step second) (fun _ => true) = true :=
  ⟨by decide, second_valuesInRange, by decide⟩

theorem witness_StepKeepsStatusCoherent : StatusCoherent second ∧ holds (step second) (fun _ => true) = true :=
  ⟨second_statusCoherent, by decide⟩

theorem witness_StepKeepsCommandCoherent : CommandCoherent second ∧
    holds (step { second with turns := [.write 0x008 0xF 0x2] }) (fun t => t.abortPending) = true :=
  ⟨second_commandCoherent, by decide⟩

theorem witness_StepKeepsRhoTrace : RhoTrace second ∧ holds (step second) (fun _ => true) = true :=
  ⟨second_rhoTrace, by decide⟩

theorem witness_EveryRunEndsOnceTheHostIsDone : second.turns = [] ∧ RhoTrace second ∧ ValuesInRange second :=
  ⟨rfl, second_rhoTrace, second_valuesInRange⟩

theorem witness_StepKeepsConfiguration : holds (step second) (fun _ => true) = true := by decide

end Sys2Proof.Tests
end

/-! The family of 00_scope.md: no step changes the configuration (R5, R7), and no result wraps (R9). -/

namespace Sys2Proof.Machine

section
/-! What the engine keeps: the configuration and whatever only the host sets. -/

/-- Everything the engine's turn can be: no step while idle, an illegal word, a command's start step, or an iteration step. -/
theorem engineTurn_cases {s t : State} (h : engineTurn s = .next t) :
    (s.eng = .idle ∧ t = s) ∨
    (∃ c, s.eng = .busy c ∧ c.phase = .start ∧ decode c.word = none ∧ t = s.raiseError .illegal) ∨
    (∃ c i, s.eng = .busy c ∧ c.phase = .start ∧ decode c.word = some i ∧ exec i s = .next t) ∨
    (∃ c w, s.eng = .busy c ∧ c.phase = .iterate w ∧ t = rhoIterate c w s) := by
  cases he : s.eng with
  | idle =>
    rw [engineTurn_idle he] at h
    cases h
    exact .inl ⟨rfl, rfl⟩
  | busy c =>
    cases hp : c.phase with
    | iterate w =>
      rw [engineTurn_iterate he hp] at h
      cases h
      exact .inr (.inr (.inr ⟨c, w, rfl, hp, rfl⟩))
    | start =>
      cases hd : decode c.word with
      | none =>
        rw [engineTurn_illegal he hp hd] at h
        cases h
        exact .inr (.inl ⟨c, rfl, hp, hd, rfl⟩)
      | some i =>
        rw [engineTurn_start he hp hd] at h
        exact .inr (.inr (.inl ⟨c, i, rfl, hp, hd, h⟩))

theorem EngineKeeps.refl (s : State) : EngineKeeps s s := ⟨rfl, rfl, rfl, rfl, rfl, rfl, rfl, rfl, rfl⟩

theorem EngineKeeps.trans {s t u : State} (h : EngineKeeps s t) (k : EngineKeeps t u) : EngineKeeps s u :=
  ⟨k.cfg.trans h.cfg, k.ie.trans h.ie, k.win.trans h.win, k.ovf.trans h.ovf, k.cmd.trans h.cmd,
    k.rhoLimit.trans h.rhoLimit, k.turns.trans h.turns, k.response.trans h.response, k.draws.trans h.draws⟩

theorem engineKeeps_raiseError (s : State) (e : ErrorCode) : EngineKeeps s (s.raiseError e) :=
  (errorCompletion_raiseError s e).keeps

theorem engineKeeps_complete (s : State) (l : List (Reg × Nat)) (z triv : Bool) : EngineKeeps s (s.complete l z triv) :=
  (successCompletion_complete s l z triv).keeps

theorem engineKeeps_countIteration (s : State) : EngineKeeps s s.countIteration :=
  ⟨rfl, rfl, rfl, rfl, rfl, rfl, rfl, rfl, rfl⟩

theorem engineKeeps_clearIter (s : State) : EngineKeeps s s.clearIter := ⟨rfl, rfl, rfl, rfl, rfl, rfl, rfl, rfl, rfl⟩

theorem engineKeeps_continueRho (s : State) (w : RhoWork) : EngineKeeps s (s.continueRho w) :=
  ⟨rfl, rfl, rfl, rfl, rfl, rfl, rfl, rfl, rfl⟩

/-- The start step of a command keeps what only the host sets. -/
theorem exec_keeps {i : Instr} {s t : State} (h : exec i s = .next t) : EngineKeeps s t := by
  rcases exec_cases i s with ⟨e, hx⟩ | ⟨l, z, triv, _, _, hx⟩ | ⟨rd, ra, rb, rm, _, _, _, _, hx⟩ | ⟨_, _, _, _, _, _, hx⟩ <;>
    (rw [hx] at h; cases h)
  · exact engineKeeps_raiseError s e
  · exact engineKeeps_complete s l z triv
  · exact (engineKeeps_complete s _ _ _).trans (engineKeeps_countIteration _)
  · exact (engineKeeps_clearIter s).trans (engineKeeps_continueRho _ _)

/-- RHO's iteration step keeps what only the host sets. -/
theorem rhoIterate_keeps (c : Command) (w : RhoWork) (s : State) : EngineKeeps s (rhoIterate c w s) := by
  rcases rhoIterate_cases c w s with ⟨_, h⟩ | ⟨_, _, h⟩ | ⟨_, _, _, _, h⟩ | ⟨_, _, _, h⟩ <;> rw [h]
  · exact engineKeeps_raiseError s _
  · exact (engineKeeps_countIteration s).trans (engineKeeps_complete _ _ _ _)
  · exact (engineKeeps_countIteration s).trans (engineKeeps_raiseError _ _)
  · exact (engineKeeps_countIteration s).trans (engineKeeps_continueRho _ _)

/-- The engine's turn keeps what only the host sets. -/
theorem engineTurn_keeps {s t : State} (h : engineTurn s = .next t) : EngineKeeps s t := by
  rcases engineTurn_cases h with ⟨_, rfl⟩ | ⟨_, _, _, _, rfl⟩ | ⟨_, _, _, _, _, hx⟩ | ⟨c, w, _, _, rfl⟩
  · exact .refl _
  · exact engineKeeps_raiseError s _
  · exact exec_keeps hx
  · exact rhoIterate_keeps c w s

end

section
/-! What the host's turns keep. -/

@[simp] theorem State.popped_cfg (s : State) : s.popped.cfg = s.cfg := rfl
@[simp] theorem State.popped_regs (s : State) : s.popped.regs = s.regs := rfl
@[simp] theorem State.popped_eng (s : State) : s.popped.eng = s.eng := rfl

/-- A read changes neither the configuration nor a register nor the engine (20_memory.md R71). -/
theorem State.readPlace_keeps (s : State) (p : Place) :
    (s.readPlace p).cfg = s.cfg ∧ (s.readPlace p).regs = s.regs ∧ (s.readPlace p).eng = s.eng := by
  cases p <;> simp only [State.readPlace]
  case operand r w => split <;> simp
  all_goals simp

/-- Everything a write to CTRL can do to the configuration, the registers and the engine: reset, or nothing. -/
theorem State.writeCtrl_cases (s : State) (v : Word) :
    s.writeCtrl v = s.toReset ∨
      (s.writeCtrl v).cfg = s.cfg ∧ (s.writeCtrl v).regs = s.regs ∧ (s.writeCtrl v).eng = s.eng := by
  unfold State.writeCtrl
  split
  · exact .inl rfl
  · right
    dsimp only
    split <;> simp

/-- Everything a host write can do to the configuration, the registers and the engine: nothing, reset, acceptance, or one
operand word written. -/
theorem State.writePlace_cases (s : State) (p : Place) (v : Word) :
    ((s.writePlace p v).cfg = s.cfg ∧ (s.writePlace p v).regs = s.regs ∧ (s.writePlace p v).eng = s.eng) ∨
    s.writePlace p v = s.toReset ∨
    s.writePlace p v = s.accept v ∨
    (∃ r w, p = .operand r w ∧ s.writePlace p v = s.setReg r (setOperandWord (s.reg r) w v)) := by
  cases p with
  | id | cfg | iterLo | iterHi | status => exact .inl ⟨rfl, rfl, rfl⟩
  | ctrl => exact (s.writeCtrl_cases v).elim (fun h => .inr (.inl h)) .inl
  | cmd =>
    simp only [State.writePlace]
    split
    · exact .inl ⟨rfl, rfl, rfl⟩
    · exact .inr (.inr (.inl rfl))
  | rhoLimit =>
    simp only [State.writePlace]
    split <;> exact .inl ⟨rfl, rfl, rfl⟩
  | operand r w =>
    simp only [State.writePlace]
    split
    · exact .inl ⟨rfl, rfl, rfl⟩
    · exact .inr (.inr (.inr ⟨r, w, rfl, rfl⟩))

/-- No host write changes the configuration (00_scope.md R5). -/
theorem State.writePlace_cfg (s : State) (p : Place) (v : Word) : (s.writePlace p v).cfg = s.cfg := by
  rcases s.writePlace_cases p v with ⟨h, _, _⟩ | h | h | ⟨_, _, _, h⟩
  · exact h
  all_goals simp [h]

end

/-- Settles O58: the engine keeps the configuration, and so does each turn of the host. -/
theorem stepKeepsConfiguration : Obligations.StepKeepsConfiguration := by
  intro s t h
  rcases step_cases h with ⟨_, ht⟩ | ⟨_, _, p, _, _, rfl⟩ | ⟨_, _, v, p, _, _, rfl⟩ | ⟨_, rfl⟩
  · exact (engineTurn_keeps ht).cfg
  · exact (s.popped.readPlace_keeps p).1
  · exact s.popped.writePlace_cfg p v
  · rfl

section
/-! The commands with a modulus answer an error or a residue (41_modular_arith.md R140, R141, 42_montgomery.md R181). -/

/-- The outcome of a command with a modulus: an error, or a value below the modulus in its one destination. -/
def EndsWithResidue (s : State) (rd rm : Reg) (o : Host.Outcome State Fault Refusal) : Prop :=
  (∃ e, o = .next (s.raiseError e)) ∨ ∃ v, v < s.reg rm ∧ o = .next (s.completeWith rd v)

variable {s : State} {rd rm : Reg} {o : Host.Outcome State Fault Refusal}

/-- A residue written. -/
theorem EndsWithResidue.write {v : Nat} (h : v < s.reg rm) : EndsWithResidue s rd rm (.next (s.completeWith rd v)) :=
  .inr ⟨v, h, rfl⟩

/-- A check that raises an error where it fails. -/
theorem EndsWithResidue.errorUnless {p : Prop} [Decidable p] {e : ErrorCode} (h : p → EndsWithResidue s rd rm o) :
    EndsWithResidue s rd rm (if p then o else .next (s.raiseError e)) := by
  split
  · next hp => exact h hp
  · exact .inl ⟨e, rfl⟩

/-- A check that raises an error where it finds a bad modulus. -/
theorem EndsWithResidue.errorIf {p : Prop} [Decidable p] {e : ErrorCode} (h : ¬ p → EndsWithResidue s rd rm o) :
    EndsWithResidue s rd rm (if p then .next (s.raiseError e) else o) := by
  split
  · exact .inl ⟨e, rfl⟩
  · next hp => exact h hp

/-- A modulus that is not 0 has its remainders below it. -/
theorem mod_lt_of_ne_zero {n : Nat} (h : ¬ n = 0) (v : Nat) : v % n < n := Nat.mod_lt v (Nat.pos_of_ne_zero h)

/-- An odd modulus has its remainders below it. -/
theorem mod_lt_of_odd {n : Nat} (h : ¬ n % 2 = 0) (v : Nat) : v % n < n := Nat.mod_lt v (by omega)

/-- MODSUB's difference is a residue (41_modular_arith.md R146). -/
theorem modsub_lt {a b n : Nat} (h : (isResidue a n && isResidue b n) = true) :
    (if b ≤ a then a - b else a + n - b) < n := by
  simp only [isResidue, Bool.and_eq_true, decide_eq_true_eq] at h
  split <;> omega

theorem execReduce_residue (ra : Reg) : EndsWithResidue s rd rm (execReduce rd ra rm s) :=
  .errorIf fun hn => .write (mod_lt_of_ne_zero hn _)

theorem execModadd_residue (ra rb : Reg) : EndsWithResidue s rd rm (execModadd rd ra rb rm s) :=
  .errorIf fun hn => .errorUnless fun _ => .write (mod_lt_of_ne_zero hn _)

theorem execModsub_residue (ra rb : Reg) : EndsWithResidue s rd rm (execModsub rd ra rb rm s) :=
  .errorIf fun _ => .errorUnless fun hres => .write (modsub_lt hres)

theorem execModmul_residue (ra rb : Reg) : EndsWithResidue s rd rm (execModmul rd ra rb rm s) :=
  .errorIf fun hn => .errorUnless fun _ => .write (mod_lt_of_ne_zero hn _)

theorem execModexp_residue (ra rb : Reg) : EndsWithResidue s rd rm (execModexp rd ra rb rm s) :=
  .errorIf fun hn => .errorUnless fun _ => .write (modPow_eq _ _ _ ▸ mod_lt_of_ne_zero hn _)

theorem execModinv_residue (ra : Reg) : EndsWithResidue s rd rm (execModinv rd ra rm s) :=
  .errorIf fun _ => .errorUnless fun hres => .errorUnless fun hg => .write (modInv_spec (of_decide_eq_true hres) hg).1

theorem execMontmul_residue (ra rb : Reg) : EndsWithResidue s rd rm (execMontmul rd ra rb rm s) :=
  .errorIf fun hn => .errorUnless fun _ => .write (mod_lt_of_odd hn _)

theorem execTomont_residue (ra : Reg) : EndsWithResidue s rd rm (execTomont rd ra rm s) :=
  .errorIf fun hn => .errorUnless fun _ => .write (mod_lt_of_odd hn _)

theorem execFrommont_residue (ra : Reg) : EndsWithResidue s rd rm (execFrommont rd ra rm s) :=
  .errorIf fun hn => .errorUnless fun _ => .write (mod_lt_of_odd hn _)

end

namespace ValuesInRange

section
/-! Each operation on the state keeps the values in range. -/

variable {s t : State}

/-- Only the configuration, the registers and the engine bear on the range of the values. -/
theorem congr (hs : ValuesInRange s) (hcfg : t.cfg = s.cfg) (hregs : t.regs = s.regs) (heng : t.eng = s.eng) :
    ValuesInRange t :=
  ⟨fun r => by rw [State.reg_congr hregs, hcfg]; exact hs.regs r, by rw [hcfg, heng]; exact hs.rho⟩

/-- An idle engine has no working values. -/
theorem of_idle (hcfg : t.cfg = s.cfg) (hregs : ∀ r, t.reg r < 2 ^ s.cfg.width) (heng : t.eng = .idle) :
    ValuesInRange t :=
  ⟨by rwa [hcfg], fun c w he => by rw [heng] at he; cases he⟩

theorem raiseError (hs : ValuesInRange s) (e : ErrorCode) : ValuesInRange (s.raiseError e) :=
  of_idle (s := s) rfl hs.regs rfl

/-- A success completion whose values are all below `2^W`. -/
theorem complete (hs : ValuesInRange s) {l : List (Reg × Nat)} (hl : ∀ p ∈ l, p.2 < 2 ^ s.cfg.width) (z triv : Bool) :
    ValuesInRange (s.complete l z triv) := by
  refine of_idle (s := s) rfl (fun q => ?_) rfl
  rw [State.reg, State.complete_regs]
  rcases writeRegs_mem l s.regs q with h | h
  · rw [h]
    exact hs.regs q
  · exact hl _ h

theorem completeWith (hs : ValuesInRange s) (rd : Reg) {v : Nat} (hv : v < 2 ^ s.cfg.width) :
    ValuesInRange (s.completeWith rd v) :=
  hs.complete (by simpa using hv) _ _

/-- The rho commands write two residues and a divisor of a modulus that is in range. -/
theorem completeRho (hs : ValuesInRange s) (rd ra rb : Reg) {n : Nat} (hpos : 0 < n) (hn : n < 2 ^ s.cfg.width)
    (x y : Nat) : ValuesInRange (s.completeRho rd ra rb (rhoIteration x y n).1 (rhoIteration x y n).2.1
      (rhoIteration x y n).2.2 n) := by
  obtain ⟨hx, hy, _, _, hd, _⟩ := rhoIteration_spec hpos x y
  refine hs.complete (fun p hp => ?_) _ _
  simp only [List.mem_cons, List.not_mem_nil, or_false] at hp
  rcases hp with rfl | rfl | rfl
  · rw [hx]
    exact (rhoG_lt hpos x).trans hn
  · rw [hy]
    exact (rhoG_lt hpos _).trans hn
  · exact hd.trans_lt hn

theorem countIteration (hs : ValuesInRange s) : ValuesInRange s.countIteration := hs.congr rfl rfl rfl

theorem clearIter (hs : ValuesInRange s) : ValuesInRange s.clearIter := hs.congr rfl rfl rfl

/-- RHO goes on with residues of a modulus that is in range. -/
theorem continueRho (hs : ValuesInRange s) {w : RhoWork} (h3 : 3 ≤ w.n) (hn : w.n < 2 ^ s.cfg.width) (hx : w.x < w.n)
    (hy : w.y < w.n) : ValuesInRange (s.continueRho w) := by
  refine ⟨hs.regs, fun c u he hp => ?_⟩
  cases he
  cases hp
  exact ⟨h3, hn, hx, hy⟩

/-- Acceptance puts a command in phase Start, which has no working values. -/
theorem accept (hs : ValuesInRange s) (v : Word) : ValuesInRange (s.accept v) := by
  refine ⟨hs.regs, fun c w he hp => ?_⟩
  cases he
  cases hp

theorem setReg (hs : ValuesInRange s) (r : Reg) {v : Nat} (hv : v < 2 ^ s.cfg.width) : ValuesInRange (s.setReg r v) := by
  refine ⟨fun q => ?_, hs.rho⟩
  by_cases hq : q = r
  · subst hq
    rwa [State.setReg_reg_same]
  · rw [State.setReg_reg_other s v hq]
    exact hs.regs q

/-- Reset leaves every register 0 and the engine idle (10_state.md R54). -/
theorem toReset (s : State) : ValuesInRange s.toReset := by
  refine of_idle (s := s) rfl (fun r => ?_) rfl
  have h0 : s.toReset.reg r = 0 := by rw [State.reg, State.toReset_regs]; revert r; decide
  rw [h0]
  exact Nat.two_pow_pos _

end

section
/-! Each turn keeps the values in range. -/

variable {s t : State}

/-- LDI's immediate fits in a register of at least one word (30_encoding.md R93). -/
theorem zextImm_lt {cfg : Config} (hcfg : cfg.Valid) (imm : BitVec 8) : zextImm imm < 2 ^ cfg.width :=
  calc zextImm imm < 2 ^ 8 := imm.isLt
    _ ≤ 2 ^ cfg.width := Nat.pow_le_pow_right (by decide) (by have := hcfg.1; unfold Config.width; omega)

/-- A gcd is below a bound that both operands are below, 0 and 0 included (00_scope.md R10). -/
theorem gcd_lt {a b m : Nat} (ha : a < m) (hb : b < m) : Nat.gcd a b < m := by
  rcases Nat.eq_zero_or_pos a with rfl | hpos
  · rwa [Nat.gcd_zero_left]
  · exact (Nat.gcd_le_left b hpos).trans_lt ha

/-- A command that ends with an error or a residue of a register's value keeps the values in range. -/
theorem of_endsWithResidue (hs : ValuesInRange s) {rd rm : Reg} {o : Host.Outcome State Fault Refusal}
    (ho : EndsWithResidue s rd rm o) (h : o = .next t) : ValuesInRange t := by
  rcases ho with ⟨e, rfl⟩ | ⟨v, hv, rfl⟩ <;> cases h
  · exact hs.raiseError e
  · exact hs.completeWith rd (hv.trans (hs.regs rm))

theorem execRhostep (hs : ValuesInRange s) {rd ra rb rm : Reg} (h : exec (.rhostep rd ra rb rm) s = .next t) :
    ValuesInRange t := by
  simp only [exec, Machine.execRhostep] at h
  split_ifs at h with hn hres <;> cases h
  · exact hs.raiseError _
  · exact (hs.completeRho rd ra rb (Nat.pos_of_ne_zero hn) (hs.regs rm) _ _).countIteration
  · exact hs.raiseError _

theorem execRho (hs : ValuesInRange s) {rd ra rb rm : Reg} (h : exec (.rho rd ra rb rm) s = .next t) :
    ValuesInRange t := by
  simp only [exec, Machine.execRho] at h
  split_ifs at h with hn <;> cases h
  · exact hs.raiseError _
  · have h2 : 2 < s.reg rm := Nat.lt_of_succ_le (Nat.le_of_not_lt hn)
    exact hs.clearIter.continueRho h2 (hs.regs rm) h2 h2

/-- The start step of every command keeps the values in range (00_scope.md R9). -/
theorem exec (hs : ValuesInRange s) (hcfg : s.cfg.Valid) {i : Instr} (h : exec i s = .next t) : ValuesInRange t := by
  cases i with
  | nop => cases h; exact hs.complete (by simp) _ _
  | mov rd ra => cases h; exact hs.completeWith rd (hs.regs ra)
  | ldi rd imm => cases h; exact hs.completeWith rd (zextImm_lt hcfg imm)
  | gcd rd ra rb => cases h; exact hs.completeWith rd (gcd_lt (hs.regs ra) (hs.regs rb))
  | reduce rd ra rm => exact hs.of_endsWithResidue (execReduce_residue ra) h
  | modadd rd ra rb rm => exact hs.of_endsWithResidue (execModadd_residue ra rb) h
  | modsub rd ra rb rm => exact hs.of_endsWithResidue (execModsub_residue ra rb) h
  | modmul rd ra rb rm => exact hs.of_endsWithResidue (execModmul_residue ra rb) h
  | modexp rd ra rb rm => exact hs.of_endsWithResidue (execModexp_residue ra rb) h
  | modinv rd ra rm => exact hs.of_endsWithResidue (execModinv_residue ra) h
  | montmul rd ra rb rm => exact hs.of_endsWithResidue (execMontmul_residue ra rb) h
  | tomont rd ra rm => exact hs.of_endsWithResidue (execTomont_residue ra) h
  | frommont rd ra rm => exact hs.of_endsWithResidue (execFrommont_residue ra) h
  | rhostep rd ra rb rm => exact hs.execRhostep h
  | rho rd ra rb rm => exact hs.execRho h

/-- RHO's iteration step keeps the values in range: the new tortoise and hare are residues of the same modulus. -/
theorem rhoIterate (hs : ValuesInRange s) {c : Command} {w : RhoWork} (he : s.eng = .busy c) (hp : c.phase = .iterate w) :
    ValuesInRange (rhoIterate c w s) := by
  obtain ⟨h3, hn, _, _⟩ := hs.rho c w he hp
  have hpos : 0 < w.n := by omega
  obtain ⟨hx, hy, _⟩ := rhoIteration_spec hpos w.x w.y
  rcases rhoIterate_cases c w s with ⟨_, h⟩ | ⟨_, _, h⟩ | ⟨_, _, _, _, h⟩ | ⟨_, _, _, h⟩ <;> rw [h]
  · exact hs.raiseError _
  · exact hs.countIteration.completeRho _ _ _ hpos hn w.x w.y
  · exact hs.countIteration.raiseError _
  · exact hs.countIteration.continueRho h3 hn (hx ▸ rhoG_lt hpos _) (hy ▸ rhoG_lt hpos _)

/-- The engine's turn keeps the values in range. -/
theorem engineTurn (hs : ValuesInRange s) (hcfg : s.cfg.Valid) (h : engineTurn s = .next t) : ValuesInRange t := by
  rcases engineTurn_cases h with ⟨_, rfl⟩ | ⟨_, _, _, _, rfl⟩ | ⟨_, _, _, _, _, hx⟩ | ⟨_, _, he, hp, rfl⟩
  · exact hs
  · exact hs.raiseError _
  · exact hs.exec hcfg hx
  · exact hs.rhoIterate he hp

theorem readPlace (hs : ValuesInRange s) (p : Place) : ValuesInRange (s.readPlace p) := by
  obtain ⟨hcfg, hregs, heng⟩ := s.readPlace_keeps p
  exact hs.congr hcfg hregs heng

/-- A host write to a word of the configuration keeps the values in range (20_memory.md R66). -/
theorem writePlace (hs : ValuesInRange s) {p : Place} (hw : ∀ r w, p = .operand r w → w < s.cfg.nw) (v : Word) :
    ValuesInRange (s.writePlace p v) := by
  rcases s.writePlace_cases p v with ⟨hcfg, hregs, heng⟩ | h | h | ⟨r, w, hp, h⟩
  · exact hs.congr hcfg hregs heng
  · exact h ▸ toReset s
  · exact h ▸ hs.accept v
  · exact h ▸ hs.setReg r (setOperandWord_lt v (hs.regs r) (hw r w hp))

end

end ValuesInRange

/-- Settles O53: a residue, a gcd and an operand word all stay below `2^W`, and RHO goes on with residues only. -/
theorem stepKeepsValuesInRange : Obligations.StepKeepsValuesInRange := by
  intro s t hcfg hs h
  have hpop : ValuesInRange s.popped := hs.congr rfl rfl rfl
  rcases step_cases h with ⟨_, ht⟩ | ⟨_, _, p, _, _, rfl⟩ | ⟨_, _, v, p, _, hacc, rfl⟩ | ⟨_, rfl⟩
  · exact hpop.engineTurn hcfg ht
  · exact hpop.readPlace p
  · obtain ⟨_, _, hplace⟩ := accessCheck_place hacc
    have hw : ∀ r w, p = .operand r w → w < s.cfg.nw := fun r w hp => lt_nw_of_placeAt (hp ▸ hplace)
    exact (hpop.writePlace hw v).congr rfl rfl rfl
  · exact .toReset _

end Sys2Proof.Machine

/-! The family of 10_state.md: what a step can do to each item of the state, said once, and the statements that follow. -/

namespace Sys2Proof.Laws

section
/-! The decoder answers a command only for that command's own fields (30_encoding.md R97). -/

variable {f : Fields} {i : Instr}

theorem decodeDA_eq_some {mk : Reg → Reg → Instr} (h : decodeDA f mk = some i) :
    ∃ d a, i = mk d a ∧ f.rd = regField d ∧ f.ra = regField a ∧ f.rb = 0 ∧ f.rm = 0 := by
  unfold decodeDA at h
  split at h
  · next d a hd ha =>
    split_ifs at h with h0
    cases h
    exact ⟨d, a, rfl, regOf?_eq_some.mp hd, regOf?_eq_some.mp ha, h0⟩
  · cases h

theorem decodeDI_eq_some {mk : Reg → BitVec 8 → Instr} (h : decodeDI f mk = some i) :
    ∃ d, i = mk d (f.rb ++ f.ra) ∧ f.rd = regField d ∧ f.rm = 0 := by
  unfold decodeDI at h
  split at h
  · next d hd =>
    split_ifs at h with h0
    cases h
    exact ⟨d, rfl, regOf?_eq_some.mp hd, h0⟩
  · cases h

theorem decodeDAM_eq_some {mk : Reg → Reg → Reg → Instr} (h : decodeDAM f mk = some i) :
    ∃ d a m, i = mk d a m ∧ f.rd = regField d ∧ f.ra = regField a ∧ f.rb = 0 ∧ f.rm = regField m := by
  unfold decodeDAM at h
  split at h
  · next d a m hd ha hm =>
    split_ifs at h with h0
    cases h
    exact ⟨d, a, m, rfl, regOf?_eq_some.mp hd, regOf?_eq_some.mp ha, h0, regOf?_eq_some.mp hm⟩
  · cases h

theorem decodeDAB_eq_some {mk : Reg → Reg → Reg → Instr} (h : decodeDAB f mk = some i) :
    ∃ d a b, i = mk d a b ∧ f.rd = regField d ∧ f.ra = regField a ∧ f.rb = regField b ∧ f.rm = 0 := by
  unfold decodeDAB at h
  split at h
  · next d a b hd ha hb =>
    split_ifs at h with h0
    cases h
    exact ⟨d, a, b, rfl, regOf?_eq_some.mp hd, regOf?_eq_some.mp ha, regOf?_eq_some.mp hb, h0⟩
  · cases h

theorem decodeDABM_eq_some {mk : Reg → Reg → Reg → Reg → Instr} (h : decodeDABM f mk = some i) :
    ∃ d a b m, i = mk d a b m ∧ f.rd = regField d ∧ f.ra = regField a ∧ f.rb = regField b ∧ f.rm = regField m := by
  unfold decodeDABM at h
  split at h
  · next d a b m hd ha hb hm =>
    cases h
    exact ⟨d, a, b, m, rfl, regOf?_eq_some.mp hd, regOf?_eq_some.mp ha, regOf?_eq_some.mp hb, regOf?_eq_some.mp hm⟩
  · cases h

/-- The two halves of an immediate (30_encoding.md R93). -/
theorem extract_append_imm (b a : BitVec 4) :
    (b ++ a).extractLsb' 4 4 = b ∧ (b ++ a).extractLsb' 0 4 = a := by
  revert b a; decide

/-- Fields are equal where each of the six is. -/
theorem fields_ext {f g : Fields} (hrsv : f.rsv = g.rsv) (hrd : f.rd = g.rd) (hra : f.ra = g.ra) (hrb : f.rb = g.rb)
    (hrm : f.rm = g.rm) (hop : f.op.toNat = g.op.toNat) : f = g := by
  cases f
  cases g
  simp_all [BitVec.toNat_inj]

/-- The fields that decode to a command are the command's own. -/
theorem eq_fields_of_decodeFields (h : decodeFields f = some i) : f = i.fields := by
  unfold decodeFields at h
  split at h
  case isFalse => cases h
  case isTrue hrsv =>
    split at h
    case h_1 hop =>
      split at h
      · next h0 =>
        cases h
        obtain ⟨hd, ha, hb, hm⟩ := h0
        exact fields_ext hrsv hd ha hb hm hop
      · cases h
    case h_2 hop =>
      obtain ⟨d, a, rfl, hd, ha, hb, hm⟩ := decodeDA_eq_some h
      exact fields_ext hrsv hd ha hb hm hop
    case h_3 hop =>
      obtain ⟨d, rfl, hd, hm⟩ := decodeDI_eq_some h
      obtain ⟨hb, ha⟩ := extract_append_imm f.rb f.ra
      exact fields_ext hrsv hd ha.symm hb.symm hm hop
    case h_13 hop =>
      obtain ⟨d, a, b, rfl, hd, ha, hb, hm⟩ := decodeDAB_eq_some h
      exact fields_ext hrsv hd ha hb hm hop
    case h_4 hop | h_9 hop | h_11 hop | h_12 hop =>
      obtain ⟨d, a, m, rfl, hd, ha, hb, hm⟩ := decodeDAM_eq_some h
      exact fields_ext hrsv hd ha hb hm hop
    case h_5 hop | h_6 hop | h_7 hop | h_8 hop | h_10 hop | h_14 hop | h_15 hop =>
      obtain ⟨d, a, b, m, rfl, hd, ha, hb, hm⟩ := decodeDABM_eq_some h
      exact fields_ext hrsv hd ha hb hm hop
    case h_16 => cases h

/-- A word that decodes to a command has that command's fields. -/
theorem ofWord_eq_fields {w : Word} (h : decode w = some i) : Fields.ofWord w = i.fields := eq_fields_of_decodeFields h

end

end Sys2Proof.Laws

namespace Sys2Proof.Machine

section
/-! Transactions at the offset of a control register (20_memory.md R62, R65). -/

/-- A place below the operand window: ID, CFG or a control register (20_memory.md R65). -/
abbrev Place.IsRegister (p : Place) : Prop := ∀ r w, p ≠ .operand r w

/-- An aligned 32-bit transaction at the offset of a control register reaches it. -/
theorem accessCheck_register (cfg : Config) {p : Place} (hp : p.IsRegister) :
    accessCheck cfg (BitVec.ofNat 12 p.offset) 0xF = .ok p := by
  cases p with
  | operand r w => exact absurd rfl (hp r w)
  | id | cfg | ctrl | status | cmd | iterLo | iterHi | rhoLimit => rfl

/-- A read of a control register answers its word and changes nothing else (20_memory.md R71). -/
theorem readsTo_register (s : State) {p : Place} (hp : p.IsRegister) : ReadsTo s p.offset (s.wordAt p) := by
  intro rest
  simp only [step, busRead, accessCheck_register s.cfg hp]
  cases p with
  | operand r w => exact absurd rfl (hp r w)
  | id | cfg | ctrl | status | cmd | iterLo | iterHi | rhoLimit => rfl

/-- What a write does to the machine does not depend on the turns still to come. -/
theorem State.writePlace_turns (s : State) (p : Place) (v : Word) (rest : List Turn) :
    ({ s with turns := rest } : State).writePlace p v = { s.writePlace p v with turns := rest } := by
  have hbusy : ({ s with turns := rest } : State).busy = s.busy := rfl
  cases p with
  | id | cfg | iterLo | iterHi | status => rfl
  | ctrl =>
    simp only [State.writePlace, State.writeCtrl]
    split_ifs <;> rfl
  | cmd | rhoLimit | operand =>
    simp only [State.writePlace, hbusy]
    split <;> rfl

/-- A write to a control register is acknowledged and has the effect of its place. -/
theorem writesTo_register (s : State) {p : Place} (hp : p.IsRegister) (v : Word) :
    WritesTo s p.offset v (s.writePlace p v) := by
  intro rest
  simp only [step, busWrite, accessCheck_register s.cfg hp, State.writePlace_turns]
  rfl

/-- A place stands at its own offset only (20_memory.md R65, R66). -/
theorem offset_of_placeAt {cfg : Config} {off : Nat} {p : Place} (h : placeAt cfg off = some p) (h4 : off % 4 = 0) :
    p.offset = off := by
  unfold placeAt at h
  split at h
  case h_9 =>
    unfold operandPlace at h
    dsimp only at h
    split_ifs at h
    cases h
    simp only [Place.offset, operandOffset]
    omega
  all_goals
    cases h
    rfl

/-- A transaction that is not bus-errored has all its strobes and is at the offset of its place. -/
theorem offset_of_accessCheck {cfg : Config} {off : BitVec 12} {strobes : BitVec 4} {p : Place}
    (h : accessCheck cfg off strobes = .ok p) : strobes = 0xF ∧ off.toNat = p.offset := by
  obtain ⟨hstrobes, h4, hplace⟩ := accessCheck_place h
  exact ⟨hstrobes, (offset_of_placeAt hplace h4).symm⟩

end

section
/-! The fields of a register's word (00_scope.md R8). -/

/-- CTRL.WIN as a write gives it (10_state.md R37). -/
theorem extract_win (v : Word) : v.extractLsb' 4 4 = BitVec.ofNat 4 (slice v 7 4) := by
  apply BitVec.eq_of_toNat_eq
  simp [slice, Nat.shiftRight_eq_div_pow]

/-- The opcode byte of a word (30_encoding.md R90). -/
theorem toNat_op (w : Word) : (Fields.ofWord w).op.toNat = slice w 7 0 := by
  simp [Fields.ofWord, slice]

/-- RHO is in flight exactly when the opcode of the word in flight is 0x31 (10_state.md R35; log 8). -/
theorem State.rhoInFlight_busy {s : State} {c : Command} (he : s.eng = .busy c) :
    s.rhoInFlight = true ↔ slice c.word 7 0 = 0x31 := by
  rw [← toNat_op]
  simp [State.rhoInFlight, he, BitVec.toNat_eq]

theorem State.rhoInFlight_idle {s : State} (he : s.eng = .idle) : s.rhoInFlight = false := by
  simp [State.rhoInFlight, he]

end

section
/-! What a host write can do, said once (20_memory.md R66, R71; 70_reset_and_hazards.md R282, R290, R291). -/

/-- A CTRL write with SRST clear (10_state.md R33-R37). -/
def State.setCtrl (s : State) (v : Word) : State :=
  { s with
    abortPending := s.abortPending || (v.getLsbD 1 && s.rhoInFlight)
    ie := v.getLsbD 0
    win := v.extractLsb' 4 4 }

/-- The effects of a write of `v` on `s`, by the place that it reaches. -/
inductive WriteEffect (s : State) (v : Word) : Place → State → Prop
  | ignored {p : Place} : p = .id ∨ p = .cfg ∨ p = .iterLo ∨ p = .iterHi → WriteEffect s v p s
  | reset : v.getLsbD 2 = true → WriteEffect s v .ctrl s.toReset
  | ctrl : v.getLsbD 2 = false → WriteEffect s v .ctrl (s.setCtrl v)
  | status : WriteEffect s v .status (s.writeStatus v)
  | dropped {p : Place} (c : Command) : s.eng = .busy c → p = .cmd ∨ p = .rhoLimit ∨ (∃ r w, p = .operand r w) →
      WriteEffect s v p s.dropWrite
  | accepted : s.eng = .idle → WriteEffect s v .cmd (s.accept v)
  | rhoLimit : s.eng = .idle → WriteEffect s v .rhoLimit { s with rhoLimit := v }
  | operand (r : Reg) (w : Nat) : s.eng = .idle →
      WriteEffect s v (.operand r w) (s.setReg r (setOperandWord (s.reg r) w v))

theorem State.writeCtrl_srst (s : State) {v : Word} (h : v.getLsbD 2 = true) : s.writeCtrl v = s.toReset := if_pos h

theorem State.writeCtrl_noSrst (s : State) {v : Word} (h : v.getLsbD 2 = false) : s.writeCtrl v = s.setCtrl v := by
  rw [State.writeCtrl, h, if_neg Bool.false_ne_true, State.setCtrl]
  cases v.getLsbD 1
  · simp
  · rfl

/-- A write that is dropped while busy, and has its effect while idle. -/
theorem WriteEffect.unlessBusy {s t : State} {v : Word} {p : Place}
    (hp : p = .cmd ∨ p = .rhoLimit ∨ ∃ r w, p = .operand r w) (h : s.eng = .idle → WriteEffect s v p t) :
    WriteEffect s v p (if s.busy then s.dropWrite else t) := by
  split
  · next hb =>
    obtain ⟨c, he⟩ := s.busy_iff.mp hb
    exact .dropped c he hp
  · next hb => exact h (s.not_busy_iff.mp (Bool.eq_false_of_not_eq_true hb))

/-- Every host write has one of the effects listed. -/
theorem State.writePlace_effect (s : State) (p : Place) (v : Word) : WriteEffect s v p (s.writePlace p v) := by
  cases p with
  | id | cfg | iterLo | iterHi => exact .ignored (by simp)
  | status => exact .status
  | ctrl =>
    rw [State.writePlace]
    cases h : v.getLsbD 2 with
    | true => exact s.writeCtrl_srst h ▸ .reset h
    | false => exact s.writeCtrl_noSrst h ▸ .ctrl h
  | cmd => exact .unlessBusy (.inl rfl) .accepted
  | rhoLimit => exact .unlessBusy (.inr (.inl rfl)) .rhoLimit
  | operand r w => exact .unlessBusy (.inr (.inr ⟨r, w, rfl⟩)) (.operand r w)

end

section
/-! What the engine's turn can do, said once (60_exceptions.md R241-R243; 43_gcd_rho.md R221-R224). -/

/-- A command with a modulus that answers, answers with TRIV 0 (10_state.md R30). -/
theorem EndsWithResidue.triv {s t : State} {rd rm : Reg} {o : Host.Outcome State Fault Refusal}
    (ho : EndsWithResidue s rd rm o) (h : o = .next t) : t.triv = false := by
  rcases ho with ⟨e, rfl⟩ | ⟨v, _, rfl⟩ <;> cases h <;> rfl

/-- Only the rho commands set TRIV (10_state.md R30). -/
theorem exec_triv {i : Instr} {s t : State} (hi : i.countsIterations = false) (h : exec i s = .next t) :
    t.triv = false := by
  cases i with
  | nop | mov | ldi | gcd => cases h; rfl
  | reduce _ ra _ => exact (execReduce_residue ra).triv h
  | modadd _ ra rb _ => exact (execModadd_residue ra rb).triv h
  | modsub _ ra rb _ => exact (execModsub_residue ra rb).triv h
  | modmul _ ra rb _ => exact (execModmul_residue ra rb).triv h
  | modexp _ ra rb _ => exact (execModexp_residue ra rb).triv h
  | modinv _ ra _ => exact (execModinv_residue ra).triv h
  | montmul _ ra rb _ => exact (execMontmul_residue ra rb).triv h
  | tomont _ ra _ => exact (execTomont_residue ra).triv h
  | frommont _ ra _ => exact (execFrommont_residue ra).triv h
  | rhostep | rho => cases hi

/-- The effects of the engine's turn on `s`. -/
inductive EngineEffect (s : State) : State → Prop
  | idle : s.eng = .idle → EngineEffect s s
  | error (e : ErrorCode) : EngineEffect s (s.raiseError e)
  | success (c : Command) (i : Instr) (l : List (Reg × Nat)) (z : Bool) : s.eng = .busy c → decode c.word = some i →
      (∀ p ∈ l, p.1 ∈ i.destinations) → EngineEffect s (s.complete l z false)
  | rhostep (c : Command) (rd ra rb rm : Reg) (x y d n : Nat) : s.eng = .busy c →
      decode c.word = some (.rhostep rd ra rb rm) → EngineEffect s (s.completeRho rd ra rb x y d n).countIteration
  | rhoBegins (c : Command) (rd ra rb rm : Reg) (w : RhoWork) : s.eng = .busy c → c.phase = .start →
      decode c.word = some (.rho rd ra rb rm) → EngineEffect s (s.clearIter.continueRho w)
  | rhoDivisor (c : Command) (w : RhoWork) (x y d : Nat) : s.eng = .busy c → c.phase = .iterate w →
      EngineEffect s (s.countIteration.completeRho (regOf (Fields.ofWord c.word).rd) (regOf (Fields.ofWord c.word).ra)
        (regOf (Fields.ofWord c.word).rb) x y d w.n)
  | rhoLimit (c : Command) (w : RhoWork) : s.eng = .busy c → c.phase = .iterate w →
      EngineEffect s (s.countIteration.raiseError .limit)
  | rhoGoesOn (c : Command) (w u : RhoWork) : s.eng = .busy c → c.phase = .iterate w →
      EngineEffect s (s.countIteration.continueRho u)

/-- A start step has one of the effects listed. -/
theorem exec_effect {s t : State} {c : Command} {i : Instr} (he : s.eng = .busy c) (hp : c.phase = .start)
    (hd : decode c.word = some i) (h : exec i s = .next t) : EngineEffect s t := by
  rcases exec_cases i s with ⟨e, hx⟩ | ⟨l, z, triv, hl, hi, hx⟩ | ⟨rd, ra, rb, rm, rfl, _, _, _, hx⟩ |
    ⟨rd, ra, rb, rm, rfl, _, hx⟩
  · cases hx.symm.trans h
    exact .error e
  · have htriv : triv = false := exec_triv hi hx
    cases hx.symm.trans h
    exact htriv ▸ .success c i l z he hd hl
  · cases hx.symm.trans h
    exact .rhostep c rd ra rb rm _ _ _ _ he hd
  · cases hx.symm.trans h
    exact .rhoBegins c rd ra rb rm _ he hp hd

/-- An iteration step has one of the effects listed. -/
theorem rhoIterate_effect {s : State} {c : Command} {w : RhoWork} (he : s.eng = .busy c) (hp : c.phase = .iterate w) :
    EngineEffect s (rhoIterate c w s) := by
  rcases rhoIterate_cases c w s with ⟨_, h⟩ | ⟨_, _, h⟩ | ⟨_, _, _, _, h⟩ | ⟨_, _, _, h⟩ <;> rw [h]
  · exact .error .abort
  · exact .rhoDivisor c w _ _ _ he hp
  · exact .rhoLimit c w he hp
  · exact .rhoGoesOn c w _ he hp

/-- The engine's turn has one of the effects listed. -/
theorem engineTurn_effect {s t : State} (h : engineTurn s = .next t) : EngineEffect s t := by
  rcases engineTurn_cases h with ⟨he, rfl⟩ | ⟨_, _, _, _, rfl⟩ | ⟨c, i, he, hp, hd, hx⟩ | ⟨c, w, he, hp, rfl⟩
  · exact .idle he
  · exact .error .illegal
  · exact exec_effect he hp hd hx
  · exact rhoIterate_effect he hp

end

section
/-! Everything one step can do. -/

/-- A read changes the answer and the count of unspecified words only (20_memory.md R71). -/
theorem State.readPlace_eq (s : State) (p : Place) : ∃ r d, s.readPlace p = { s with response := r, draws := d } := by
  cases p with
  | operand r w =>
    rw [State.readPlace]
    split
    · exact ⟨_, _, rfl⟩
    · exact ⟨_, s.draws, rfl⟩
  | id | cfg | ctrl | status | cmd | iterLo | iterHi | rhoLimit => exact ⟨_, s.draws, rfl⟩

/-- The effects of a step on `s`: a turn of the engine, a read, a write at the offset of its place, or a hardware reset. -/
inductive StepEffect (s : State) : State → Prop
  | engine {t : State} : s.EngineMoves → EngineEffect s.popped t → StepEffect s t
  | read (r : Response) (d : Nat) : StepEffect s { s.popped with response := r, draws := d }
  | write {t : State} (off : BitVec 12) (v : Word) (p : Place) : s.turns.head? = some (.write off 0xF v) →
      off.toNat = p.offset → (∀ r w, p = .operand r w → w < s.cfg.nw) → WriteEffect s.popped v p t →
        StepEffect s (t.respond .ack)
  | reset : s.turns.head? = some .reset → StepEffect s s.popped.toReset

/-- Every step that answers a next state has one of the effects listed. -/
theorem step_effect {s t : State} (h : step s = .next t) : StepEffect s t := by
  rcases step_cases h with ⟨hm, ht⟩ | ⟨_, _, p, _, _, rfl⟩ | ⟨off, strobes, v, p, hhead, hacc, rfl⟩ | ⟨hhead, rfl⟩
  · exact .engine hm (engineTurn_effect ht)
  · obtain ⟨r, d, hread⟩ := s.popped.readPlace_eq p
    exact hread ▸ .read r d
  · obtain ⟨rfl, _, hplace⟩ := accessCheck_place hacc
    exact .write off v p hhead (offset_of_accessCheck hacc).2 (fun r w hp => lt_nw_of_placeAt (hp ▸ hplace))
      (s.popped.writePlace_effect p v)
  · exact .reset hhead

/-- A write at the offset of CTRL with SRST set resets (70_reset_and_hazards.md R282). -/
theorem State.resets_of_srst {s : State} {off : BitVec 12} {v : Word} (hhead : s.turns.head? = some (.write off 0xF v))
    (hoff : off.toNat = 0x008) (hv : v.getLsbD 2 = true) : s.Resets :=
  .inr ⟨v, BitVec.eq_of_toNat_eq (y := 0x008) hoff ▸ hhead, hv⟩

end

section
/-! CTRL.WIN and the latched window bear on nothing (41_modular_arith.md R151): every engine step commutes with a change of
them. -/

/-- An outcome with its next state, where there is one, changed by `f`. -/
def onNext (f : State → State) : Host.Outcome State Fault Refusal → Host.Outcome State Fault Refusal
  | .next s => .next (f s)
  | .fault r => .fault r
  | .refused r => .refused r

@[simp] theorem onNext_next (f : State → State) (s : State) : onNext f (.next s) = .next (f s) := rfl

/-- Which branch a check takes does not depend on what is done with the outcome. -/
theorem onNext_ite (f : State → State) (p : Prop) [Decidable p] (a b : Host.Outcome State Fault Refusal) :
    onNext f (if p then a else b) = if p then onNext f a else onNext f b := apply_ite (onNext f) p a b

variable (s : State) (k latched : BitVec 4)

@[simp] theorem State.withWindow_reg (r : Reg) : (s.withWindow k latched).reg r = s.reg r := rfl
@[simp] theorem State.withWindow_cfg : (s.withWindow k latched).cfg = s.cfg := rfl
@[simp] theorem State.withWindow_abortPending : (s.withWindow k latched).abortPending = s.abortPending := rfl
@[simp] theorem State.withWindow_turns : (s.withWindow k latched).turns = s.turns := rfl

variable {s}

theorem State.withWindow_eng_idle (he : s.eng = .idle) : (s.withWindow k latched).eng = .idle := by
  simp [State.withWindow, he]

theorem State.withWindow_eng_busy {c : Command} (he : s.eng = .busy c) :
    (s.withWindow k latched).eng = .busy { c with win := latched } := by
  simp [State.withWindow, he]

/-- RHO goes on from the same latch but for the window. Only a busy engine has one: an idle one would latch CTRL.WIN. -/
theorem State.continueRho_withWindow {c : Command} (he : s.eng = .busy c) (w : RhoWork) :
    (s.withWindow k latched).continueRho w = (s.continueRho w).withWindow k latched := by
  simp only [State.continueRho, State.latch_busy he, State.latch_busy (State.withWindow_eng_busy k latched he)]
  rfl

/-- RHO's start step with a modulus that is too small (43_gcd_rho.md R221). -/
theorem exec_rho_of_lt {rd ra rb rm : Reg} (h : s.reg rm < 3) :
    exec (.rho rd ra rb rm) s = .next (s.raiseError .modulus) := if_pos h

/-- RHO's start step with a modulus of at least 3 (43_gcd_rho.md R221). -/
theorem exec_rho_of_not_lt {rd ra rb rm : Reg} (h : ¬ s.reg rm < 3) :
    exec (.rho rd ra rb rm) s = .next (s.clearIter.continueRho ⟨s.reg rm, 2, 2, 0⟩) := if_neg h

/-- The start step of a command in flight reads no window. -/
theorem exec_withWindow {c : Command} (he : s.eng = .busy c) (i : Instr) :
    exec i (s.withWindow k latched) = onNext (·.withWindow k latched) (exec i s) := by
  cases i with
  | nop | mov | ldi | gcd => rfl
  | rho rd ra rb rm =>
    by_cases hn : s.reg rm < 3
    · rw [exec_rho_of_lt hn, exec_rho_of_lt (s := s.withWindow k latched) hn]
      rfl
    · rw [exec_rho_of_not_lt hn, exec_rho_of_not_lt (s := s.withWindow k latched) hn]
      exact congrArg Host.Outcome.next (State.continueRho_withWindow (s := s.clearIter) k latched he _)
  | reduce | modadd | modsub | modmul | modexp | modinv | montmul | tomont | frommont | rhostep =>
    simp only [exec, execReduce, execModadd, execModsub, execModmul, execModexp, execModinv, execMontmul, execTomont,
      execFrommont, execRhostep, onNext_ite, onNext_next]
    rfl

/-- RHO's iteration step reads no window, neither CTRL's nor the latched one. -/
theorem rhoIterate_withWindow {c : Command} (he : s.eng = .busy c) (w : RhoWork) :
    rhoIterate { c with win := latched } w (s.withWindow k latched) = (rhoIterate c w s).withWindow k latched := by
  have hgo (w : RhoWork) := State.continueRho_withWindow (s := s.countIteration) k latched he w
  simp only [rhoIterate, State.withWindow_abortPending]
  split_ifs
  · rfl
  · rfl
  · rfl
  · exact hgo _

/-- The engine's turn reads no window. -/
theorem engineTurn_withWindow (s : State) :
    engineTurn (s.withWindow k latched) = onNext (·.withWindow k latched) (engineTurn s) := by
  cases he : s.eng with
  | idle => rw [engineTurn_idle he, engineTurn_idle (State.withWindow_eng_idle k latched he), onNext_next]
  | busy c =>
    have hew := State.withWindow_eng_busy k latched he
    cases hp : c.phase with
    | iterate w =>
      rw [engineTurn_iterate he hp, engineTurn_iterate hew hp, rhoIterate_withWindow k latched he, onNext_next]
    | start =>
      cases hd : decode c.word with
      | none => rw [engineTurn_illegal he hp hd, engineTurn_illegal hew hp hd]; rfl
      | some i => rw [engineTurn_start he hp hd, engineTurn_start hew hp hd, exec_withWindow k latched he]

end

/-- Settles O25: where the engine moves, its turn commutes with a change of the two windows. -/
theorem windowWidthChangesNoResult : Obligations.WindowWidthChangesNoResult := by
  intro s t k latched hm h
  rw [step_engine hm] at h
  have hmw : (s.withWindow k latched).EngineMoves := hm
  calc step (s.withWindow k latched)
      = engineTurn (s.popped.withWindow k latched) := step_engine hmw
    _ = onNext (·.withWindow k latched) (engineTurn s.popped) := engineTurn_withWindow k latched s.popped
    _ = .next (t.withWindow k latched) := by rw [h, onNext_next]

/-- Codes 7 to 15 never occur (60_exceptions.md R245). -/
theorem ErrorCode.code_le (e : ErrorCode) : e.code.toNat ≤ 6 := by cases e <;> decide

/-- Code 0 is no error (60_exceptions.md R245). -/
theorem ErrorCode.code_ne_zero (e : ErrorCode) : e.code ≠ 0 := by cases e <;> decide

namespace StatusCoherent

section
/-! Each operation on the state keeps STATUS coherent (10_state.md R29, R30, R38-R43). -/

variable {s t : State}

/-- Only five fields of STATUS and the engine bear on its coherence. -/
theorem congr (hs : StatusCoherent s) (hdone : t.done = s.done) (herr : t.err = s.err) (hcode : t.errcode = s.errcode)
    (hz : t.z = s.z) (htriv : t.triv = s.triv) (heng : t.eng = s.eng) : StatusCoherent t := by
  have hbusy : t.busy = s.busy := by rw [State.busy, heng, State.busy]
  refine ⟨?_, ?_, ?_, ?_, ?_⟩ <;> simp only [hdone, herr, hcode, hz, htriv, hbusy]
  · exact hs.code
  · exact hs.err
  · exact hs.errFlags
  · exact hs.flags
  · exact hs.busy

theorem raiseError (s : State) (e : ErrorCode) : StatusCoherent (s.raiseError e) where
  code := e.code_le
  err := ⟨fun _ => e.code_ne_zero, fun _ => rfl⟩
  errFlags _ := ⟨rfl, rfl⟩
  flags := by simp
  busy h := absurd h Bool.false_ne_true

theorem complete (s : State) (l : List (Reg × Nat)) {z triv : Bool} (h : ¬ (z = true ∧ triv = true)) :
    StatusCoherent (s.complete l z triv) where
  code := Nat.zero_le 6
  err := by simp
  errFlags h := absurd h Bool.false_ne_true
  flags := h
  busy h := absurd h Bool.false_ne_true

theorem countIteration (hs : StatusCoherent s) : StatusCoherent s.countIteration := hs.congr rfl rfl rfl rfl rfl rfl

theorem clearIter (hs : StatusCoherent s) : StatusCoherent s.clearIter := hs.congr rfl rfl rfl rfl rfl rfl

/-- A command that goes on was in flight, so its STATUS was clear. -/
theorem continueRho (hs : StatusCoherent s) {c : Command} (he : s.eng = .busy c) (w : RhoWork) :
    StatusCoherent (s.continueRho w) :=
  ⟨hs.code, hs.err, hs.errFlags, hs.flags, fun _ => hs.busy (s.busy_iff.mpr ⟨c, he⟩)⟩

/-- All flags 0 and no error: what acceptance and reset leave. -/
theorem of_clear (hdone : t.done = false) (herr : t.err = false) (hcode : t.errcode = 0) (hz : t.z = false)
    (htriv : t.triv = false) : StatusCoherent t := by
  refine ⟨?_, ?_, ?_, ?_, ?_⟩ <;> simp [hdone, herr, hcode, hz, htriv]

/-- Clearing ERR clears ERRCODE with it (10_state.md R41, R43). -/
theorem writeStatus (hs : StatusCoherent s) (v : Word) : StatusCoherent (s.writeStatus v) := by
  have hbusy : (s.writeStatus v).busy = s.busy := rfl
  obtain ⟨hcode, herr, herrFlags, hflags, hclear⟩ := hs
  refine ⟨?_, ?_, ?_, hflags, ?_⟩
  · rw [State.writeStatus_errcode]
    split
    · exact Nat.zero_le 6
    · exact hcode
  · cases h : v.getLsbD 2 <;> simp only [State.writeStatus_err, State.writeStatus_errcode, h]
    · simpa using herr
    · simp
  · intro h
    rw [State.writeStatus_err, Bool.and_eq_true] at h
    exact herrFlags h.1
  · intro h
    obtain ⟨hd, he, hz, ht⟩ := hclear (hbusy ▸ h)
    exact ⟨by simp [hd], by simp [he], hz, ht⟩

/-- The engine's turn keeps STATUS coherent. -/
theorem engine (hs : StatusCoherent s) (h : EngineEffect s t) : StatusCoherent t := by
  cases h with
  | idle => exact hs
  | error e => exact raiseError s e
  | success _ _ l z => exact complete s l (by simp)
  | rhostep => exact (complete s _ (by simp)).countIteration
  | rhoBegins _ _ _ _ _ w he => exact hs.clearIter.continueRho he w
  | rhoDivisor => exact complete _ _ (by simp)
  | rhoLimit => exact raiseError _ _
  | rhoGoesOn _ _ u he => exact hs.countIteration.continueRho he u

/-- A host write keeps STATUS coherent. -/
theorem write (hs : StatusCoherent s) {v : Word} {p : Place} (h : WriteEffect s v p t) : StatusCoherent t := by
  cases h with
  | ignored => exact hs
  | status => exact hs.writeStatus v
  | reset | accepted => exact of_clear rfl rfl rfl rfl rfl
  | ctrl | dropped | rhoLimit | operand => exact hs.congr rfl rfl rfl rfl rfl rfl

end

end StatusCoherent

/-- Settles O54: a completion leaves STATUS coherent, and a command goes on only with STATUS clear. -/
theorem stepKeepsStatusCoherent : Obligations.StepKeepsStatusCoherent := by
  intro s t hs h
  have hpop : StatusCoherent s.popped := hs.congr rfl rfl rfl rfl rfl rfl
  cases step_effect h with
  | engine _ he => exact hpop.engine he
  | read => exact hpop.congr rfl rfl rfl rfl rfl rfl
  | write _ _ _ _ _ _ hw => exact (hpop.write hw).congr rfl rfl rfl rfl rfl rfl
  | reset => exact .of_clear rfl rfl rfl rfl rfl

namespace CommandCoherent

section
/-! Each operation on the state keeps the command coherent (10_state.md R35, R45, R51). -/

variable {s t : State}

/-- Only abort_pending, CMD and the engine bear on it. -/
theorem congr (hs : CommandCoherent s) (habort : t.abortPending = s.abortPending) (hcmd : t.cmd = s.cmd)
    (heng : t.eng = s.eng) : CommandCoherent t := by
  have hrho : t.rhoInFlight = s.rhoInFlight := by rw [State.rhoInFlight, heng, State.rhoInFlight]
  exact ⟨by rw [habort, hrho]; exact hs.abort, by rw [heng, hcmd]; exact hs.cmd⟩

/-- A completion and a reset leave no command and no abort pending. -/
theorem of_idle (heng : t.eng = .idle) (habort : t.abortPending = false) : CommandCoherent t :=
  ⟨fun h => absurd (habort.symm.trans h) Bool.false_ne_true, fun c he => by rw [heng] at he; cases he⟩

/-- RHO goes on with the same command word. -/
theorem continueRho (hs : CommandCoherent s) {c : Command} (he : s.eng = .busy c) (w : RhoWork) :
    CommandCoherent (s.continueRho w) := by
  have heng : (s.continueRho w).eng = .busy { c with phase := .iterate w } := by
    rw [State.continueRho_eng, State.latch_busy he]
  refine ⟨fun h => ?_, fun d hd => ?_⟩
  · exact (State.rhoInFlight_busy heng).mpr ((State.rhoInFlight_busy he).mp (hs.abort h))
  · cases heng.symm.trans hd
    exact hs.cmd c he

/-- Acceptance latches the word that CMD reads, with no abort pending (60_exceptions.md R240). -/
theorem accept (s : State) (v : Word) : CommandCoherent (s.accept v) := by
  refine ⟨fun h => absurd h Bool.false_ne_true, fun c he => ?_⟩
  cases he
  rfl

/-- An abort becomes pending only while RHO is in flight (10_state.md R35). -/
theorem setCtrl (hs : CommandCoherent s) (v : Word) : CommandCoherent (s.setCtrl v) := by
  refine ⟨fun h => ?_, hs.cmd⟩
  rcases Bool.or_eq_true_iff.mp h with h | h
  · exact hs.abort h
  · exact (Bool.and_eq_true_iff.mp h).2

/-- The engine's turn keeps the command coherent. -/
theorem engine (hs : CommandCoherent s) (h : EngineEffect s t) : CommandCoherent t := by
  cases h with
  | idle => exact hs
  | error | success | rhostep | rhoDivisor | rhoLimit => exact of_idle rfl rfl
  | rhoBegins _ _ _ _ _ w he =>
    have hclear : CommandCoherent s.clearIter := hs.congr rfl rfl rfl
    exact hclear.continueRho he w
  | rhoGoesOn _ _ u he =>
    have hcount : CommandCoherent s.countIteration := hs.congr rfl rfl rfl
    exact hcount.continueRho he u

/-- A host write keeps the command coherent. -/
theorem write (hs : CommandCoherent s) {v : Word} {p : Place} (h : WriteEffect s v p t) : CommandCoherent t := by
  cases h with
  | ignored => exact hs
  | reset => exact of_idle rfl rfl
  | ctrl => exact hs.setCtrl v
  | accepted => exact accept s v
  | status | dropped | rhoLimit | operand => exact hs.congr rfl rfl rfl

end

end CommandCoherent

/-- Settles O55: only a CTRL write sets abort_pending, for RHO, and the word in flight changes only with CMD. -/
theorem stepKeepsCommandCoherent : Obligations.StepKeepsCommandCoherent := by
  intro s t hs h
  have hpop : CommandCoherent s.popped := hs.congr rfl rfl rfl
  cases step_effect h with
  | engine _ he => exact hpop.engine he
  | read => exact hpop.congr rfl rfl rfl
  | write _ _ _ _ _ _ hw => exact (hpop.write hw).congr rfl rfl rfl
  | reset => exact .of_idle rfl rfl

section
/-! Which registers a completion writes (60_exceptions.md R242, 43_gcd_rho.md R212). -/

/-- A success completion changes only registers that its writes name. -/
theorem State.mem_of_complete_reg_ne {s : State} {l : List (Reg × Nat)} {z triv : Bool} {r : Reg}
    (h : (s.complete l z triv).reg r ≠ s.reg r) : ∃ p ∈ l, p.1 = r := by
  by_contra hno
  push Not at hno
  exact h (writeRegs_other l s.regs hno)

/-- The completion of a rho command changes only its three destinations. -/
theorem State.mem_of_completeRho_reg_ne {s : State} {rd ra rb : Reg} {x y d n : Nat} {r : Reg}
    (h : (s.completeRho rd ra rb x y d n).reg r ≠ s.reg r) : r = ra ∨ r = rb ∨ r = rd := by
  obtain ⟨p, hp, rfl⟩ := State.mem_of_complete_reg_ne h
  simp only [List.mem_cons, List.not_mem_nil, or_false] at hp
  rcases hp with rfl | rfl | rfl <;> simp

/-- A start step changes only the command's destinations (10_state.md R21). -/
theorem mem_destinations_of_exec {i : Instr} {s t : State} (h : exec i s = .next t) {r : Reg} (hr : t.reg r ≠ s.reg r) :
    r ∈ i.destinations := by
  rcases exec_cases i s with ⟨e, hx⟩ | ⟨l, z, triv, hl, _, hx⟩ | ⟨rd, ra, rb, rm, rfl, _, _, _, hx⟩ |
    ⟨_, _, _, _, _, _, hx⟩ <;> cases hx.symm.trans h
  · exact absurd rfl hr
  · obtain ⟨p, hp, rfl⟩ := State.mem_of_complete_reg_ne hr
    exact hl p hp
  · simpa [Instr.destinations] using State.mem_of_completeRho_reg_ne (n := s.reg rm) hr
  · exact absurd rfl hr

/-- Only the rho commands change ITER (10_state.md R46). -/
theorem exec_iter {i : Instr} {s t : State} (hi : i.countsIterations = false) (h : exec i s = .next t) :
    t.iter = s.iter := by
  rcases exec_cases i s with ⟨e, hx⟩ | ⟨l, z, triv, _, _, hx⟩ | ⟨rd, ra, rb, rm, rfl, _, _, _, hx⟩ |
    ⟨rd, ra, rb, rm, rfl, _, hx⟩
  · cases hx.symm.trans h
    rfl
  · cases hx.symm.trans h
    rfl
  all_goals cases hi

end

/-- Settles O48: a start step keeps what the host sets, writes its destinations only, and counts for the rho commands only. -/
theorem commandChangesOnlyItsDestinations : Obligations.CommandChangesOnlyItsDestinations := by
  intro i s t h
  have hreg (r : Reg) (hr : r ∉ i.destinations) : t.reg r = s.reg r := by
    by_contra hne
    exact hr (mem_destinations_of_exec h hne)
  refine ⟨exec_keeps h, hreg, fun r w hr => ?_, fun hi => exec_iter hi h⟩
  simp only [State.wordAt, hreg r hr]

section
/-! The three causes of a change of an operand register (10_state.md R21). -/

variable {s t : State} {r : Reg}

/-- The registers that RHO's word names are the ones that its completion writes (43_gcd_rho.md R222). -/
theorem regs_of_decode_rho {w : Word} {rd ra rb rm : Reg} (h : decode w = some (.rho rd ra rb rm)) :
    regOf (Fields.ofWord w).rd = rd ∧ regOf (Fields.ofWord w).ra = ra ∧ regOf (Fields.ofWord w).rb = rb := by
  rw [Laws.ofWord_eq_fields h]
  exact ⟨Laws.regOf_regField rd, Laws.regOf_regField ra, Laws.regOf_regField rb⟩

/-- The engine changes a register only by the success of a command that names it as a destination. -/
theorem EngineEffect.reg_ne (hs : RhoTrace s) (h : EngineEffect s t) (hr : t.reg r ≠ s.reg r) :
    t.eng = .idle ∧ t.done = true ∧ t.err = false ∧ ∃ c i, s.eng = .busy c ∧ decode c.word = some i ∧
      (r ∈ i.destinations ∨ ∃ rd ra rb rm, i = .rho rd ra rb rm ∧ (r = rd ∨ r = ra ∨ r = rb)) := by
  cases h with
  | idle | error | rhoBegins | rhoLimit | rhoGoesOn => exact absurd rfl hr
  | success c i l z he hd hl =>
    obtain ⟨p, hp, rfl⟩ := State.mem_of_complete_reg_ne hr
    exact ⟨rfl, rfl, rfl, c, i, he, hd, .inl (hl p hp)⟩
  | rhostep c rd ra rb rm x y d n he hd =>
    refine ⟨rfl, rfl, rfl, c, _, he, hd, .inl ?_⟩
    simpa [Instr.destinations] using State.mem_of_completeRho_reg_ne (n := n) hr
  | rhoDivisor c w x y d he hp =>
    obtain ⟨⟨rd, ra, rb, rm, hd⟩, _⟩ := hs c w he hp
    obtain ⟨hrd, hra, hrb⟩ := regs_of_decode_rho hd
    refine ⟨rfl, rfl, rfl, c, _, he, hd, .inr ⟨rd, ra, rb, rm, rfl, ?_⟩⟩
    rcases State.mem_of_completeRho_reg_ne hr with h | h | h
    · exact .inr (.inl (h.trans hra))
    · exact .inr (.inr (h.trans hrb))
    · exact .inl (h.trans hrd)

/-- A host write changes a register only by a word of it written while idle, or by the soft reset. -/
theorem WriteEffect.reg_ne {v : Word} {p : Place} (h : WriteEffect s v p t) (hr : t.reg r ≠ s.reg r) :
    (s.eng = .idle ∧ ∃ w, p = .operand r w) ∨ (p = .ctrl ∧ v.getLsbD 2 = true) := by
  cases h with
  | ignored | ctrl | status | dropped | accepted | rhoLimit => exact absurd rfl hr
  | reset hv => exact .inr ⟨rfl, hv⟩
  | operand q w he =>
    by_cases hq : r = q
    · exact .inl ⟨he, w, by rw [hq]⟩
    · exact absurd (State.setReg_reg_other s _ hq) hr

end

/-- Settles O49: each effect of a step that changes a register is one of the three. -/
theorem operandRegistersChangeOnlyAsStated : Obligations.OperandRegistersChangeOnlyAsStated := by
  intro s t r hs h hr
  cases step_effect h with
  | engine hm he => exact .inl ⟨hm, EngineEffect.reg_ne (s := s.popped) hs he hr⟩
  | read => exact absurd rfl hr
  | write off v p hhead hoff hnw hw =>
    rcases hw.reg_ne hr with ⟨he, w, rfl⟩ | ⟨rfl, hv⟩
    · exact .inr (.inl ⟨he, w, off, v, hnw r w rfl, hhead, hoff⟩)
    · exact .inr (.inr (State.resets_of_srst hhead hoff hv))
  | reset hhead => exact .inr (.inr (.inl hhead))

section
/-! The causes of a change of ITER (10_state.md R46). -/

variable {s t : State}

/-- The engine changes ITER only for the rho commands. -/
theorem EngineEffect.iter_ne (hs : RhoTrace s) (h : EngineEffect s t) (hi : t.iter ≠ s.iter) :
    ∃ c rd ra rb rm, s.eng = .busy c ∧
      ((decode c.word = some (.rhostep rd ra rb rm) ∧ t.iter = s.iter + 1 ∧ t.err = false) ∨
       (decode c.word = some (.rho rd ra rb rm) ∧
         ((c.phase = .start ∧ t.iter = 0) ∨ (c.phase ≠ .start ∧ t.iter = s.iter + 1)))) := by
  cases h with
  | idle | error | success => exact absurd rfl hi
  | rhostep c rd ra rb rm _ _ _ _ he hd => exact ⟨c, rd, ra, rb, rm, he, .inl ⟨hd, rfl, rfl⟩⟩
  | rhoBegins c rd ra rb rm _ he hp hd => exact ⟨c, rd, ra, rb, rm, he, .inr ⟨hd, .inl ⟨hp, rfl⟩⟩⟩
  | rhoDivisor c w _ _ _ he hp | rhoLimit c w he hp | rhoGoesOn c w _ he hp =>
    obtain ⟨⟨rd, ra, rb, rm, hd⟩, _⟩ := hs c w he hp
    exact ⟨c, rd, ra, rb, rm, he, .inr ⟨hd, .inr ⟨by simp [hp], rfl⟩⟩⟩

/-- A host write changes ITER only by the soft reset. -/
theorem WriteEffect.iter_ne {v : Word} {p : Place} (h : WriteEffect s v p t) (hi : t.iter ≠ s.iter) :
    p = .ctrl ∧ v.getLsbD 2 = true := by
  cases h with
  | reset hv => exact ⟨rfl, hv⟩
  | ignored | ctrl | status | dropped | accepted | rhoLimit | operand => exact absurd rfl hi

end

/-- Settles O51: each effect of a step that changes ITER is one of those of R46. -/
theorem iterCountsOnlyRhoIterations : Obligations.IterCountsOnlyRhoIterations := by
  intro s t hs h hi
  cases step_effect h with
  | engine hm he => exact .inl ⟨hm, EngineEffect.iter_ne (s := s.popped) hs he hi⟩
  | read => exact absurd rfl hi
  | write off v p hhead hoff _ hw =>
    obtain ⟨rfl, hv⟩ := hw.iter_ne hi
    exact .inr (State.resets_of_srst hhead hoff hv)
  | reset hhead => exact .inr (.inl hhead)

section
/-! The causes of a change of OVF (10_state.md R42). -/

variable {s t : State} {v : Word} {p : Place}

/-- The engine keeps OVF (10_state.md R42). -/
theorem EngineEffect.ovf (h : EngineEffect s t) : t.ovf = s.ovf := by
  cases h <;> rfl

/-- A host write sets OVF only where it is dropped while busy. -/
theorem WriteEffect.ovf_rises (h : WriteEffect s v p t) (h0 : s.ovf = false) (h1 : t.ovf = true) :
    (∃ c, s.eng = .busy c) ∧ (p = .cmd ∨ p = .rhoLimit ∨ ∃ r w, p = .operand r w) := by
  cases h with
  | dropped c he hp => exact ⟨⟨c, he⟩, hp⟩
  | reset => cases h1
  | status => simp [h0] at h1
  | ignored | ctrl | accepted | rhoLimit | operand => cases h0.symm.trans h1

/-- A host write clears OVF only by its W1C bit or by the soft reset. -/
theorem WriteEffect.ovf_falls (h : WriteEffect s v p t) (h1 : s.ovf = true) (h0 : t.ovf = false) :
    (p = .ctrl ∧ v.getLsbD 2 = true) ∨ (p = .status ∧ v.getLsbD 3 = true) := by
  cases h with
  | reset hv => exact .inl ⟨rfl, hv⟩
  | status => exact .inr ⟨rfl, by simpa [h1] using h0⟩
  | dropped => cases h0
  | ignored | ctrl | accepted | rhoLimit | operand => cases h0.symm.trans h1

/-- The offsets of the places whose writes are dropped while busy (70_reset_and_hazards.md R290, R291). -/
theorem Place.offset_of_droppable (hp : p = .cmd ∨ p = .rhoLimit ∨ ∃ r w, p = .operand r w) :
    p.offset = 0x010 ∨ p.offset = 0x01C ∨ 0x100 ≤ p.offset := by
  rcases hp with rfl | rfl | ⟨r, w, rfl⟩
  · exact .inl rfl
  · exact .inr (.inl rfl)
  · refine .inr (.inr ?_)
    simp only [Place.offset, operandOffset]
    omega

end

/-- Settles O52: only a host write can set OVF, and only a host write or a reset can clear it. -/
theorem ovfIsSticky : Obligations.OvfIsSticky := by
  intro s t h
  cases step_effect h with
  | engine _ he =>
    have hkeep : t.ovf = s.ovf := he.ovf
    exact ⟨fun h0 h1 => by simp [hkeep, h0] at h1, fun h1 h0 => by simp [hkeep, h1] at h0⟩
  | read => exact ⟨fun h0 h1 => (by cases h0.symm.trans h1), fun h1 h0 => (by cases h0.symm.trans h1)⟩
  | write off v p hhead hoff _ hw =>
    refine ⟨fun h0 h1 => ?_, fun h1 h0 => ?_⟩
    · obtain ⟨hbusy, hp⟩ := hw.ovf_rises h0 h1
      exact ⟨hbusy, off, v, hhead, hoff ▸ Place.offset_of_droppable hp⟩
    · rcases hw.ovf_falls h1 h0 with ⟨rfl, hv⟩ | ⟨rfl, hv⟩
      · exact .inl (State.resets_of_srst hhead hoff hv)
      · exact .inr ⟨v, BitVec.eq_of_toNat_eq (y := 0x00C) hoff ▸ hhead, hv⟩
  | reset hhead => exact ⟨fun _ h1 => (by cases h1), fun _ _ => .inl (.inl hhead)⟩

section
/-! The words that the control registers read as, field by field (10_state.md R31-R33, R38). -/

theorem State.toNat_ctrlWord (s : State) : s.ctrlWord.toNat = s.win.toNat * 2 ^ 4 + s.ie.toNat := by
  simp only [State.ctrlWord, Laws.toNat_append_mul, BitVec.toNat_ofBool, BitVec.ofNat_eq_ofNat, BitVec.toNat_ofNat]
  omega

theorem State.toNat_cfgWord {s : State} (h : s.cfg.nw ≤ 64) : s.cfgWord.toNat = 8 * 2 ^ 8 + s.cfg.nw := by
  simp only [State.cfgWord, Laws.toNat_append_mul, BitVec.ofNat_eq_ofNat, BitVec.toNat_ofNat]
  omega

theorem State.toNat_statusWord (s : State) :
    s.statusWord.toNat = s.triv.toNat * 2 ^ 17 + s.z.toNat * 2 ^ 16 + s.errcode.toNat * 2 ^ 8 + s.ovf.toNat * 2 ^ 3
      + s.err.toNat * 2 ^ 2 + s.done.toNat * 2 + s.busy.toNat := by
  simp only [State.statusWord, Laws.toNat_append_mul, BitVec.toNat_ofBool, BitVec.ofNat_eq_ofNat, BitVec.toNat_ofNat]
  omega

end

section
/-! Reset (10_state.md R54; 70_reset_and_hazards.md R280, R282). -/

theorem State.toReset_reg (s : State) (r : Reg) : s.toReset.reg r = 0 := by
  rw [State.reg, State.toReset_regs]
  revert r
  decide

/-- A reset leaves the reset state. -/
theorem atReset_toReset (s : State) : AtReset s.toReset :=
  ⟨s.toReset_reg, ⟨rfl, rfl⟩, ⟨rfl, rfl, rfl, rfl, rfl, rfl, rfl⟩, rfl, rfl, rfl, rfl, rfl, rfl⟩

/-- The reset state of a configuration is one that a reset leaves. -/
theorem State.toReset_resetFor (cfg : Config) : (State.resetFor cfg).toReset = State.resetFor cfg := rfl

end

/-- Settles O40: a hardware reset and a CTRL write with SRST set both run `toReset`. -/
theorem resetLeavesTheResetState : Obligations.ResetLeavesTheResetState := by
  refine ⟨atReset_toReset State.reset, fun s rest => ?_, fun s v rest hv => ?_⟩
  · exact ⟨_, rfl, atReset_toReset _, rfl, rfl⟩
  · have hwrite := writesTo_register s (p := .ctrl) nofun v rest
    rw [State.writePlace, s.writeCtrl_srst hv] at hwrite
    exact ⟨_, hwrite, { atReset_toReset s with }, rfl, rfl⟩

/-- Settles O59: the reset state has an idle engine and a clear STATUS, and its registers hold 0. -/
theorem resetMeetsEveryInvariant : Obligations.ResetMeetsEveryInvariant := by
  refine ⟨fun cfg => ⟨?_, .of_clear rfl rfl rfl rfl rfl, .of_idle rfl rfl, fun c w he => ?_⟩, by decide, rfl⟩
  · exact State.toReset_resetFor cfg ▸ ValuesInRange.toReset _
  · cases he

section
/-! A write to CTRL with SRST clear (10_state.md R33-R37). -/

/-- The write in the terms of 00_scope.md R8, `b` being abort_pending after it. -/
theorem State.writeCtrl_eq {s : State} {v : Word} {b : Bool} (h2 : v.getLsbD 2 = false)
    (hb : (s.abortPending || (v.getLsbD 1 && s.rhoInFlight)) = b) :
    s.writeCtrl v = { s with ie := v.getLsbD 0, win := BitVec.ofNat 4 (slice v 7 4), abortPending := b } := by
  rw [s.writeCtrl_noSrst h2, State.setCtrl, hb, extract_win]

/-- No word with RHO's opcode is in flight (log 8). -/
theorem State.rhoInFlight_eq_false {s : State} (h : ∀ c, s.eng = .busy c → slice c.word 7 0 ≠ 0x31) :
    s.rhoInFlight = false := by
  cases he : s.eng with
  | idle => exact State.rhoInFlight_idle he
  | busy c => exact Bool.eq_false_of_not_eq_true fun hr => h c he ((State.rhoInFlight_busy he).mp hr)

end

/-- Settles O37: CTRL's word holds WIN and IE, and its write is one of the effects of `writeCtrl`. -/
theorem ctrlHoldsIeAndWin : Obligations.CtrlHoldsIeAndWin := by
  intro s
  have hwrite (v : Word) : WritesTo s 0x008 v (s.writeCtrl v) := writesTo_register s (p := .ctrl) nofun v
  refine ⟨⟨s.ctrlWord, readsTo_register s (p := .ctrl) nofun, ?_⟩, fun v h2 h1 => ?_, fun v h2 _ hno => ?_,
    fun v c h2 h1 he hop => ?_, fun v h2 => ⟨s.toReset, s.writeCtrl_srst h2 ▸ hwrite v, atReset_toReset s⟩⟩
  · have hie := s.ie.toNat_lt
    have hwin := s.win.isLt
    simp only [slice, s.toNat_ctrlWord]
    omega
  · have hkeep : (s.abortPending || (v.getLsbD 1 && s.rhoInFlight)) = s.abortPending := by
      rw [h1, Bool.false_and, Bool.or_false]
    exact State.writeCtrl_eq h2 hkeep ▸ hwrite v
  · have hkeep : (s.abortPending || (v.getLsbD 1 && s.rhoInFlight)) = s.abortPending := by
      rw [State.rhoInFlight_eq_false hno, Bool.and_false, Bool.or_false]
    exact State.writeCtrl_eq h2 hkeep ▸ hwrite v
  · have hset : (s.abortPending || (v.getLsbD 1 && s.rhoInFlight)) = true := by
      rw [h1, (State.rhoInFlight_busy he).mpr hop, Bool.true_and, Bool.or_true]
    exact State.writeCtrl_eq h2 hset ▸ hwrite v

/-- Settles O38: STATUS's word holds its fields, and a write is `writeStatus` in every state. -/
theorem statusReadsFieldsAndClearsByOnes : Obligations.StatusReadsFieldsAndClearsByOnes := by
  intro s
  refine ⟨⟨s.statusWord, readsTo_register s (p := .status) nofun, ?_⟩,
    fun v => writesTo_register s (p := .status) nofun v⟩
  have htriv := s.triv.toNat_lt
  have hz := s.z.toNat_lt
  have hcode := s.errcode.isLt
  have hovf := s.ovf.toNat_lt
  have herr := s.err.toNat_lt
  have hdone := s.done.toNat_lt
  have hbusy := s.busy.toNat_lt
  rw [← s.busy_iff, ← Bool.toNat_eq_one]
  simp only [slice, s.toNat_statusWord]
  omega

/-- Settles O34: while idle CMD accepts, while busy it drops, and it reads the last word accepted. -/
theorem cmdWriteIssuesOrIsDropped : Obligations.CmdWriteIssuesOrIsDropped := by
  intro s v
  have hwrite : WritesTo s 0x010 v (s.writePlace .cmd v) := writesTo_register s (p := .cmd) nofun v
  refine ⟨fun he => ?_, fun c he => ?_, readsTo_register s (p := .cmd) nofun⟩
  · rwa [State.writePlace, (s.not_busy_iff).mpr he] at hwrite
  · rwa [State.writePlace, (s.busy_iff).mpr ⟨c, he⟩] at hwrite

/-- Settles O36: ID and CFG read as constants of the configuration, and their writes have no effect. -/
theorem idAndCfgAreConstants : Obligations.IdAndCfgAreConstants := by
  intro s hcfg
  refine ⟨readsTo_register s (p := .id) nofun, ⟨s.cfgWord, readsTo_register s (p := .cfg) nofun, ?_⟩,
    fun v => ⟨writesTo_register s (p := .id) nofun v, writesTo_register s (p := .cfg) nofun v⟩⟩
  have hnw := hcfg.2
  simp only [slice, State.toNat_cfgWord hnw]
  omega

/-- Settles O39: ITER is its two halves, and RHO_LIMIT is written while idle. -/
theorem iterAndRhoLimitRegisters : Obligations.IterAndRhoLimitRegisters := by
  intro s
  refine ⟨⟨_, _, readsTo_register s (p := .iterLo) nofun, readsTo_register s (p := .iterHi) nofun, ?_⟩,
    fun v => ⟨writesTo_register s (p := .iterLo) nofun v, writesTo_register s (p := .iterHi) nofun v⟩,
    readsTo_register s (p := .rhoLimit) nofun, fun he v => ?_⟩
  · have hiter := s.iter.isLt
    simp only [State.wordAt, BitVec.extractLsb'_toNat, Nat.shiftRight_eq_div_pow]
    omega
  · have hwrite := writesTo_register s (p := .rhoLimit) nofun v
    rwa [State.writePlace, (s.not_busy_iff).mpr he] at hwrite

end Sys2Proof.Machine

/-! The family of 20_memory.md: which transactions are bus-errored, what a read leaves, and the operand words. -/

namespace Sys2Proof.Machine

section
/-! The bus error (20_memory.md R63-R67). -/

/-- The offsets of the operand words (20_memory.md R66, R67). -/
theorem operandPlace_isSome {cfg : Config} {off : Nat} :
    (operandPlace cfg off).isSome = true ↔ 0x100 ≤ off ∧ off < 0x900 ∧ off % 0x100 / 4 < cfg.nw := by
  unfold operandPlace
  dsimp only
  split_ifs with hslot hw
  · simp only [Option.isSome_some, true_iff]
    omega
  all_goals
    simp only [Option.isSome_none, Bool.false_eq_true, false_iff]
    omega

/-- Something stands at an aligned offset exactly when the offset is defined (20_memory.md R67). -/
theorem placeAt_isSome {cfg : Config} {off : Nat} (h4 : off % 4 = 0) :
    (placeAt cfg off).isSome = true ↔ DefinedOffset cfg off := by
  unfold placeAt DefinedOffset
  split
  case h_9 =>
    have hge : 0x020 ≤ off := by
      simp only [imp_false] at *
      omega
    rw [operandPlace_isSome]
    omega
  all_goals simp

/-- A transaction reaches a place, or is bus-errored for one of the causes of R63. -/
theorem accessCheck_cases (cfg : Config) (off : BitVec 12) (strobes : BitVec 4) :
    (∃ p, accessCheck cfg off strobes = .ok p ∧ strobes = 0xF ∧ DefinedOffset cfg off.toNat) ∨
    (∃ f, accessCheck cfg off strobes = .error f ∧ ¬ (strobes = 0xF ∧ DefinedOffset cfg off.toNat)) := by
  cases hacc : accessCheck cfg off strobes with
  | ok p =>
    obtain ⟨hstrobes, h4, hplace⟩ := accessCheck_place hacc
    exact .inl ⟨p, rfl, hstrobes, (placeAt_isSome h4).mp (by simp [hplace])⟩
  | error f =>
    refine .inr ⟨f, rfl, fun ⟨hstrobes, hdef⟩ => ?_⟩
    obtain ⟨p, hplace⟩ := Option.isSome_iff_exists.mp ((placeAt_isSome hdef.1).mpr hdef)
    simp [accessCheck, hstrobes, hdef.1, hplace] at hacc

/-- A step answers a next state where no illegal transaction is next, and is a fault where one is. -/
theorem step_next_or_fault (s : State) :
    (∃ t, step s = .next t ∧ ∀ u, s.turns.head? = some u → u.Legal s.cfg) ∨
    (∃ f u, step s = .fault f ∧ s.turns.head? = some u ∧ ¬ u.Legal s.cfg) := by
  cases hturns : s.turns with
  | nil =>
    obtain ⟨t, ht⟩ := engineTurn_next s
    exact .inl ⟨t, by simp only [step, hturns, ht], nofun⟩
  | cons u rest =>
    cases u with
    | engine =>
      obtain ⟨t, ht⟩ := engineTurn_next { s with turns := rest }
      exact .inl ⟨t, by simp only [step, hturns, ht], fun u hu => by cases hu; trivial⟩
    | reset => exact .inl ⟨_, by simp only [step, hturns, hardwareReset]; rfl, fun u hu => by cases hu; trivial⟩
    | read off strobes =>
      rcases accessCheck_cases s.cfg off strobes with ⟨p, hacc, hlegal⟩ | ⟨f, hacc, hillegal⟩
      · exact .inl ⟨_, by simp only [step, hturns, busRead, hacc]; rfl, fun u hu => by cases hu; exact hlegal⟩
      · exact .inr ⟨f, _, by simp only [step, hturns, busRead, hacc], rfl, hillegal⟩
    | write off strobes v =>
      rcases accessCheck_cases s.cfg off strobes with ⟨p, hacc, hlegal⟩ | ⟨f, hacc, hillegal⟩
      · exact .inl ⟨_, by simp only [step, hturns, busWrite, hacc]; rfl, fun u hu => by cases hu; exact hlegal⟩
      · exact .inr ⟨f, _, by simp only [step, hturns, busWrite, hacc], rfl, hillegal⟩

end

/-- Settles O43: an illegal transaction is a fault, and every other turn answers a next state. -/
theorem busErrorExactlyForIllegalTransactions : Obligations.BusErrorExactlyForIllegalTransactions := by
  refine ⟨fun s => ?_, fun s r hr => ?_⟩
  · rcases step_next_or_fault s with ⟨t, ht, hlegal⟩ | ⟨f, u, hf, hu, hillegal⟩
    · exact ⟨fun ⟨f, hf⟩ => (by cases ht.symm.trans hf), fun ⟨u, hu, hillegal⟩ => absurd (hlegal u hu) hillegal⟩
    · exact ⟨fun _ => ⟨u, hu, hillegal⟩, fun _ => ⟨f, hf⟩⟩
  · rcases step_next_or_fault s with ⟨t, ht, _⟩ | ⟨f, _, hf, _⟩
    · cases ht.symm.trans hr
    · cases hf.symm.trans hr

/-- Settles O44: a step whose turn is a read is `readPlace`, which sets the answer and the count of draws only. -/
theorem readsHaveNoSideEffect : Obligations.ReadsHaveNoSideEffect := by
  intro s t off strobes hhead h
  rcases step_cases h with ⟨hm, _⟩ | ⟨_, _, p, _, _, rfl⟩ | ⟨_, _, _, _, hwrite, _⟩ | ⟨hreset, _⟩
  · rcases hm with hnil | hengine
    · simp [hnil] at hhead
    · cases hengine.symm.trans hhead
  · obtain ⟨r, d, hread⟩ := s.popped.readPlace_eq p
    rw [hread]
    rfl
  · cases hwrite.symm.trans hhead
  · cases hreset.symm.trans hhead

section
/-! Transactions at the offset of an operand word while idle (20_memory.md R66, R68). -/

variable {s : State} {w : Nat}

theorem toNat_operandWord (v w : Nat) : (operandWord v w).toNat = v / 2 ^ (32 * w) % 2 ^ 32 := BitVec.toNat_ofNat ..

/-- An aligned 32-bit transaction at the offset of an operand word reaches it. -/
theorem accessCheck_operand {cfg : Config} (hcfg : cfg.Valid) (r : Reg) (hw : w < cfg.nw) :
    accessCheck cfg (BitVec.ofNat 12 (operandOffset r w)) 0xF = .ok (.operand r w) := by
  have hnw := hcfg.2
  have hr := r.isLt
  have hoff : (BitVec.ofNat 12 (operandOffset r w)).toNat = operandOffset r w :=
    Nat.mod_eq_of_lt (by unfold operandOffset; omega)
  have h4 : operandOffset r w % 4 = 0 := by unfold operandOffset; omega
  simp [accessCheck, hoff, h4, placeAt_operandOffset r hw hnw]

/-- A read of an operand word while idle answers the word and changes nothing else. -/
theorem readsTo_operand (hcfg : s.cfg.Valid) (he : s.eng = .idle) (r : Reg) (hw : w < s.cfg.nw) :
    ReadsTo s (operandOffset r w) (operandWord (s.reg r) w) := by
  intro rest
  have hidle : ({ s with turns := rest } : State).busy = false := s.not_busy_iff.mpr he
  simp only [step, busRead, accessCheck_operand hcfg r hw, State.readPlace, hidle]
  rfl

/-- A write that is not bus-errored is acknowledged and has the effect of its place. -/
theorem writesTo_of_accessCheck {off : Nat} {p : Place} (hacc : accessCheck s.cfg (BitVec.ofNat 12 off) 0xF = .ok p)
    (v : Word) : WritesTo s off v (s.writePlace p v) := by
  intro rest
  simp only [step, busWrite, hacc, State.writePlace_turns]
  rfl

/-- A write of an operand word while idle replaces that word of its register. -/
theorem writesTo_operand (hcfg : s.cfg.Valid) (he : s.eng = .idle) (r : Reg) (hw : w < s.cfg.nw) (v : Word) :
    WritesTo s (operandOffset r w) v (s.setReg r (setOperandWord (s.reg r) w v)) := by
  have hwrite := writesTo_of_accessCheck (accessCheck_operand hcfg r hw) v
  rwa [State.writePlace, s.not_busy_iff.mpr he] at hwrite

end

/-- Settles O41: the offset of an operand word reaches that word, and a word write leaves the other words alone. -/
theorem operandWordsInTheWindow : Obligations.OperandWordsInTheWindow := by
  intro s r w hcfg he hw
  refine ⟨⟨_, readsTo_operand hcfg he r hw, toNat_operandWord _ _⟩, fun v => ?_⟩
  refine ⟨_, writesTo_operand hcfg he r hw v, rfl, ?_, fun u hu => ?_, fun q hq => s.setReg_reg_other _ hq⟩
  · rw [State.setReg_reg_same, ← toNat_operandWord, operandWord_setOperandWord_same]
  · rw [State.setReg_reg_same, ← toNat_operandWord, operandWord_setOperandWord_other _ v hu, toNat_operandWord]

end Sys2Proof.Machine

/-! The family of 30_encoding.md: the command word and its fields, the assembler text, and the host macros. -/

namespace Sys2Proof.Laws

section
/-! Encoding and decoding are inverse to each other (30_encoding.md R90-R97). -/

/-- The two halves of an immediate put together again (30_encoding.md R93). -/
theorem append_extract_imm (imm : BitVec 8) : imm.extractLsb' 4 4 ++ imm.extractLsb' 0 4 = imm := by
  revert imm; decide

/-- The fields of a command decode to it. -/
theorem decodeFields_fields (i : Instr) : decodeFields i.fields = some i := by
  cases i with
  | nop => rfl
  | ldi rd imm => simp [decodeFields, Instr.fields, Instr.opcode, decodeDI, append_extract_imm]
  | mov => simp [decodeFields, Instr.fields, Instr.opcode, decodeDA]
  | gcd => simp [decodeFields, Instr.fields, Instr.opcode, decodeDAB]
  | reduce | modinv | tomont | frommont => simp [decodeFields, Instr.fields, Instr.opcode, decodeDAM]
  | modadd | modsub | modmul | modexp | montmul | rhostep | rho =>
    simp [decodeFields, Instr.fields, Instr.opcode, decodeDABM]

@[simp] theorem decode_encode (i : Instr) : decode (encode i) = some i := by
  rw [decode, ofWord_encode, decodeFields_fields]

/-- A word decodes to a command exactly when it is that command's word. -/
theorem decode_eq_some {w : Word} {i : Instr} : decode w = some i ↔ encode i = w := by
  refine ⟨fun h => ?_, fun h => h ▸ decode_encode i⟩
  rw [encode, ← ofWord_eq_fields h, toWord_ofWord]

end

section
/-! Which words spell a command (30_encoding.md R92, R94-R98). -/

/-- A used field that passes its check names a register (30_encoding.md R92). -/
theorem fieldOk_used {f : BitVec 4} : fieldOk true f = true ↔ ∃ r, regOf? f = some r := by
  revert f; decide

/-- An unused field that passes its check is 0 (30_encoding.md R94). -/
theorem fieldOk_unused {f : BitVec 4} : fieldOk false f = true ↔ f = 0 := by
  simp [fieldOk]

/-- Fields that pass the checks decode to some command. -/
theorem decodeFields_of_wellFormed {f : Fields} (h : f.WellFormed = true) : ∃ i, decodeFields f = some i := by
  unfold Fields.WellFormed at h
  split at h
  · cases h
  · next u hu =>
    simp only [Bool.and_eq_true, Bool.or_eq_true, beq_iff_eq] at h
    obtain ⟨⟨⟨hrsv, hd⟩, hm⟩, hab⟩ := h
    unfold usedFields at hu
    split at hu <;> cases hu <;>
      simp only [fieldOk_used, fieldOk_unused, Bool.false_eq_true, false_or] at hd hm hab
    case h_1 hop => simp [decodeFields, hrsv, hop, hd, hm, hab]
    case h_3 hop =>
      obtain ⟨d, hd⟩ := hd
      simp [decodeFields, hrsv, hop, decodeDI, hd, hm]
    case h_2 hop =>
      obtain ⟨d, hd⟩ := hd
      obtain ⟨⟨a, ha⟩, hb⟩ := hab
      simp [decodeFields, hrsv, hop, decodeDA, hd, ha, hb, hm]
    case h_15 hop =>
      obtain ⟨d, hd⟩ := hd
      obtain ⟨⟨a, ha⟩, ⟨b, hb⟩⟩ := hab
      simp [decodeFields, hrsv, hop, decodeDAB, hd, ha, hb, hm]
    case h_4 hop | h_5 hop | h_6 hop | h_7 hop =>
      obtain ⟨d, hd⟩ := hd
      obtain ⟨m, hm⟩ := hm
      obtain ⟨⟨a, ha⟩, hb⟩ := hab
      simp [decodeFields, hrsv, hop, decodeDAM, hd, ha, hb, hm]
    case h_8 hop | h_9 hop | h_10 hop | h_11 hop | h_12 hop | h_13 hop | h_14 hop =>
      obtain ⟨d, hd⟩ := hd
      obtain ⟨m, hm⟩ := hm
      obtain ⟨⟨a, ha⟩, ⟨b, hb⟩⟩ := hab
      simp [decodeFields, hrsv, hop, decodeDABM, hd, ha, hb, hm]

/-- The word of every command passes the checks and carries its opcode. -/
theorem encoding_statement (i : Instr) : Encoding.Statement i := by
  cases i with
  | nop => exact Encoding.nop
  | mov => exact Encoding.mov ..
  | ldi => exact Encoding.ldi ..
  | reduce => exact Encoding.reduce ..
  | modadd => exact Encoding.modadd ..
  | modsub => exact Encoding.modsub ..
  | modmul => exact Encoding.modmul ..
  | modexp => exact Encoding.modexp ..
  | modinv => exact Encoding.modinv ..
  | montmul => exact Encoding.montmul ..
  | tomont => exact Encoding.tomont ..
  | frommont => exact Encoding.frommont ..
  | gcd => exact Encoding.gcd ..
  | rhostep => exact Encoding.rhostep ..
  | rho => exact Encoding.rho ..

/-- A word that decodes to a command passes the checks and carries its opcode. -/
theorem wellFormed_of_decode {w : Word} {i : Instr} (h : decode w = some i) :
    (Fields.ofWord w).WellFormed = true ∧ (Fields.ofWord w).op = i.opcode :=
  decode_eq_some.mp h ▸ encoding_statement i

/-- A word decodes exactly when its fields pass the checks. -/
theorem decode_isSome (w : Word) : (decode w).isSome = (Fields.ofWord w).WellFormed := by
  rw [Bool.eq_iff_iff, Option.isSome_iff_exists]
  exact ⟨fun ⟨_, h⟩ => (wellFormed_of_decode h).1, decodeFields_of_wellFormed⟩

theorem decode_eq_none {w : Word} : decode w = none ↔ (Fields.ofWord w).WellFormed = false := by
  rw [← decode_isSome, Option.isSome_eq_false_iff, Option.isNone_iff_eq_none]

/-- No field is used by an opcode of the unassigned ranges (30_encoding.md R98). -/
theorem usedFields_unassigned {op : BitVec 8} (h : (0x03 ≤ op.toNat ∧ op.toNat ≤ 0x0F) ∨ op.toNat = 0x16 ∨
    op.toNat = 0x17 ∨ (0x1B ≤ op.toNat ∧ op.toNat ≤ 0x1F) ∨ (0x21 ≤ op.toNat ∧ op.toNat ≤ 0x2F) ∨ 0x32 ≤ op.toNat) :
    usedFields op = none := by
  unfold usedFields
  split
  case h_16 => rfl
  all_goals omega

/-- Fields with an unassigned opcode fail the checks. -/
theorem wellFormed_unassigned {f : Fields} (h : usedFields f.op = none) : f.WellFormed = false := by
  simp [Fields.WellFormed, h]

end

section
/-! The opcode map's masks check the fields (30_encoding.md R96, R97). -/

/-- The mask of a register field: bit 3 where it is used, all four bits where it is not. -/
def fieldMask (used : Bool) : BitVec 4 := if used then 8 else 15

theorem fieldMask_iff {used : Bool} {f : BitVec 4} : f &&& fieldMask used = 0 ↔ fieldOk used f = true := by
  revert used f; decide

/-- The mask of a row that uses these fields. -/
def maskFields (u : UsedFields) : Fields where
  rsv := 0xFF
  rm := fieldMask u.rm
  rb := if u.imm then 0 else fieldMask u.rb
  ra := if u.imm then 0 else fieldMask u.ra
  rd := fieldMask u.rd
  op := 0xFF

/-- The rows of the opcode map: the mask of the fields used, and the opcode as the pattern. -/
theorem opcodeTable_spec : ∀ r ∈ opcodeTable, (usedFields r.op).map (fun u => (maskFields u).toWord) = some r.mask ∧
    (Fields.mk 0 0 0 0 0 r.op).toWord = r.pattern := by
  decide

/-- A row's mask leaves nothing of the fields above the opcode exactly when they pass the checks. -/
theorem wellFormed_iff_mask {f : Fields} {u : UsedFields} (hu : usedFields f.op = some u) :
    f.WellFormed = true ↔ f.rsv = 0 ∧ f.rm &&& (maskFields u).rm = 0 ∧ f.rb &&& (maskFields u).rb = 0 ∧
      f.ra &&& (maskFields u).ra = 0 ∧ f.rd &&& (maskFields u).rd = 0 := by
  simp only [Fields.WellFormed, hu, Bool.and_eq_true, Bool.or_eq_true, beq_iff_eq, maskFields, fieldMask_iff]
  cases u.imm
  · simp only [Bool.false_eq_true, if_false, fieldMask_iff]
    tauto
  · have hzero (g : BitVec 4) : g &&& 0 = 0 := BitVec.and_zero
    simp only [if_true, hzero]
    tauto

/-- A word matches a row exactly when it has the row's opcode and its fields pass the checks. -/
theorem matches_iff {r : OpcodeRow} (hr : r ∈ opcodeTable) {w : Word} :
    r.Matches w ↔ (Fields.ofWord w).op = r.op ∧ (Fields.ofWord w).WellFormed = true := by
  obtain ⟨hmask, hpattern⟩ := opcodeTable_spec r hr
  obtain ⟨u, hu, hmask⟩ := Option.map_eq_some_iff.mp hmask
  have hw := mask_iff (Fields.ofWord w) (maskFields u) ⟨0, 0, 0, 0, 0, r.op⟩
  rw [toWord_ofWord, hmask, hpattern] at hw
  rw [OpcodeRow.Matches, hw]
  have hrsv : (Fields.ofWord w).rsv &&& (maskFields u).rsv = (Fields.ofWord w).rsv := BitVec.and_allOnes
  have hop : (Fields.ofWord w).op &&& (maskFields u).op = (Fields.ofWord w).op := BitVec.and_allOnes
  rw [hrsv, hop]
  constructor
  · rintro ⟨hrsv, hrm, hrb, hra, hrd, hop⟩
    exact ⟨hop, (wellFormed_iff_mask (hop ▸ hu)).mpr ⟨hrsv, hrm, hrb, hra, hrd⟩⟩
  · rintro ⟨hop, hf⟩
    obtain ⟨hrsv, hrm, hrb, hra, hrd⟩ := (wellFormed_iff_mask (hop ▸ hu)).mp hf
    exact ⟨hrsv, hrm, hrb, hra, hrd, hop⟩

/-- No two rows have the same opcode. -/
theorem opcodeTable_op_inj : ∀ r ∈ opcodeTable, ∀ q ∈ opcodeTable, r.op = q.op → r = q := by decide

/-- Every command has a row. -/
theorem exists_row (i : Instr) : ∃ r ∈ opcodeTable, r.op = i.opcode := by
  cases i <;> simp [Instr.opcode, opcodeTable]

/-- A word matches a row exactly when it decodes to a command with the row's opcode. -/
theorem matches_iff_decode {r : OpcodeRow} (hr : r ∈ opcodeTable) {w : Word} :
    r.Matches w ↔ ∃ i, decode w = some i ∧ i.opcode = r.op := by
  rw [matches_iff hr]
  constructor
  · rintro ⟨hop, hf⟩
    obtain ⟨i, hi⟩ := decodeFields_of_wellFormed hf
    exact ⟨i, hi, (wellFormed_of_decode hi).2.symm.trans hop⟩
  · rintro ⟨i, hi, hop⟩
    obtain ⟨hf, hi⟩ := wellFormed_of_decode hi
    exact ⟨hi.trans hop, hf⟩

end

end Sys2Proof.Laws

namespace Sys2Proof.Machine

open Laws

/-- Settles O1: the fields put together are cut into the same fields, which decode to the command. -/
theorem encodeThenDecodeGivesTheCommand : Obligations.EncodeThenDecodeGivesTheCommand := decode_encode

/-- Settles O3: a word that decodes has the fields of its command, and the fields make up the word. -/
theorem decodeThenEncodeGivesTheWord : Obligations.DecodeThenEncodeGivesTheWord := fun _ _ => decode_eq_some.mp

/-- The start step of a word that spells no command raises E_ILLEGAL (60_exceptions.md R241). -/
theorem endsWithIllegal_of_decode {w : Word} (h : decode w = none) : EndsWithIllegal w := by
  rintro s c hm he hp rfl
  exact ⟨_, (step_engine hm).trans (engineTurn_illegal he hp h), errorCompletion_raiseError s.popped .illegal⟩

/-- Settles O4: each mask checks the fields that its row uses, and no two rows have one opcode. -/
theorem wordSpellsCommandByMaskAndMatch : Obligations.WordSpellsCommandByMaskAndMatch := by
  refine ⟨fun w r hr => matches_iff_decode hr, fun w r hr q hq hmr hmq => ?_, fun w hno => ?_⟩
  · exact opcodeTable_op_inj r hr q hq (((matches_iff hr).mp hmr).1.symm.trans ((matches_iff hq).mp hmq).1)
  · have hd : decode w = none := by
      by_contra hd
      obtain ⟨i, hi⟩ := Option.ne_none_iff_exists'.mp hd
      obtain ⟨r, hr, hop⟩ := exists_row i
      exact hno r hr ((matches_iff_decode hr).mpr ⟨i, hi, hop.symm⟩)
    exact ⟨hd, endsWithIllegal_of_decode hd⟩

/-- Settles O5: a word decodes exactly when its fields pass the checks, which no unassigned opcode does. -/
theorem wordIsLegalByItsFields : Obligations.WordIsLegalByItsFields := by
  have hillegal {w : Word} (h : (Fields.ofWord w).WellFormed = false) : decode w = none ∧ EndsWithIllegal w :=
    ⟨decode_eq_none.mpr h, endsWithIllegal_of_decode (decode_eq_none.mpr h)⟩
  refine ⟨fun w => ?_, decode_isSome, fun w h => (hillegal h).2, fun w h => ?_⟩
  · simp [Fields.ofWord, slice, Nat.shiftRight_eq_div_pow]
  · rw [← toNat_op] at h
    exact hillegal (wellFormed_unassigned (usedFields_unassigned h))

section
/-! Numbers and registers as text (30_encoding.md R100). -/

/-- A decimal digit has its value. -/
theorem digitValue_of_isDigit {c : Char} (h : c.isDigit = true) : digitValue 10 c = some (c.toNat - '0'.toNat) := by
  obtain ⟨hlo, hhi⟩ := Char.isDigit_iff_toNat.mp h
  have hrange : '0' ≤ c ∧ c ≤ '9' := ⟨hlo, hhi⟩
  have hlt : c.toNat - '0'.toNat < 10 := by
    have : '9'.toNat = '0'.toNat + 9 := rfl
    omega
  simp only [digitValue, if_pos hrange, if_pos hlt]

/-- Decimal digits are read as the library reads them. -/
theorem digitsValue_ten {t : List Char} (h : ∀ c ∈ t, c.isDigit = true) (acc : Nat) :
    digitsValue 10 acc t = some (Nat.ofDigitChars 10 t acc) := by
  induction t generalizing acc with
  | nil => rfl
  | cons c rest ih =>
    obtain ⟨hc, hrest⟩ := List.forall_mem_cons.mp h
    simp only [digitsValue, digitValue_of_isDigit hc, Nat.ofDigitChars_cons, ih hrest, Nat.mul_comm]

/-- Text of digits only is read in decimal. -/
theorem readImm_of_digits {t : List Char} (hne : t ≠ []) (h : ∀ c ∈ t, c.isDigit = true) :
    readImm t = if Nat.ofDigitChars 10 t 0 < 256 then some (BitVec.ofNat 8 (Nat.ofDigitChars 10 t 0)) else none := by
  have hx : ¬ 'x'.isDigit = true := by decide
  unfold readImm
  split
  · exact absurd rfl hne
  · exact absurd (h 'x' (by simp)) hx
  · rw [digitsValue_ten h]

theorem immText_ne_nil (imm : BitVec 8) : immText imm ≠ [] := Nat.toDigits_ne_nil

theorem isDigit_of_mem_immText {imm : BitVec 8} {c : Char} (h : c ∈ immText imm) : c.isDigit = true :=
  Nat.isDigit_of_mem_toDigits (by decide) (by decide) h

theorem readImm_immText (imm : BitVec 8) : readImm (immText imm) = some imm := by
  have hvalue : Nat.ofDigitChars 10 (immText imm) 0 = imm.toNat := Nat.ofDigitChars_ten_toDigits
  rw [readImm_of_digits (immText_ne_nil imm) fun _ => isDigit_of_mem_immText, hvalue, if_pos imm.isLt,
    BitVec.ofNat_toNat, BitVec.setWidth_eq]

theorem readReg_regText (r : Reg) : readReg (regText r) = some r := by
  revert r; decide

theorem readRegs_map_regText (rs : List Reg) : readRegs (rs.map regText) = some rs := by
  induction rs with
  | nil => rfl
  | cons r rs ih => simp only [List.map_cons, readRegs, readReg_regText, ih]

end

section
/-! Text cut at its commas and its blanks. -/

/-- The text of one operand: not empty, with no blank and no comma. -/
def IsOperand (t : List Char) : Prop := t ≠ [] ∧ ∀ c ∈ t, c ≠ ' ' ∧ c ≠ ','

theorem isOperand_regText (r : Reg) : IsOperand (regText r) := by
  refine ⟨List.cons_ne_nil _ _, ?_⟩
  fin_cases r <;> simp [regText, Nat.digitChar]

theorem isOperand_immText (imm : BitVec 8) : IsOperand (immText imm) := by
  refine ⟨immText_ne_nil imm, fun c h => ?_⟩
  have hc := isDigit_of_mem_immText h
  constructor <;>
    · rintro rfl
      exact absurd hc (by decide)

/-- Text with no blank at either end. -/
def IsTrimmed (t : List Char) : Prop := t.head? ≠ some ' ' ∧ t.getLast? ≠ some ' '

theorem dropWhile_blank {t : List Char} (h : t.head? ≠ some ' ') : t.dropWhile (· == ' ') = t := by
  cases t <;> simp_all

theorem trimText_of_isTrimmed {t : List Char} (h : IsTrimmed t) : trimText t = t := by
  obtain ⟨hhead, hlast⟩ := h
  rw [trimText, dropWhile_blank hhead, dropWhile_blank (by rwa [List.head?_reverse]), List.reverse_reverse]

theorem trimText_blank_cons (t : List Char) : trimText (' ' :: t) = trimText t := rfl

/-- Text between two parts that do not begin or end with a blank. -/
theorem isTrimmed_append {a b : List Char} (m : List Char) (ha : a ≠ [] ∧ ∀ c ∈ a, c ≠ ' ')
    (hb : b ≠ [] ∧ IsTrimmed b) : IsTrimmed (a ++ (m ++ b)) := by
  obtain ⟨hane, ha⟩ := ha
  obtain ⟨hbne, _, hb⟩ := hb
  constructor
  · rw [List.head?_append_of_ne_nil _ hane]
    exact fun h => ha _ (List.mem_of_mem_head? h) rfl
  · rwa [List.getLast?_append_of_ne_nil _ (by simp [hbne]), List.getLast?_append_of_ne_nil _ hbne]

theorem isTrimmed_of_no_blank {t : List Char} (h : ∀ c ∈ t, c ≠ ' ') : IsTrimmed t :=
  ⟨fun hc => h _ (List.mem_of_mem_head? hc) rfl, fun hc => h _ (List.mem_of_mem_getLast? hc) rfl⟩

theorem IsOperand.no_blank {t : List Char} (h : IsOperand t) : ∀ c ∈ t, c ≠ ' ' := fun c hc => (h.2 c hc).1

theorem IsOperand.no_comma {t : List Char} (h : IsOperand t) : ∀ c ∈ t, c ≠ ',' := fun c hc => (h.2 c hc).2

theorem IsOperand.trimText {t : List Char} (h : IsOperand t) : trimText t = t :=
  trimText_of_isTrimmed (isTrimmed_of_no_blank h.no_blank)

theorem operandsText_cons_cons (x y : List Char) (rest : List (List Char)) :
    operandsText (x :: y :: rest) = x ++ ([',', ' '] ++ operandsText (y :: rest)) := rfl

theorem operandsText_ne_nil {x : List Char} (hx : x ≠ []) (rest : List (List Char)) :
    operandsText (x :: rest) ≠ [] := by
  cases rest <;> simp [operandsText, hx]

/-- Operands separated by commas are text with no blank at either end. -/
theorem isTrimmed_operandsText {ops : List (List Char)} (h : ∀ t ∈ ops, IsOperand t) : IsTrimmed (operandsText ops) := by
  induction ops with
  | nil => exact ⟨nofun, nofun⟩
  | cons x rest ih =>
    obtain ⟨hx, hrest⟩ := List.forall_mem_cons.mp h
    cases rest with
    | nil => exact isTrimmed_of_no_blank hx.no_blank
    | cons y rest =>
      rw [operandsText_cons_cons]
      exact isTrimmed_append _ ⟨hx.1, hx.no_blank⟩
        ⟨operandsText_ne_nil (hrest y List.mem_cons_self).1 rest, ih hrest⟩

theorem splitCommas_ne_nil (t : List Char) : splitCommas t ≠ [] := by
  cases t with
  | nil => exact List.cons_ne_nil _ _
  | cons c rest =>
    unfold splitCommas
    split
    · exact List.cons_ne_nil _ _
    · split <;> exact List.cons_ne_nil _ _

/-- Text before a comma is the first part. -/
theorem splitCommas_append_comma {t : List Char} (h : ∀ c ∈ t, c ≠ ',') (u : List Char) :
    splitCommas (t ++ ',' :: u) = t :: splitCommas u := by
  induction t with
  | nil => rfl
  | cons c rest ih =>
    obtain ⟨hc, hrest⟩ := List.forall_mem_cons.mp h
    simp only [List.cons_append, splitCommas, if_neg hc, ih hrest]

/-- Text with no comma is one part. -/
theorem splitCommas_of_no_comma {t : List Char} (h : ∀ c ∈ t, c ≠ ',') : splitCommas t = [t] := by
  induction t with
  | nil => rfl
  | cons c rest ih =>
    obtain ⟨hc, hrest⟩ := List.forall_mem_cons.mp h
    simp only [splitCommas, if_neg hc, ih hrest]

/-- A blank before the text does not show in its trimmed parts. -/
theorem map_trimText_splitCommas_blank_cons (t : List Char) :
    (splitCommas (' ' :: t)).map trimText = (splitCommas t).map trimText := by
  cases h : splitCommas t with
  | nil => exact absurd h (splitCommas_ne_nil t)
  | cons x xs => simp [splitCommas, h, trimText_blank_cons]

/-- Operands separated by commas are cut into the operands. -/
theorem map_trimText_splitCommas_operandsText {x : List Char} {rest : List (List Char)}
    (h : ∀ t ∈ x :: rest, IsOperand t) : (splitCommas (operandsText (x :: rest))).map trimText = x :: rest := by
  induction rest generalizing x with
  | nil =>
    obtain ⟨hx, _⟩ := List.forall_mem_cons.mp h
    rw [operandsText, splitCommas_of_no_comma hx.no_comma, List.map_singleton, hx.trimText]
  | cons y rest ih =>
    obtain ⟨hx, hrest⟩ := List.forall_mem_cons.mp h
    rw [operandsText_cons_cons, List.cons_append, splitCommas_append_comma hx.no_comma, List.map_cons, hx.trimText,
      List.singleton_append, map_trimText_splitCommas_blank_cons, ih hrest]

end

section
/-! A line of assembler text read back (30_encoding.md R100). -/

/-- A mnemonic as the assembler writes it: not empty, with no blank and no lower-case letter. -/
def IsMnemonic (name : String) : Prop :=
  name.toList ≠ [] ∧ (∀ c ∈ name.toList, c ≠ ' ') ∧ name.toList.map Char.toUpper = name.toList

variable {name : String} {ops : List (List Char)}

theorem lineText_cons (name : String) (x : List Char) (rest : List (List Char)) :
    lineText name (x :: rest) = name.toList ++ ([' '] ++ operandsText (x :: rest)) := rfl

/-- A line has no blank at either end. -/
theorem trimText_lineText (hname : IsMnemonic name) (hops : ∀ t ∈ ops, IsOperand t) :
    trimText (lineText name ops) = lineText name ops := by
  obtain ⟨hne, hblank, _⟩ := hname
  apply trimText_of_isTrimmed
  cases ops with
  | nil => exact isTrimmed_of_no_blank hblank
  | cons x rest =>
    rw [lineText_cons]
    exact isTrimmed_append _ ⟨hne, hblank⟩
      ⟨operandsText_ne_nil (hops x List.mem_cons_self).1 rest, isTrimmed_operandsText hops⟩

/-- What stands before the first blank of a line is its mnemonic. -/
theorem mnemonic_lineText (hname : IsMnemonic name) (ops : List (List Char)) :
    String.ofList (((lineText name ops).takeWhile (· != ' ')).map Char.toUpper) = name := by
  obtain ⟨_, hblank, hupper⟩ := hname
  have htake : (lineText name ops).takeWhile (· != ' ') = name.toList := by
    cases ops with
    | nil => exact List.takeWhile_eq_self_iff.mpr (by simpa [lineText] using hblank)
    | cons x rest =>
      rw [lineText_cons, List.takeWhile_append_of_pos (by simpa using hblank)]
      simp
  rw [htake, hupper, String.ofList_toList]

/-- What stands after the first blank of a line is its operands. -/
theorem operands_lineText (hname : IsMnemonic name) (hops : ∀ t ∈ ops, IsOperand t) :
    trimText ((lineText name ops).dropWhile (· != ' ')) = operandsText ops := by
  obtain ⟨_, hblank, _⟩ := hname
  cases ops with
  | nil =>
    have hdrop : (lineText name []).dropWhile (· != ' ') = [] :=
      List.dropWhile_eq_nil_iff.mpr (by simpa [lineText] using hblank)
    rw [hdrop]
    rfl
  | cons x rest =>
    rw [lineText_cons, List.dropWhile_append_of_pos (by simpa using hblank)]
    exact trimText_of_isTrimmed (isTrimmed_operandsText hops)

/-- The operands of a line are cut apart again. -/
theorem split_operandsText (hops : ∀ t ∈ ops, IsOperand t) :
    (if operandsText ops = [] then [] else (splitCommas (operandsText ops)).map trimText) = ops := by
  cases ops with
  | nil => rfl
  | cons x rest =>
    rw [if_neg (operandsText_ne_nil (hops x List.mem_cons_self).1 rest), map_trimText_splitCommas_operandsText hops]

/-- A line with register operands reads as the command of its mnemonic. -/
theorem readAsm_registers (hname : IsMnemonic name) (hldi : name ≠ "LDI") (rs : List Reg) :
    readAsm (lineText name (rs.map regText)) = ofRegs name rs := by
  have hops : ∀ t ∈ rs.map regText, IsOperand t := by simp [isOperand_regText]
  simp only [readAsm, trimText_lineText hname hops, mnemonic_lineText hname, operands_lineText hname hops,
    split_operandsText hops, if_neg hldi, readRegs_map_regText]

/-- LDI's line reads as LDI (30_encoding.md R93). -/
theorem readAsm_ldi (rd : Reg) (imm : BitVec 8) :
    readAsm (lineText "LDI" [regText rd, immText imm]) = some (.ldi rd imm) := by
  have hname : IsMnemonic "LDI" := by simp [IsMnemonic]
  have hops : ∀ t ∈ [regText rd, immText imm], IsOperand t := by simp [isOperand_regText, isOperand_immText]
  simp only [readAsm, trimText_lineText hname hops, mnemonic_lineText hname, operands_lineText hname hops,
    split_operandsText hops, if_true, readReg_regText, readImm_immText]

end

/-- Settles O2: a line is cut into its mnemonic and operands again, and each operand is read back. -/
theorem assemblerTextReadsBack : Obligations.AssemblerTextReadsBack := by
  intro i
  cases i with
  | ldi rd imm => exact readAsm_ldi rd imm
  | nop => exact readAsm_registers (by simp [IsMnemonic]) (by simp) []
  | mov rd ra => exact readAsm_registers (by simp [IsMnemonic]) (by simp) [rd, ra]
  | reduce rd ra rm | modinv rd ra rm | tomont rd ra rm | frommont rd ra rm =>
    exact readAsm_registers (by simp [IsMnemonic]) (by simp) [rd, ra, rm]
  | gcd rd ra rb => exact readAsm_registers (by simp [IsMnemonic]) (by simp) [rd, ra, rb]
  | modadd rd ra rb rm | modsub rd ra rb rm | modmul rd ra rb rm | modexp rd ra rb rm | montmul rd ra rb rm
  | rhostep rd ra rb rm | rho rd ra rb rm =>
    exact readAsm_registers (by simp [IsMnemonic]) (by simp) [rd, ra, rb, rm]

section
/-! Runs of the host macros WREG and ISSUE (30_encoding.md R102). -/

/-- A run goes on from where its first step leads. -/
theorem run_succ {s t : State} (h : step s = .next t) (k : Nat) : core.run (k + 1) s = core.run k t := by
  have hstep : core.step s = .next t := h
  simp only [Host.Core.run, hstep]

/-- Where a value agrees with `v` below word `w`, writing word `w` of `v` makes it agree up to that word. -/
theorem setOperandWord_mod {u v w : Nat} (h : u % 2 ^ (32 * w) = v % 2 ^ (32 * w)) :
    setOperandWord u w (operandWord v w) % 2 ^ (32 * (w + 1)) = v % 2 ^ (32 * (w + 1)) := by
  obtain ⟨_, hword, hlow⟩ := setOperandWord_parts u w (operandWord v w)
  rw [pow_word_succ, Nat.mod_mul, Nat.mod_mul, hword, hlow, toNat_operandWord, h]

/-- WREG's last `k + 1` writes leave the whole value, where the words below them are written. -/
theorem run_wregFrom {r : Reg} {v : Nat} (k : Nat) {s : State} {w : Nat} (hcfg : s.cfg.Valid) (he : s.eng = .idle)
    (hw : w + (k + 1) = s.cfg.nw) (hs : s.reg r < 2 ^ (32 * s.cfg.nw)) (hv : v < 2 ^ (32 * s.cfg.nw))
    (hlow : s.reg r % 2 ^ (32 * w) = v % 2 ^ (32 * w)) :
    core.run (k + 1) { s with turns := wregFrom r v w (k + 1) }
      = .next { s with turns := [], response := .ack, regs := s.regs.set r v } := by
  induction k generalizing s w with
  | zero =>
    have hwrite := writesTo_operand hcfg he r (w := w) (by omega) (operandWord v w) []
    have hvalue : setOperandWord (s.reg r) w (operandWord v w) = v := by
      have hmod := setOperandWord_mod hlow
      rwa [hw, Nat.mod_eq_of_lt (setOperandWord_lt _ hs (by omega)), Nat.mod_eq_of_lt hv] at hmod
    rw [hvalue] at hwrite
    exact run_succ hwrite 0
  | succ k ih =>
    have hwrite := writesTo_operand hcfg he r (w := w) (by omega) (operandWord v w) (wregFrom r v (w + 1) (k + 1))
    have hlt := setOperandWord_lt (operandWord v w) hs (w := w) (by omega)
    have hmod := setOperandWord_mod hlow
    generalize setOperandWord (s.reg r) w (operandWord v w) = u at hwrite hlt hmod
    have hreg : ((s.setReg r u).respond .ack).reg r = u := s.setReg_reg_same r u
    have hw' : w + 1 + (k + 1) = s.cfg.nw := by omega
    have hrest := ih (s := (s.setReg r u).respond .ack) hcfg he hw' (by rwa [hreg]) hv (by rwa [hreg])
    refine (run_succ hwrite (k + 1)).trans (hrest.trans ?_)
    simp only [State.respond_regs, State.setReg_regs, Vector.set_set]
    rfl

/-- With no turn listed, a run of one step of a command in phase Start is its start step (60_exceptions.md R241). -/
theorem run_one_of_start {s : State} {c : Command} {i : Instr} (hturns : s.turns = []) (he : s.eng = .busy c)
    (hp : c.phase = .start) (hd : decode c.word = some i) : core.run 1 s = exec i s := by
  obtain ⟨t, ht⟩ := exec_next i s
  have hstep : step s = .next t := by simp only [step, hturns, engineTurn_start he hp hd, ht]
  exact (run_succ hstep 0).trans ht.symm

end

/-- Settles O42: each of the NW writes puts one more word of the value in place. -/
theorem wregWritesTheWholeRegister : Obligations.WregWritesTheWholeRegister := by
  intro s r v hcfg he hs hv
  obtain ⟨k, hk⟩ := Nat.exists_eq_add_one_of_ne_zero (Nat.ne_of_gt hcfg.1)
  have hlow : s.reg r % 2 ^ (32 * 0) = v % 2 ^ (32 * 0) := by simp [Nat.mod_one]
  have hrun := run_wregFrom k hcfg he (by omega) hs hv hlow
  rwa [← hk] at hrun

/-- Settles O46: the CMD write accepts the word, which decodes to the command, and the engine's turn runs it. -/
theorem issuedCommandRuns : Obligations.IssuedCommandRuns := by
  intro s i he
  have hwrite := (cmdWriteIssuesOrIsDropped s (encode i)).1 he []
  exact (run_succ hwrite 1).trans (run_one_of_start (c := s.latchOf (encode i)) rfl rfl rfl (decode_encode i))

/-- Settles O6: each command encodes to its word, which decodes back, and the contrast words fail the checks. -/
theorem exampleWordsDecode : Obligations.ExampleWordsDecode := by
  have hword {w : Word} {i : Instr} (h : encode i = w) : decode w = some i ∧ encode i = w :=
    ⟨decode_eq_some.mpr h, h⟩
  exact ⟨hword rfl, hword rfl, hword rfl, hword rfl, hword rfl, hword rfl, decode_eq_none.mpr rfl,
    decode_eq_none.mpr rfl⟩

end Sys2Proof.Machine

/-! The family of 40_data_movement.md: which words spell a command, read off the row of the opcode map and the operand fields,
and the register plumbing. -/

namespace Sys2Proof.Laws

section
/-! A word spells a command exactly when it matches the command's row and its used fields are the command's operands
(30_encoding.md R91-R97). -/

/-- The number in a used register field is the register's (30_encoding.md R92). -/
@[simp] theorem toNat_regField (r : Reg) : (regField r).toNat = r.val := by
  revert r; decide

/-- A word decodes to a command exactly when its fields are the command's. -/
theorem decode_eq_some_iff_fields {w : Word} {i : Instr} : decode w = some i ↔ Fields.ofWord w = i.fields := by
  refine ⟨ofWord_eq_fields, fun h => ?_⟩
  rw [decode, h, decodeFields_fields]

/-- Two fields that pass their check are equal where they agree if used: unused, both are 0 (30_encoding.md R94). -/
theorem eq_of_fieldOk {used : Bool} {f g : BitVec 4} (hf : fieldOk used f = true) (hg : fieldOk used g = true)
    (h : used = true → f = g) : f = g := by
  cases used
  · exact (fieldOk_unused.mp hf).trans (fieldOk_unused.mp hg).symm
  · exact h rfl

/-- Fields that pass the checks are fixed by the opcode and the used fields; an immediate uses RB and RA. -/
theorem wellFormed_ext {f g : Fields} {u : UsedFields} (hu : usedFields f.op = some u) (hop : f.op = g.op)
    (hf : f.WellFormed = true) (hg : g.WellFormed = true) (hd : u.rd = true → f.rd = g.rd)
    (ha : (u.ra || u.imm) = true → f.ra = g.ra) (hb : (u.rb || u.imm) = true → f.rb = g.rb)
    (hm : u.rm = true → f.rm = g.rm) : f = g := by
  simp only [Fields.WellFormed, hu, ← hop, Bool.and_eq_true, Bool.or_eq_true, beq_iff_eq] at hf hg
  obtain ⟨⟨⟨hfrsv, hfd⟩, hfm⟩, hfab⟩ := hf
  obtain ⟨⟨⟨hgrsv, hgd⟩, hgm⟩, hgab⟩ := hg
  have hab : f.ra = g.ra ∧ f.rb = g.rb := by
    cases himm : u.imm
    · simp only [himm, Bool.or_false, Bool.false_eq_true, false_or] at ha hb hfab hgab
      exact ⟨eq_of_fieldOk hfab.1 hgab.1 ha, eq_of_fieldOk hfab.2 hgab.2 hb⟩
    · simp only [himm, Bool.or_true, forall_const] at ha hb
      exact ⟨ha, hb⟩
  exact fields_ext (hfrsv.trans hgrsv.symm) (eq_of_fieldOk hfd hgd hd) hab.1 hab.2 (eq_of_fieldOk hfm hgm hm) (by rw [hop])

/-- A word decodes to a command exactly when it matches the command's row and each field that the row uses is the
command's. -/
theorem decode_eq_some_iff_matches {r : OpcodeRow} (hr : r ∈ opcodeTable) {i : Instr} (hop : i.opcode = r.op)
    {u : UsedFields} (hu : usedFields r.op = some u) {w : Word} :
    decode w = some i ↔ r.Matches w ∧ (u.rd = true → slice w 11 8 = i.fields.rd.toNat) ∧
      ((u.ra || u.imm) = true → slice w 15 12 = i.fields.ra.toNat) ∧
        ((u.rb || u.imm) = true → slice w 19 16 = i.fields.rb.toNat) ∧
          (u.rm = true → slice w 23 20 = i.fields.rm.toNat) := by
  obtain ⟨-, hm, hb, ha, hd, -⟩ := Machine.wordIsLegalByItsFields.1 w
  rw [← hd, ← ha, ← hb, ← hm]
  simp only [BitVec.toNat_inj]
  constructor
  · intro h
    rw [ofWord_eq_fields h]
    exact ⟨(matches_iff_decode hr).mpr ⟨i, h, hop⟩, fun _ => rfl, fun _ => rfl, fun _ => rfl, fun _ => rfl⟩
  · rintro ⟨hrow, hd, ha, hb, hm⟩
    obtain ⟨hwop, hw⟩ := (matches_iff hr).mp hrow
    obtain ⟨hi, hiop⟩ := encoding_statement i
    rw [ofWord_encode] at hi hiop
    have hops : (Fields.ofWord w).op = i.fields.op := by rw [hwop, hiop, hop]
    exact decode_eq_some_iff_fields.mpr (wellFormed_ext (hwop ▸ hu) hops hw hi hd ha hb hm)

/-- The halves of LDI's immediate are the RB and RA fields, its bits 19:12 together (30_encoding.md R90, R93). -/
theorem slice_imm {w : Word} {imm : BitVec 8} : slice w 15 12 = (imm.extractLsb' 0 4).toNat ∧
    slice w 19 16 = (imm.extractLsb' 4 4).toNat ↔ slice w 19 12 = imm.toNat := by
  have himm := imm.isLt
  simp only [slice, BitVec.extractLsb'_toNat, Nat.shiftRight_eq_div_pow]
  omega

end

end Sys2Proof.Laws

namespace Sys2Proof.Machine

open Laws

/-- Settles O10: NOP's row uses no field, and its start step is the success completion that writes nothing. -/
theorem nopCompletesWritingNothing : Obligations.NopCompletesWritingNothing := by
  refine ⟨fun w => ?_, fun s => ⟨_, rfl, fun _ => rfl, rfl, successCompletion_complete s [] false false⟩⟩
  have hrow := decode_eq_some_iff_matches (r := ⟨0x00, 0x00000000, 0xFFFFFFFF⟩) (by decide) (i := .nop) rfl rfl (w := w)
  simpa using hrow

/-- Settles O11: MOV's row uses RD and RA, and its start step is the success completion of `rd` with the value of `ra`. -/
theorem movCopiesRegister : Obligations.MovCopiesRegister := by
  refine ⟨fun w rd ra => ?_, fun s rd ra => ⟨_, rfl, succeedsWith_completeWith s rd (s.reg ra)⟩⟩
  have hrow := decode_eq_some_iff_matches (r := ⟨0x01, 0x00000001, 0xFFFF88FF⟩) (by decide) (i := .mov rd ra) rfl rfl
    (w := w)
  simpa [Instr.fields] using hrow

/-- Settles O12: LDI's row uses RD and the immediate, and its start step is the success completion of `rd` with it. -/
theorem ldiLoadsImmediate : Obligations.LdiLoadsImmediate := by
  refine ⟨fun w rd imm => ?_, fun s rd imm => ⟨_, rfl, succeedsWith_completeWith s rd imm.toNat⟩⟩
  have hrow := decode_eq_some_iff_matches (r := ⟨0x02, 0x00000002, 0xFFF008FF⟩) (by decide) (i := .ldi rd imm) rfl rfl
    (w := w)
  rw [← slice_imm]
  simpa [Instr.fields] using hrow

end Sys2Proof.Machine

/-! The family of 41_modular_arith.md: the commands with a modulus 0 as their first error, and the exponentiation schedules. -/

namespace Sys2Proof.Laws

section
/-! The rows of the opcode map with a modulus register (30_encoding.md R96), read off field by field. -/

variable {r : OpcodeRow} {i : Instr} {rd ra rb rm : Reg} {w : Word}

/-- A row that uses RD, RA and RM. -/
theorem decode_eq_some_iff_dam (hr : r ∈ opcodeTable) (hop : i.opcode = r.op)
    (hu : usedFields r.op = some ⟨true, true, false, true, false⟩)
    (hi : i.fields = ⟨0, regField rm, 0, regField ra, regField rd, i.opcode⟩) :
    decode w = some i ↔
      r.Matches w ∧ slice w 11 8 = rd.val ∧ slice w 15 12 = ra.val ∧ slice w 23 20 = rm.val := by
  rw [decode_eq_some_iff_matches hr hop hu, hi]
  simp

/-- A row that uses RD, RA, RB and RM. -/
theorem decode_eq_some_iff_dabm (hr : r ∈ opcodeTable) (hop : i.opcode = r.op)
    (hu : usedFields r.op = some ⟨true, true, true, true, false⟩)
    (hi : i.fields = ⟨0, regField rm, regField rb, regField ra, regField rd, i.opcode⟩) :
    decode w = some i ↔ r.Matches w ∧ slice w 11 8 = rd.val ∧ slice w 15 12 = ra.val ∧
      slice w 19 16 = rb.val ∧ slice w 23 20 = rm.val := by
  rw [decode_eq_some_iff_matches hr hop hu, hi]
  simp

end

end Sys2Proof.Laws

namespace Sys2Proof.Machine

open Laws

section
/-! The two checks that the commands with a modulus share, the modulus before the residues (41_modular_arith.md R140, R141,
42_montgomery.md R181). -/

/-- E_MOD for a bad modulus, else E_RANGE for operands that are no residues, else the outcome `o`. -/
def checked (s : State) (bad : Prop) [Decidable bad] (residues : Bool) (o : Host.Outcome State Fault Refusal) :
    Host.Outcome State Fault Refusal :=
  if bad then .next (s.raiseError .modulus) else if residues then o else .next (s.raiseError .range)

variable {s : State} {bad : Prop} [Decidable bad] {residues : Bool} {o : Host.Outcome State Fault Refusal}

/-- A bad modulus ends with E_MOD, whatever the operands are. -/
theorem checked_modulus (h : bad) : ∃ t, checked s bad residues o = .next t ∧ ErrorCompletion s t 2 :=
  ⟨_, if_pos h, errorCompletion_raiseError s .modulus⟩

/-- Operands that are no residues of a good modulus end with E_RANGE. -/
theorem checked_range (h : ¬ bad) (hres : ¬ residues = true) :
    ∃ t, checked s bad residues o = .next t ∧ ErrorCompletion s t 3 :=
  ⟨_, (if_neg h).trans (if_neg hres), errorCompletion_raiseError s .range⟩

/-- Where both checks pass, the outcome is the command's own. -/
theorem checked_passes (h : ¬ bad) (hres : residues = true) : checked s bad residues o = o :=
  (if_neg h).trans (if_pos hres)

theorem isResidue_iff {a n : Nat} : isResidue a n = true ↔ a < n := decide_eq_true_iff

theorem isResidue_and_iff {a b n : Nat} : (isResidue a n && isResidue b n) = true ↔ a < n ∧ b < n := by
  rw [Bool.and_eq_true, isResidue_iff, isResidue_iff]

end

section
/-! The start steps of the commands, each through the two checks (41_modular_arith.md R144-R154). -/

variable (s : State) (rd ra rb rm : Reg)

theorem exec_modadd : exec (.modadd rd ra rb rm) s =
    checked s (s.reg rm = 0) (isResidue (s.reg ra) (s.reg rm) && isResidue (s.reg rb) (s.reg rm))
      (.next (s.completeWith rd ((s.reg ra + s.reg rb) % s.reg rm))) := rfl

theorem exec_modsub : exec (.modsub rd ra rb rm) s =
    checked s (s.reg rm = 0) (isResidue (s.reg ra) (s.reg rm) && isResidue (s.reg rb) (s.reg rm))
      (.next (s.completeWith rd
        (if s.reg rb ≤ s.reg ra then s.reg ra - s.reg rb else s.reg ra + s.reg rm - s.reg rb))) := rfl

theorem exec_modmul : exec (.modmul rd ra rb rm) s =
    checked s (s.reg rm = 0) (isResidue (s.reg ra) (s.reg rm) && isResidue (s.reg rb) (s.reg rm))
      (.next (s.completeWith rd (s.reg ra * s.reg rb % s.reg rm))) := rfl

/-- MODEXP's value is the power, by the binary method (41_modular_arith.md R150, R152). -/
theorem exec_modexp : exec (.modexp rd ra rb rm) s =
    checked s (s.reg rm = 0) (isResidue (s.reg ra) (s.reg rm))
      (.next (s.completeWith rd (s.reg ra ^ s.reg rb % s.reg rm))) := by
  rw [← modPow_eq]
  rfl

theorem exec_modinv : exec (.modinv rd ra rm) s =
    checked s (s.reg rm = 0) (isResidue (s.reg ra) (s.reg rm))
      (if Nat.gcd (s.reg ra) (s.reg rm) = 1 then .next (s.completeWith rd (modInv (s.reg ra) (s.reg rm)))
        else .next (s.raiseError .noinv)) := rfl

end

section
/-! What the checks give for a modulus that is bad where it is 0. -/

variable {s : State} {rd : Reg} {a b n v : Nat} {o : Host.Outcome State Fault Refusal}

/-- The errors of a command with one residue operand (41_modular_arith.md R150, R154). -/
theorem checked_errors_of_one :
    (n = 0 → ∃ t, checked s (n = 0) (isResidue a n) o = .next t ∧ ErrorCompletion s t 2) ∧
    (0 < n → n ≤ a → ∃ t, checked s (n = 0) (isResidue a n) o = .next t ∧ ErrorCompletion s t 3) :=
  ⟨checked_modulus, fun hn ha => checked_range (by omega) (by rw [isResidue_iff]; omega)⟩

/-- A residue operand passes the checks. -/
theorem checked_of_residue (ha : a < n) : checked s (n = 0) (isResidue a n) o = o :=
  checked_passes (by omega) (isResidue_iff.mpr ha)

/-- The completions of a command with two residue operands that writes `v` (41_modular_arith.md R144, R146, R148). -/
theorem checked_completions_of_two :
    (n = 0 → ∃ t, checked s (n = 0) (isResidue a n && isResidue b n) (.next (s.completeWith rd v)) = .next t ∧
      ErrorCompletion s t 2) ∧
    (0 < n → n ≤ a ∨ n ≤ b →
      ∃ t, checked s (n = 0) (isResidue a n && isResidue b n) (.next (s.completeWith rd v)) = .next t ∧
        ErrorCompletion s t 3) ∧
    (a < n → b < n →
      ∃ t, checked s (n = 0) (isResidue a n && isResidue b n) (.next (s.completeWith rd v)) = .next t ∧
        SucceedsWith s t rd v) := by
  refine ⟨checked_modulus, fun hn hab => checked_range (by omega) ?_, fun ha hb => ⟨_, checked_passes (by omega) ?_, ?_⟩⟩
  · rw [isResidue_and_iff]
    omega
  · exact isResidue_and_iff.mpr ⟨ha, hb⟩
  · exact succeedsWith_completeWith s rd v

end

/-- Settles O17: the row uses four registers, and the binary method gives the power of a residue. -/
theorem modexpGivesPowerModulo : Obligations.ModexpGivesPowerModulo := by
  refine ⟨fun w rd ra rb rm => decode_eq_some_iff_dabm (r := ⟨0x14, 0x00000014, 0xFF8888FF⟩) (by decide) rfl rfl rfl,
    fun s rd ra rb rm => ?_⟩
  rw [exec_modexp]
  obtain ⟨hmodulus, hrange⟩ := checked_errors_of_one (s := s)
  exact ⟨hmodulus, hrange, fun ha => ⟨_, checked_of_residue ha, succeedsWith_completeWith ..⟩⟩

/-- Settles O18: the row uses three registers, and the extended Euclidean algorithm finds the one inverse of a residue
coprime to the modulus. -/
theorem modinvGivesTheInverse : Obligations.ModinvGivesTheInverse := by
  refine ⟨fun w rd ra rm => decode_eq_some_iff_dam (r := ⟨0x15, 0x00000015, 0xFF8F88FF⟩) (by decide) rfl rfl rfl,
    fun s rd ra rm => ?_⟩
  rw [exec_modinv]
  obtain ⟨hmodulus, hrange⟩ := checked_errors_of_one (s := s)
  refine ⟨hmodulus, hrange, fun ha hg => ?_, fun ha hg => ?_⟩
  · exact ⟨_, (checked_of_residue ha).trans (if_neg hg), errorCompletion_raiseError s .noinv⟩
  · obtain ⟨hlt, hinv⟩ := modInv_spec ha hg
    exact ⟨_, _, (checked_of_residue ha).trans (if_pos hg), succeedsWith_completeWith .., hlt, hinv,
      fun d' hd' h' => inverse_unique hg hd' hlt h' hinv⟩

/-- Settles O13: the row uses three registers, and there is no residue check. -/
theorem reduceGivesRemainder : Obligations.ReduceGivesRemainder := by
  refine ⟨fun w rd ra rm => decode_eq_some_iff_dam (r := ⟨0x10, 0x00000010, 0xFF8F88FF⟩) (by decide) rfl rfl rfl,
    fun s rd ra rm => ⟨fun hn => ?_, fun hn => ?_⟩⟩
  · exact ⟨_, if_pos hn, errorCompletion_raiseError s .modulus⟩
  · exact ⟨_, if_neg hn.ne', succeedsWith_completeWith ..⟩

/-- Settles O14: the row uses four registers, and both operands are checked. -/
theorem modaddGivesSumModulo : Obligations.ModaddGivesSumModulo := by
  refine ⟨fun w rd ra rb rm => decode_eq_some_iff_dabm (r := ⟨0x11, 0x00000011, 0xFF8888FF⟩) (by decide) rfl rfl rfl,
    fun s rd ra rb rm => ?_⟩
  rw [exec_modadd]
  exact checked_completions_of_two

/-- Settles O15: as MODADD, with the difference by which operand is larger. -/
theorem modsubGivesDifferenceModulo : Obligations.ModsubGivesDifferenceModulo := by
  refine ⟨fun w rd ra rb rm => decode_eq_some_iff_dabm (r := ⟨0x12, 0x00000012, 0xFF8888FF⟩) (by decide) rfl rfl rfl,
    fun s rd ra rb rm => ?_⟩
  rw [exec_modsub]
  obtain ⟨hmodulus, hrange, hsuccess⟩ := checked_completions_of_two (s := s) (rd := rd) (a := s.reg ra) (b := s.reg rb)
    (n := s.reg rm) (v := if s.reg rb ≤ s.reg ra then s.reg ra - s.reg rb else s.reg ra + s.reg rm - s.reg rb)
  refine ⟨hmodulus, hrange, fun ha hb hle => ?_, fun ha hb hlt => ?_⟩
  · simpa only [if_pos hle] using hsuccess ha hb
  · simpa only [if_neg hlt.not_ge] using hsuccess ha hb

/-- Settles O16: as MODADD, with the exact product and no condition of oddness. -/
theorem modmulGivesProductModulo : Obligations.ModmulGivesProductModulo := by
  refine ⟨fun w rd ra rb rm => decode_eq_some_iff_dabm (r := ⟨0x13, 0x00000013, 0xFF8888FF⟩) (by decide) rfl rfl rfl,
    fun s rd ra rb rm => ?_⟩
  rw [exec_modmul]
  exact checked_completions_of_two

section
/-! The number that bits spell, most significant first. -/

/-- Bits after the bits of `v`. -/
theorem foldl_bits (bits : List Bool) (v : Nat) :
    bits.foldl (fun v b => 2 * v + b.toNat) v = v * 2 ^ bits.length + spelled bits := by
  induction bits generalizing v with
  | nil => simp [spelled]
  | cons b bits ih =>
    rw [spelled, List.foldl_cons, List.foldl_cons, ih, ih (2 * 0 + b.toNat), List.length_cons]
    ring

theorem spelled_append (xs ys : List Bool) : spelled (xs ++ ys) = spelled xs * 2 ^ ys.length + spelled ys := by
  rw [spelled, List.foldl_append, foldl_bits, ← spelled]

theorem spelled_cons (b : Bool) (bits : List Bool) : spelled (b :: bits) = b.toNat * 2 ^ bits.length + spelled bits := by
  have happ := spelled_append [b] bits
  simpa [spelled] using happ

theorem spelled_lt (bits : List Bool) : spelled bits < 2 ^ bits.length := by
  induction bits with
  | nil => simp [spelled]
  | cons b bits ih =>
    have hb : b.toNat * 2 ^ bits.length ≤ 1 * 2 ^ bits.length := Nat.mul_le_mul_right _ b.toNat_le
    rw [spelled_cons, List.length_cons, pow_succ]
    omega

theorem bitsFromTop_length (e k : Nat) : (bitsFromTop e k).length = k := by
  induction k with
  | zero => rfl
  | succ k ih => rw [bitsFromTop, List.length_cons, ih]

/-- The low `k` bits of `e` spell `e` modulo `2^k`. -/
theorem spelled_bitsFromTop (e k : Nat) : spelled (bitsFromTop e k) = e % 2 ^ k := by
  induction k with
  | zero => simp [bitsFromTop, spelled, Nat.mod_one]
  | succ k ih =>
    rw [bitsFromTop, spelled_cons, bitsFromTop_length, ih, Nat.mod_pow_succ, Nat.toNat_testBit]
    ring

end

section
/-! A window of the sliding-window method (41_modular_arith.md R153). -/

/-- The window found at a 1 bit: the front of the bits, at least one and at most `k` of them, that spell an odd number. -/
theorem windowRun_spec {k : Nat} (hk : 1 ≤ k) (rest : List Bool) :
    windowRun k (true :: rest) <+: true :: rest ∧ 1 ≤ (windowRun k (true :: rest)).length ∧
      (windowRun k (true :: rest)).length ≤ k ∧ spelled (windowRun k (true :: rest)) % 2 = 1 := by
  have hrun : windowRun k (true :: rest) = ((true :: rest).take k).rdropWhile (fun b => !b) := rfl
  have hpre : windowRun k (true :: rest) <+: (true :: rest).take k := hrun ▸ List.rdropWhile_prefix _ _
  have hne : windowRun k (true :: rest) ≠ [] := by
    rw [hrun, Ne, List.rdropWhile_eq_nil_iff]
    intro hzeros
    obtain ⟨j, rfl⟩ := Nat.exists_eq_add_of_le' hk
    simpa using hzeros true (by simp)
  have hlast : (windowRun k (true :: rest)).getLast hne = true := by
    have hnot := List.rdropWhile_last_not (fun b => !b) ((true :: rest).take k) (hrun ▸ hne)
    simpa only [hrun, Bool.not_eq_true', Bool.not_eq_false] using hnot
  refine ⟨hpre.trans (List.take_prefix _ _), List.length_pos_of_ne_nil hne, ?_, ?_⟩
  · exact hpre.length_le.trans (List.length_take_le _ _)
  · rw [← List.dropLast_append_getLast hne, hlast, spelled_append]
    simp [spelled]

/-- `k` squarings raise to the power `2^k`. -/
theorem squareTimes_eq (n k x : Nat) : squareTimes n k (x % n) = x ^ 2 ^ k % n := by
  induction k generalizing x with
  | zero => simp [squareTimes]
  | succ k ih => rw [squareTimes, ← Nat.mul_mod, ih, ← pow_two, ← pow_mul, pow_succ']

/-- Entry `i` of the powers `p, p·q, p·q², …` modulo `n`. -/
theorem powersFrom_getD {n q i count : Nat} (hi : i < count) (p : Nat) :
    (powersFrom n (q % n) count (p % n)).getD i 0 = p * q ^ i % n := by
  induction count generalizing i p with
  | zero => omega
  | succ count ih =>
    cases i with
    | zero => simp [powersFrom]
    | succ i =>
      rw [powersFrom, List.getD_cons_succ, ← Nat.mul_mod, ih (by omega), pow_succ']
      ring_nf

/-- The table holds the odd power of every odd number of at most `k` bits. -/
theorem oddPowers_getD {k m : Nat} (hk : 1 ≤ k) (hm : m < 2 ^ k) (hodd : m % 2 = 1) (a n : Nat) :
    (oddPowers k a n).getD (m / 2) 0 = a ^ m % n := by
  have hi : m / 2 < 2 ^ (k - 1) := by
    have hpow : 2 ^ k = 2 ^ (k - 1) * 2 := by rw [← pow_succ, Nat.sub_add_cancel hk]
    omega
  have hm2 : m = 2 * (m / 2) + 1 := by omega
  rw [oddPowers, powersFrom_getD hi, ← pow_two, ← pow_mul, ← pow_succ', ← hm2]

/-- The scan turns the power of the bits before it into the power of all the bits: each 0 squares, and each window squares as
often as it has bits and multiplies by its odd power. -/
theorem slideWindow_eq {k : Nat} (hk : 1 ≤ k) (a n fuel : Nat) (bits : List Bool) (hfuel : bits.length ≤ fuel) (x : Nat) :
    slideWindow k n (oddPowers k a n) fuel bits (x % n) = x ^ 2 ^ bits.length * a ^ spelled bits % n := by
  induction fuel generalizing bits x with
  | zero =>
    obtain rfl := List.length_eq_zero_iff.mp (Nat.le_zero.mp hfuel)
    simp [slideWindow, spelled]
  | succ fuel ih =>
    match bits, hfuel with
    | [], _ => simp [slideWindow, spelled]
    | false :: rest, hfuel =>
      rw [List.length_cons] at hfuel ⊢
      rw [slideWindow, ← Nat.mul_mod, ih rest (by omega), spelled_cons, ← pow_two, ← pow_mul, ← pow_succ']
      simp
    | true :: rest, hfuel =>
      obtain ⟨hprefix, hpos, hle, hodd⟩ := windowRun_spec hk rest
      have hsplit := List.prefix_iff_eq_append.mp hprefix
      rw [slideWindow]
      generalize windowRun k (true :: rest) = run at *
      generalize (true :: rest).drop run.length = after at *
      have hlt : spelled run < 2 ^ k := (spelled_lt run).trans_le (Nat.pow_le_pow_right (by omega) hle)
      rw [← hsplit, List.length_append] at hfuel
      rw [oddPowers_getD hk hlt hodd, squareTimes_eq, ← Nat.mul_mod, ih after (by omega), ← hsplit, spelled_append,
        List.length_append]
      congr 1
      ring

end

/-- Sliding-window exponentiation computes the power for every width of the window (41_modular_arith.md R153). -/
theorem modPowWindow_eq {k : Nat} (hk : 1 ≤ k) (a e n : Nat) : modPowWindow k a e n = a ^ e % n := by
  rw [modPowWindow, slideWindow_eq hk a n _ _ (bitsFromTop_length e _).le, spelled_bitsFromTop,
    Nat.mod_eq_of_lt (lt_two_pow_bitlen e), one_pow, one_mul]

/-- Every schedule that CTRL.WIN selects computes the power (10_state.md R37, 41_modular_arith.md R151). -/
theorem modPowScheduled_eq (win : BitVec 4) (a e n : Nat) : modPowScheduled win a e n = a ^ e % n := by
  have hk : 1 ≤ windowOf win := by
    unfold windowOf
    split <;> omega
  unfold modPowScheduled
  split
  · exact modPow_eq a e n
  · exact modPowWindow_eq hk a e n

/-- Settles O24: MODEXP writes the power, and so does every schedule. -/
theorem everyExponentScheduleGivesModexpResult : Obligations.EveryExponentScheduleGivesModexpResult := by
  intro s rd ra rb rm win ha
  obtain ⟨-, -, hsuccess⟩ := modexpGivesPowerModulo.2 s rd ra rb rm
  obtain ⟨t, ht, ⟨hrd, -⟩, -, hflags⟩ := hsuccess ha
  exact ⟨t, ht, hflags.err, by rw [hrd, modPowScheduled_eq]⟩

end Sys2Proof.Machine

/-! The family of 42_montgomery.md: the commands with an even modulus as their first error, the Montgomery domain, and the
word-serial reduction. -/

namespace Sys2Proof.Machine

open Laws

section
/-! The start steps of the Montgomery commands, each through the two checks (42_montgomery.md R181). -/

variable (s : State) (rd ra rb rm : Reg)

theorem exec_montmul : exec (.montmul rd ra rb rm) s =
    checked s (s.reg rm % 2 = 0) (isResidue (s.reg ra) (s.reg rm) && isResidue (s.reg rb) (s.reg rm))
      (.next (s.completeWith rd (s.reg ra * s.reg rb * montRadixInv s.cfg (s.reg rm) % s.reg rm))) := rfl

theorem exec_tomont : exec (.tomont rd ra rm) s =
    checked s (s.reg rm % 2 = 0) (isResidue (s.reg ra) (s.reg rm))
      (.next (s.completeWith rd (s.reg ra * montRadix s.cfg % s.reg rm))) := rfl

theorem exec_frommont : exec (.frommont rd ra rm) s =
    checked s (s.reg rm % 2 = 0) (isResidue (s.reg ra) (s.reg rm))
      (.next (s.completeWith rd (s.reg ra * montRadixInv s.cfg (s.reg rm) % s.reg rm))) := rfl

end

section
/-! What the start steps give for residues of an odd modulus (42_montgomery.md R182, R184, R186). -/

variable {s : State} {rd ra rb rm : Reg}

/-- Where the modulus is odd, only the residues are left to check. -/
theorem checked_of_odd {n : Nat} {residues : Bool} {o : Host.Outcome State Fault Refusal} (hn : n % 2 = 1)
    (hres : residues = true) : checked s (n % 2 = 0) residues o = o :=
  checked_passes (by omega) hres

theorem exec_montmul_of_residues (hn : s.reg rm % 2 = 1) (ha : s.reg ra < s.reg rm) (hb : s.reg rb < s.reg rm) :
    exec (.montmul rd ra rb rm) s =
      .next (s.completeWith rd (s.reg ra * s.reg rb * montRadixInv s.cfg (s.reg rm) % s.reg rm)) :=
  (exec_montmul ..).trans (checked_of_odd hn (isResidue_and_iff.mpr ⟨ha, hb⟩))

theorem exec_tomont_of_residue (hn : s.reg rm % 2 = 1) (ha : s.reg ra < s.reg rm) :
    exec (.tomont rd ra rm) s = .next (s.completeWith rd (s.reg ra * montRadix s.cfg % s.reg rm)) :=
  (exec_tomont ..).trans (checked_of_odd hn (isResidue_iff.mpr ha))

theorem exec_frommont_of_residue (hn : s.reg rm % 2 = 1) (ha : s.reg ra < s.reg rm) :
    exec (.frommont rd ra rm) s =
      .next (s.completeWith rd (s.reg ra * montRadixInv s.cfg (s.reg rm) % s.reg rm)) :=
  (exec_frommont ..).trans (checked_of_odd hn (isResidue_iff.mpr ha))

/-- The errors of a Montgomery command with one residue operand (42_montgomery.md R184, R186). -/
theorem checked_errors_of_odd {a n : Nat} {o : Host.Outcome State Fault Refusal} :
    (n % 2 = 0 → ∃ t, checked s (n % 2 = 0) (isResidue a n) o = .next t ∧ ErrorCompletion s t 2) ∧
    (n % 2 = 1 → n ≤ a → ∃ t, checked s (n % 2 = 0) (isResidue a n) o = .next t ∧ ErrorCompletion s t 3) :=
  ⟨checked_modulus, fun hn ha => checked_range (by omega) (by rw [isResidue_iff]; omega)⟩

/-- A start step that is the success completion of `rd` with `v` leaves `v` in `rd`. -/
theorem yields_of_exec {i : Instr} {v : Nat} (h : exec i s = .next (s.completeWith rd v)) : Yields i s rd v := by
  obtain ⟨⟨hrd, -⟩, -, hflags⟩ := succeedsWith_completeWith s rd v
  exact ⟨_, h, hflags.err, hrd⟩

end

/-- The inverse of the radix, in the form of the rules: `2^W mod n` times it is 1 (42_montgomery.md R180). -/
theorem radix_mod_mul_montRadixInv (cfg : Config) {n : Nat} (hn : n % 2 = 1) :
    2 ^ (32 * cfg.nw) % n * montRadixInv cfg n % n = 1 % n := by
  rw [Nat.mod_mul_mod]
  exact (montRadixInv_spec cfg hn).2

/-- Settles O19: the row uses four registers, and the factor is the inverse of the radix. -/
theorem montmulGivesMontgomeryProduct : Obligations.MontmulGivesMontgomeryProduct := by
  refine ⟨fun w rd ra rb rm => decode_eq_some_iff_dabm (r := ⟨0x18, 0x00000018, 0xFF8888FF⟩) (by decide) rfl rfl rfl,
    fun s rd ra rb rm => ?_⟩
  rw [exec_montmul]
  refine ⟨checked_modulus, fun hn hab => checked_range (by omega) ?_, fun hn ha hb => ?_⟩
  · rw [isResidue_and_iff]
    omega
  · exact ⟨_, _, checked_of_odd hn (isResidue_and_iff.mpr ⟨ha, hb⟩), (montRadixInv_spec s.cfg hn).1,
      radix_mod_mul_montRadixInv s.cfg hn, succeedsWith_completeWith ..⟩

/-- Settles O20: the row uses three registers, and the factor is the radix. -/
theorem tomontGivesMontgomeryForm : Obligations.TomontGivesMontgomeryForm := by
  refine ⟨fun w rd ra rm => decode_eq_some_iff_dam (r := ⟨0x19, 0x00000019, 0xFF8F88FF⟩) (by decide) rfl rfl rfl,
    fun s rd ra rm => ?_⟩
  rw [exec_tomont]
  obtain ⟨hmodulus, hrange⟩ := checked_errors_of_odd (s := s)
  exact ⟨hmodulus, hrange, fun hn ha => ⟨_, checked_of_odd hn (isResidue_iff.mpr ha), succeedsWith_completeWith ..⟩⟩

/-- Settles O21: the row uses three registers, and a factor 1 more, where it is a residue, makes it MONTMUL. -/
theorem frommontLeavesMontgomeryForm : Obligations.FrommontLeavesMontgomeryForm := by
  refine ⟨fun w rd ra rm => decode_eq_some_iff_dam (r := ⟨0x1A, 0x0000001A, 0xFF8F88FF⟩) (by decide) rfl rfl rfl,
    fun s rd ra rm => ?_⟩
  rw [exec_frommont]
  obtain ⟨hmodulus, hrange⟩ := checked_errors_of_odd (s := s)
  refine ⟨hmodulus, hrange, fun hn ha => ⟨_, _, checked_of_odd hn (isResidue_iff.mpr ha), (montRadixInv_spec s.cfg hn).1,
    radix_mod_mul_montRadixInv s.cfg hn, succeedsWith_completeWith .., fun r1 h1 hlt => ?_⟩⟩
  rw [exec_montmul_of_residues hn ha hlt, h1, Nat.mul_one]

section
/-! The Montgomery domain modulo an odd `n` (42_montgomery.md R187). -/

variable (cfg : Config) {n : Nat}

/-- The inverse of the radix cancels it. -/
theorem mul_montRadix_mul_montRadixInv (hn : n % 2 = 1) (u : Nat) :
    u * montRadix cfg * montRadixInv cfg n ≡ u [MOD n] := by
  have hinv : montRadix cfg * montRadixInv cfg n ≡ 1 [MOD n] := (montRadixInv_spec cfg hn).2
  simpa [Nat.mul_assoc] using hinv.mul_left u

/-- FROMMONT's value for a Montgomery form. -/
theorem fromMont_toMont (hn : n % 2 = 1) (u : Nat) :
    u * montRadix cfg % n * montRadixInv cfg n % n = u % n := by
  rw [Nat.mod_mul_mod]
  exact mul_montRadix_mul_montRadixInv cfg hn u

/-- MONTMUL's value for two Montgomery forms is the form of the product. -/
theorem montMul_toMont (hn : n % 2 = 1) (x y : Nat) :
    x * montRadix cfg % n * (y * montRadix cfg % n) * montRadixInv cfg n % n = x * y % n * montRadix cfg % n := by
  rw [Nat.mod_mul_mod]
  calc x * montRadix cfg % n * (y * montRadix cfg % n) * montRadixInv cfg n
      ≡ x * montRadix cfg * (y * montRadix cfg) * montRadixInv cfg n [MOD n] :=
        ((Nat.mod_modEq _ n).mul (Nat.mod_modEq _ n)).mul_right _
    _ = x * y * montRadix cfg * montRadix cfg * montRadixInv cfg n := by ring
    _ ≡ x * y * montRadix cfg [MOD n] := mul_montRadix_mul_montRadixInv cfg hn _

end

/-- Settles O22: the values are the Montgomery forms of `x`, `y` and their product, all of them residues. -/
theorem montgomeryDomainRoundTrips : Obligations.MontgomeryDomainRoundTrips := by
  intro cfg n x y hn hx hy
  have hlt : ∀ u, u % n < n := fun u => Nat.mod_lt u (by omega)
  refine ⟨x * montRadix cfg % n, y * montRadix cfg % n, x * y % n * montRadix cfg % n, ?_, ?_, ?_, ?_, ?_, ?_, ?_⟩
  · rintro s rd ra rm rfl rfl rfl
    exact yields_of_exec (exec_tomont_of_residue hn hx)
  · rintro s rd ra rm rfl rfl rfl
    exact yields_of_exec (exec_tomont_of_residue hn hy)
  · rintro s rd ra rm rfl rfl ha
    exact yields_of_exec (by
      rw [exec_frommont_of_residue hn (ha ▸ hlt _), ha, fromMont_toMont s.cfg hn, Nat.mod_eq_of_lt hx])
  · rintro s rd ra rb rm rfl rfl ha hb
    exact yields_of_exec (by
      rw [exec_montmul_of_residues hn (ha ▸ hlt _) (hb ▸ hlt _), ha, hb, montMul_toMont s.cfg hn])
  · rintro s rd ra rm rfl rfl ha
    exact yields_of_exec (by rw [exec_tomont_of_residue hn (ha ▸ hlt _), ha])
  · rintro s rd ra rm rfl rfl ha
    exact yields_of_exec (by
      rw [exec_frommont_of_residue hn (ha ▸ hlt _), ha, fromMont_toMont s.cfg hn, Nat.mod_mod])
  · rintro s rd ra rb rm rfl rfl rfl rfl
    exact yields_of_exec ((exec_modmul ..).trans (checked_passes (by omega) (isResidue_and_iff.mpr ⟨hx, hy⟩)))

section
/-! The word-serial Montgomery reduction (42_montgomery.md R183). -/

/-- `n' = −n⁻¹` modulo `2^32`, for an odd `n`. -/
theorem dvd_mul_montNPrime_add_one {n : Nat} (hn : n % 2 = 1) : 2 ^ 32 ∣ n * montNPrime n + 1 := by
  have hcop : Nat.gcd (n % 2 ^ 32) (2 ^ 32) = 1 := by
    rw [← Nat.gcd_rec, Nat.gcd_comm]
    exact (Nat.coprime_two_right.mpr (Nat.odd_iff.mpr hn)).pow_right 32
  obtain ⟨hlt, hinv⟩ := modInv_spec (Nat.mod_lt n (Nat.two_pow_pos 32)) hcop
  rw [Nat.mod_mul_mod] at hinv
  unfold montNPrime
  generalize modInv (n % 2 ^ 32) (2 ^ 32) = d at hlt hinv
  generalize 2 ^ 32 = B at *
  apply Nat.modEq_zero_iff_dvd.mp
  calc n * ((B - d) % B) + 1 ≡ n * (B - d) + n * d [MOD B] :=
        ((Nat.mod_modEq _ B).mul_left n).add (Nat.ModEq.symm hinv)
    _ = n * B := by rw [← Nat.mul_add, Nat.sub_add_cancel hlt.le]
    _ ≡ 0 [MOD B] := by simp [Nat.ModEq]

/-- The division of a round is exact: its result times `2^32` is `t` plus a multiple of `n`, less than `2^32` of them. -/
theorem montRound_exact {n n' : Nat} (hn' : 2 ^ 32 ∣ n * n' + 1) (t : Nat) :
    ∃ m, m < 2 ^ 32 ∧ (t + t % 2 ^ 32 * n' % 2 ^ 32 * n) / 2 ^ 32 * 2 ^ 32 = t + m * n := by
  generalize hB : 2 ^ 32 = B at *
  refine ⟨t % B * n' % B, Nat.mod_lt _ (by omega), Nat.div_mul_cancel (Nat.modEq_zero_iff_dvd.mp ?_)⟩
  calc t + t % B * n' % B * n ≡ t + t * n' * n [MOD B] :=
        (((Nat.mod_modEq _ B).trans ((Nat.mod_modEq t B).mul_right n')).mul_right n).add_left t
    _ = t * (n * n' + 1) := by ring
    _ ≡ t * 0 [MOD B] := (Nat.modEq_zero_iff_dvd.mpr hn').mul_left t

/-- `k` rounds divide by `2^(32·k)` modulo `n`. -/
theorem montRounds_modEq {n n' : Nat} (hn' : 2 ^ 32 ∣ n * n' + 1) (k t : Nat) :
    montRounds n n' k t * 2 ^ (32 * k) ≡ t [MOD n] := by
  induction k generalizing t with
  | zero => simpa [montRounds] using Nat.ModEq.refl t
  | succ k ih =>
    obtain ⟨m, -, hm⟩ := montRound_exact hn' t
    rw [montRounds]
    generalize (t + t % 2 ^ 32 * n' % 2 ^ 32 * n) / 2 ^ 32 = q at *
    calc montRounds n n' k q * 2 ^ (32 * (k + 1)) = montRounds n n' k q * 2 ^ (32 * k) * 2 ^ 32 := by
          rw [pow_word_succ, Nat.mul_assoc]
      _ ≡ q * 2 ^ 32 [MOD n] := (ih q).mul_right _
      _ = t + m * n := hm
      _ ≡ t [MOD n] := by simp [Nat.ModEq]

/-- `k` rounds bring a value below `n·(2^(32·k) + 1)` below `2·n`. -/
theorem montRounds_lt {n n' : Nat} (hn' : 2 ^ 32 ∣ n * n' + 1) {k t : Nat} (ht : t < n * (2 ^ (32 * k) + 1)) :
    montRounds n n' k t < n * 2 := by
  induction k generalizing t with
  | zero => simpa [montRounds] using ht
  | succ k ih =>
    obtain ⟨m, hlt, hm⟩ := montRound_exact hn' t
    rw [montRounds]
    apply ih
    rw [pow_word_succ] at ht
    generalize (t + t % 2 ^ 32 * n' % 2 ^ 32 * n) / 2 ^ 32 = q at *
    generalize 2 ^ 32 = B at *
    apply Nat.lt_of_mul_lt_mul_right (a := B)
    calc q * B = t + m * n := hm
      _ < n * (2 ^ (32 * k) * B + 1) + m * n := Nat.add_lt_add_right ht _
      _ = n * (2 ^ (32 * k) * B + (m + 1)) := by ring
      _ ≤ n * (2 ^ (32 * k) * B + B) := Nat.mul_le_mul_left n (by omega)
      _ = n * (2 ^ (32 * k) + 1) * B := by ring

/-- The word-serial method gives the Montgomery product (42_montgomery.md R182, R183). -/
theorem montMulWordSerial_eq {cfg : Config} {a b n : Nat} (hn : n % 2 = 1) (hW : n < 2 ^ (32 * cfg.nw)) (ha : a < n)
    (hb : b < n) : montMulWordSerial cfg a b n = a * b * montRadixInv cfg n % n := by
  have hn' := dvd_mul_montNPrime_add_one hn
  have hab : a * b < n * (2 ^ (32 * cfg.nw) + 1) := Nat.mul_lt_mul'' ha (by omega)
  have hlt := montRounds_lt hn' hab
  have hmod := montRounds_modEq hn' cfg.nw (a * b)
  unfold montMulWordSerial
  generalize montRounds n (montNPrime n) cfg.nw (a * b) = t at hlt hmod
  have hprod : a * b * montRadixInv cfg n % n = t % n :=
    (hmod.symm.mul_right _).trans (mul_montRadix_mul_montRadixInv cfg hn t)
  rw [hprod]
  dsimp only
  split
  · next hle => rw [Nat.mod_eq_sub_mod hle, Nat.mod_eq_of_lt (by omega)]
  · next hgt => exact (Nat.mod_eq_of_lt (by omega)).symm

end

/-- Settles O23: MONTMUL writes the Montgomery product, which the word-serial method computes. -/
theorem wordSerialMethodGivesMontgomeryProduct : Obligations.WordSerialMethodGivesMontgomeryProduct := by
  intro s rd ra rb rm hW hn ha hb
  rw [montMulWordSerial_eq hn hW ha hb]
  exact yields_of_exec (exec_montmul_of_residues hn ha hb)

end Sys2Proof.Machine

/-! The family of 43_gcd_rho.md: GCD, the rho iteration on its trace from 2, and RHO's completion. -/

namespace Sys2Proof.Machine

open Laws

/-- Settles O26: GCD's row uses three registers, and its start step is the success completion of `rd` with the gcd. -/
theorem gcdGivesGreatestCommonDivisor : Obligations.GcdGivesGreatestCommonDivisor := by
  refine ⟨fun w rd ra rb => ?_, fun s rd ra rb => ?_⟩
  · have hrow := decode_eq_some_iff_matches (r := ⟨0x20, 0x00000020, 0xFFF888FF⟩) (by decide) (i := .gcd rd ra rb) rfl rfl
      (w := w)
    simpa [Instr.fields] using hrow
  · exact ⟨_, _, rfl, succeedsWith_completeWith s rd _, Nat.gcd_dvd_left .., Nat.gcd_dvd_right .., fun e => Nat.dvd_gcd⟩

section
/-! Stein's algorithm (43_gcd_rho.md R201). -/

/-- A value below `2^k` has at most `k` bits. -/
theorem bitlen_le {v k : Nat} (h : v < 2 ^ k) : bitlen v ≤ k := by
  unfold bitlen
  split
  · exact Nat.zero_le k
  · next hv => exact (Nat.log2_lt hv).mpr h

theorem bitlen_eq_zero {v : Nat} : bitlen v = 0 ↔ v = 0 := by
  unfold bitlen
  split <;> simp [*]

/-- Half of a value that is not 0 has a bit less, and so has every value below the half. -/
theorem bitlen_lt_of_le_half {u v : Nat} (hv : v ≠ 0) (hu : u ≤ v / 2) : bitlen u < bitlen v := by
  have hlt := lt_two_pow_bitlen v
  cases hk : bitlen v with
  | zero => exact absurd (bitlen_eq_zero.mp hk) hv
  | succ k =>
    rw [hk, pow_succ] at hlt
    exact Nat.lt_succ_of_le (bitlen_le (by omega))

variable {a b : Nat}

/-- A factor 2 of both operands is a factor of the gcd. -/
theorem two_mul_gcd_half (ha : a % 2 = 0) (hb : b % 2 = 0) : 2 * Nat.gcd (a / 2) (b / 2) = Nat.gcd a b := by
  rw [← Nat.gcd_mul_left, Nat.mul_div_cancel' (Nat.dvd_of_mod_eq_zero ha), Nat.mul_div_cancel' (Nat.dvd_of_mod_eq_zero hb)]

/-- A factor 2 of one operand is no factor of the gcd where the other operand is odd. -/
theorem gcd_half_left (ha : a % 2 = 0) (hb : b % 2 = 1) : Nat.gcd (a / 2) b = Nat.gcd a b := by
  have h2 : Nat.Coprime 2 b := Nat.coprime_two_left.mpr (Nat.odd_iff.mpr hb)
  obtain ⟨k, rfl⟩ := Nat.dvd_of_mod_eq_zero ha
  rw [Nat.mul_div_cancel_left k (by decide), h2.gcd_mul_left_cancel]

/-- The difference of two odd numbers is even, and its half has the same gcd with the smaller one. -/
theorem gcd_half_sub_left (ha : a % 2 = 1) (hb : b % 2 = 1) (h : b ≤ a) : Nat.gcd ((a - b) / 2) b = Nat.gcd a b := by
  rw [gcd_half_left (by omega) hb, Nat.gcd_sub_self_left h]

/-- Each round keeps the gcd and takes a bit off an operand, so as many rounds as there are bits are enough. -/
theorem steinGcd_eq {fuel : Nat} (hfuel : bitlen a + bitlen b ≤ fuel) : steinGcd fuel a b = Nat.gcd a b := by
  induction fuel generalizing a b with
  | zero =>
    obtain ⟨ha, hb⟩ : bitlen a = 0 ∧ bitlen b = 0 := by omega
    simp [steinGcd, bitlen_eq_zero.mp ha, bitlen_eq_zero.mp hb]
  | succ fuel ih =>
    have hless {u v : Nat} (hv : ¬ v = 0) (hu : u ≤ v / 2) := bitlen_lt_of_le_half hv hu
    rw [steinGcd]
    split_ifs with ha hb hboth ha2 hb2 hle
    · rw [ha, Nat.gcd_zero_left]
    · rw [hb, Nat.gcd_zero_right]
    · have hla := hless ha le_rfl
      have hlb := hless hb le_rfl
      rw [ih (by omega), two_mul_gcd_half hboth.1 hboth.2]
    · have hla := hless ha le_rfl
      rw [ih (by omega), gcd_half_left ha2 (by omega)]
    · have hlb := hless hb le_rfl
      rw [ih (by omega), Nat.gcd_comm, gcd_half_left hb2 (by omega), Nat.gcd_comm]
    · have hla : bitlen ((a - b) / 2) < bitlen a := hless ha (by omega)
      rw [ih (by omega), gcd_half_sub_left (by omega) (by omega) hle]
    · have hlb : bitlen ((b - a) / 2) < bitlen b := hless hb (by omega)
      rw [ih (by omega), Nat.gcd_comm, gcd_half_sub_left (by omega) (by omega) (by omega), Nat.gcd_comm]

theorem gcdBinary_eq (a b : Nat) : gcdBinary a b = Nat.gcd a b := steinGcd_eq le_rfl

end

/-- Settles O27: GCD writes the gcd, which the binary algorithm computes. -/
theorem binaryGcdGivesGcdResult : Obligations.BinaryGcdGivesGcdResult := by
  intro s rd ra rb
  exact ⟨_, rfl, rfl, (s.completeWith_reg_same rd _).trans (gcdBinary_eq ..).symm⟩

section
/-! One rho iteration (43_gcd_rho.md R205, R206, R210, R212). -/

/-- `|a − b|` is the absolute value of the difference (00_scope.md R10). -/
theorem absDiff_eq_natAbs (a b : Nat) : absDiff a b = Int.natAbs ((a : Int) - (b : Int)) := by
  unfold absDiff
  split <;> omega

/-- One iteration gives `(g(x), g(g(y)), gcd(|g(x) − g(g(y))|, n))`. -/
theorem rhoIteration_eq {a b n x y y' d : Nat} (hx : x = (a * a + 1) % n) (hy : y = (b * b + 1) % n)
    (hy' : y' = (y * y + 1) % n) (hd : d = Nat.gcd (Int.natAbs ((x : Int) - (y' : Int))) n) :
    rhoIteration a b n = (x, y', d) := by
  rw [hd, ← absDiff_eq_natAbs, hy', hy, hx]
  rfl

/-- The success completion of the rho commands has Z 0 and TRIV `d = n` (43_gcd_rho.md R212, R222). -/
theorem successCompletion_completeRho (s : State) (rd ra rb : Reg) (x y d n : Nat) :
    SuccessCompletion s (s.completeRho rd ra rb x y d n) false (decide (d = n)) :=
  successCompletion_complete s _ false (trivFlag d n)

theorem exec_rhostep (s : State) (rd ra rb rm : Reg) : exec (.rhostep rd ra rb rm) s =
    checked s (s.reg rm = 0) (isResidue (s.reg ra) (s.reg rm) && isResidue (s.reg rb) (s.reg rm))
      (.next (s.completeRho rd ra rb (rhoIteration (s.reg ra) (s.reg rb) (s.reg rm)).1
        (rhoIteration (s.reg ra) (s.reg rb) (s.reg rm)).2.1 (rhoIteration (s.reg ra) (s.reg rb) (s.reg rm)).2.2
        (s.reg rm)).countIteration) := rfl

end

/-- Settles O28: RHOSTEP's row uses four registers, and two residues pass its checks and go one iteration on. -/
theorem rhostepDoesOneIteration : Obligations.RhostepDoesOneIteration := by
  refine ⟨fun w rd ra rb rm => decode_eq_some_iff_dabm (r := ⟨0x30, 0x00000030, 0xFF8888FF⟩) (by decide) rfl rfl rfl,
    fun s rd ra rb rm => ?_⟩
  rw [exec_rhostep]
  refine ⟨checked_modulus, fun hn hab => checked_range (by omega) ?_, fun ha hb x y y' d hx hy hy' hd => ?_⟩
  · rw [isResidue_and_iff]
    omega
  · rw [checked_passes (by omega) (isResidue_and_iff.mpr ⟨ha, hb⟩), rhoIteration_eq hx hy hy' hd]
    exact ⟨_, rfl, s.completeRho_reg rd ra rb x y' d (s.reg rm), rfl, (successCompletion_completeRho ..).countIteration⟩

section
/-! RHO's iteration step (43_gcd_rho.md R222-R224), in each of its cases. -/

variable {s : State} {c : Command} {w : RhoWork} {rd ra rb rm : Reg} {x y d k : Nat}

/-- RHO in flight goes on with new working values and nothing else changed. -/
theorem State.continueRho_of_busy (he : s.eng = .busy c) (w : RhoWork) :
    s.continueRho w = { s with eng := .busy { c with phase := .iterate w } } := by
  rw [State.continueRho, State.latch_busy he]

theorem State.continueRho_eng_of_busy (he : s.eng = .busy c) (w : RhoWork) :
    (s.continueRho w).eng = .busy { c with phase := .iterate w } := by
  rw [State.continueRho_of_busy he]

/-- Where ITER is a count modulo `2^64`, it goes on being it (10_state.md R46). -/
theorem State.countIteration_iter_of_eq (h : s.iter = BitVec.ofNat 64 k) :
    s.countIteration.iter = BitVec.ofNat 64 (k + 1) := by
  rw [State.countIteration_iter, h]
  exact (BitVec.ofNat_add k 1).symm

/-- Where RHO is in phase Iterate and the engine moves, the step is the iteration step. -/
theorem step_iterate (hm : s.EngineMoves) (he : s.eng = .busy c) (hp : c.phase = .iterate w) :
    step s = .next (rhoIterate c w s.popped) :=
  (step_engine hm).trans (engineTurn_iterate he hp)

theorem rhoIterate_of_abort (h : s.abortPending = true) : rhoIterate c w s = s.raiseError .abort := if_pos h

/-- A divisor found ends RHO with success, in the registers that its word names. -/
theorem rhoIterate_of_divisor (hdec : decode c.word = some (.rho rd ra rb rm)) (ha : s.abortPending = false)
    (hit : rhoIteration w.x w.y w.n = (x, y, d)) (hd : d ≠ 1) :
    rhoIterate c w s = s.countIteration.completeRho rd ra rb x y d w.n := by
  obtain ⟨hrd, hra, hrb⟩ := regs_of_decode_rho hdec
  simp [rhoIterate, ha, hit, hd, hrd, hra, hrb]

/-- With no divisor found, the limit reached ends RHO with E_LIMIT. -/
theorem rhoIterate_of_limit (ha : s.abortPending = false) (hit : rhoIteration w.x w.y w.n = (x, y, 1))
    (hl : c.limit ≠ 0 ∧ w.itc + 1 = c.limit.toNat) : rhoIterate c w s = s.countIteration.raiseError .limit := by
  simp only [rhoIterate, ha, hit, if_pos hl]
  simp

/-- With no divisor found and no limit reached, RHO goes on. -/
theorem rhoIterate_of_goOn (ha : s.abortPending = false) (hit : rhoIteration w.x w.y w.n = (x, y, 1))
    (hl : ¬ (c.limit ≠ 0 ∧ w.itc + 1 = c.limit.toNat)) :
    rhoIterate c w s = s.countIteration.continueRho ⟨w.n, x, y, w.itc + 1⟩ := by
  simp only [rhoIterate, ha, hit, if_neg hl]
  simp

end

/-- Settles O29: RHO's row uses four registers, and with a modulus of at least 3 it goes on from its own latch. -/
theorem rhoStartsFromTwo : Obligations.RhoStartsFromTwo := by
  refine ⟨fun w rd ra rb rm => decode_eq_some_iff_dabm (r := ⟨0x31, 0x00000031, 0xFF8888FF⟩) (by decide) rfl rfl rfl,
    fun s rd ra rb rm => ⟨fun hn => ?_, fun c he hn => ?_⟩⟩
  · exact ⟨_, exec_rho_of_lt hn, errorCompletion_raiseError s .modulus⟩
  · rw [exec_rho_of_not_lt hn.not_gt, State.continueRho_of_busy (s := s.clearIter) he]
    rfl

/-- Settles O30: the step is the iteration step, in each of its cases. -/
theorem rhoIterationStep : Obligations.RhoIterationStep := by
  intro s c w rd ra rb rm hm he hp hdec
  rw [step_iterate hm he hp]
  refine ⟨fun ha => ?_, fun ha x y y' d hx hy hy' hd => ?_⟩
  · exact ⟨_, congrArg _ (rhoIterate_of_abort ha), errorCompletion_raiseError s.popped .abort⟩
  · have hit := rhoIteration_eq hx hy hy' hd
    clear hx hy hy' hd
    refine ⟨fun hd => ?_, ?_, ?_⟩
    · refine ⟨_, congrArg _ (rhoIterate_of_divisor hdec ha hit hd), ?_, rfl, ?_⟩
      · exact s.popped.countIteration.completeRho_reg rd ra rb x y' d w.n
      · exact (successCompletion_completeRho s.popped ..).countIteration
    · rintro rfl hl hreached
      exact ⟨_, congrArg _ (rhoIterate_of_limit ha hit ⟨hl, hreached⟩),
        errorCompletion_raiseError s.popped.countIteration .limit⟩
    · rintro rfl hl
      have hgo := rhoIterate_of_goOn (s := s.popped) ha hit (fun hlimit => hl.elim hlimit.1 (· hlimit.2))
      rw [State.continueRho_of_busy (s := s.popped.countIteration) he] at hgo
      exact congrArg _ hgo

/-- From the tortoise and the hare after `k` rounds, one iteration leads to them after `k + 1` (43_gcd_rho.md R222). -/
theorem rhoIteration_of_iterate {n k x y : Nat} (hx : x = (rhoG n)^[k] 2) (hy : y = (rhoG n)^[2 * k] 2) :
    (rhoIteration x y n).1 = (rhoG n)^[k + 1] 2 ∧ (rhoIteration x y n).2.1 = (rhoG n)^[2 * (k + 1)] 2 := by
  rw [Nat.mul_succ, Function.iterate_succ_apply', Function.iterate_succ_apply', Function.iterate_succ_apply', ← hx, ← hy]
  exact ⟨rfl, rfl⟩

namespace RhoTrace

section
/-! Each operation on the state keeps RHO on its trace (10_state.md R46, R52; 43_gcd_rho.md R221, R222). -/

variable {s t : State} {c : Command} {w : RhoWork}

/-- Only the engine and ITER bear on it. -/
theorem congr (hs : RhoTrace s) (heng : t.eng = s.eng) (hiter : t.iter = s.iter) : RhoTrace t := by
  unfold RhoTrace
  rw [heng, hiter]
  exact hs

/-- An idle engine has no working values. -/
theorem of_idle (heng : t.eng = .idle) : RhoTrace t := fun c w he => by rw [heng] at he; cases he

/-- A command in phase Start has no working values. -/
theorem of_start (heng : t.eng = .busy c) (hp : c.phase = .start) : RhoTrace t := by
  intro d w he hw
  cases heng.symm.trans he
  cases hp.symm.trans hw

/-- RHO goes on with working values that are on the trace. -/
theorem continueRho (he : s.eng = .busy c) (hword : ∃ rd ra rb rm, decode c.word = some (.rho rd ra rb rm))
    (hx : w.x = (rhoG w.n)^[w.itc] 2) (hy : w.y = (rhoG w.n)^[2 * w.itc] 2) (hiter : s.iter = BitVec.ofNat 64 w.itc)
    (hl : c.limit ≠ 0 → w.itc < c.limit.toNat) : RhoTrace (s.continueRho w) := by
  intro d u hd hu
  cases (State.continueRho_eng_of_busy he w).symm.trans hd
  cases hu
  exact ⟨hword, hx, hy, hiter, hl⟩

/-- RHO begins on its trace: no round is done, and a limit that is not 0 is not reached. -/
theorem begins {rd ra rb rm : Reg} (he : s.eng = .busy c) (hd : decode c.word = some (.rho rd ra rb rm)) (n : Nat) :
    RhoTrace (s.clearIter.continueRho ⟨n, 2, 2, 0⟩) :=
  continueRho (s := s.clearIter) he ⟨rd, ra, rb, rm, hd⟩ rfl rfl rfl
    fun hl => Nat.pos_of_ne_zero fun h0 => hl (BitVec.eq_of_toNat_eq h0)

/-- One round more: the tortoise makes one step, the hare two, and ITER counts the round. -/
theorem goOn (hs : RhoTrace s) (he : s.eng = .busy c) (hp : c.phase = .iterate w)
    (hl : c.limit ≠ 0 → w.itc + 1 ≠ c.limit.toNat) :
    RhoTrace (s.countIteration.continueRho
      ⟨w.n, (rhoIteration w.x w.y w.n).1, (rhoIteration w.x w.y w.n).2.1, w.itc + 1⟩) := by
  obtain ⟨hword, hx, hy, hiter, hlimit⟩ := hs c w he hp
  obtain ⟨hx', hy'⟩ := rhoIteration_of_iterate hx hy
  exact continueRho (s := s.countIteration) he hword hx' hy' (State.countIteration_iter_of_eq hiter)
    fun h0 => Nat.lt_of_le_of_ne (hlimit h0) (hl h0)

/-- RHO's iteration step ends the command or goes on by one round. -/
theorem rhoIterate (hs : RhoTrace s) (he : s.eng = .busy c) (hp : c.phase = .iterate w) :
    RhoTrace (rhoIterate c w s) := by
  rcases rhoIterate_cases c w s with ⟨_, h⟩ | ⟨_, _, h⟩ | ⟨_, _, _, _, h⟩ | ⟨_, _, hl, h⟩ <;> rw [h]
  · exact of_idle rfl
  · exact of_idle rfl
  · exact of_idle rfl
  · exact hs.goOn he hp hl

/-- A start step ends the command, or begins RHO. -/
theorem exec {i : Instr} (he : s.eng = .busy c) (hd : decode c.word = some i) (h : exec i s = .next t) :
    RhoTrace t := by
  rcases exec_cases i s with ⟨e, hx⟩ | ⟨l, z, triv, _, _, hx⟩ | ⟨rd, ra, rb, rm, _, _, _, _, hx⟩ |
    ⟨rd, ra, rb, rm, rfl, _, hx⟩ <;> cases hx.symm.trans h
  · exact of_idle rfl
  · exact of_idle rfl
  · exact of_idle rfl
  · exact begins he hd _

/-- The engine's turn keeps RHO on its trace. -/
theorem engineTurn (hs : RhoTrace s) (h : engineTurn s = .next t) : RhoTrace t := by
  rcases engineTurn_cases h with ⟨_, rfl⟩ | ⟨_, _, _, _, rfl⟩ | ⟨_, _, he, _, hd, hx⟩ | ⟨_, _, he, hp, rfl⟩
  · exact hs
  · exact of_idle rfl
  · exact exec he hd hx
  · exact hs.rhoIterate he hp

/-- A host write leaves RHO in flight as it is, or there is none after it. -/
theorem write (hs : RhoTrace s) {v : Word} {p : Place} (h : WriteEffect s v p t) : RhoTrace t := by
  cases h with
  | ignored => exact hs
  | reset => exact of_idle rfl
  | accepted => exact of_start rfl rfl
  | ctrl | status | dropped | rhoLimit | operand => exact hs.congr rfl rfl

end

end RhoTrace

/-- Settles O56: RHO begins at 2 with no round done, its iteration step does one round, and no other turn touches its working
values. -/
theorem stepKeepsRhoTrace : Obligations.StepKeepsRhoTrace := by
  intro s t hs h
  have hpop : RhoTrace s.popped := hs.congr rfl rfl
  rcases step_cases h with ⟨_, ht⟩ | ⟨_, _, p, _, _, rfl⟩ | ⟨_, _, v, p, _, _, rfl⟩ | ⟨_, rfl⟩
  · exact hpop.engineTurn ht
  · obtain ⟨r, d, hread⟩ := s.popped.readPlace_eq p
    rw [hread]
    exact hpop.congr rfl rfl
  · exact (hpop.write (s.popped.writePlace_effect p v)).congr rfl rfl
  · exact .of_idle rfl

/-- Settles O31: of the ends of RHO only the limit reached has code 5, and on RHO's trace ITER then counts as many rounds. -/
theorem rhoLimitEndsAfterThatManyIterations : Obligations.RhoLimitEndsAfterThatManyIterations := by
  intro s t c w hs hm he hp h hidle hcode
  obtain ⟨_, _, _, hiter, _⟩ := hs c w he hp
  cases (step_iterate hm he hp).symm.trans h
  rcases rhoIterate_cases c w s.popped with ⟨_, ht⟩ | ⟨_, _, ht⟩ | ⟨_, _, hl, hreached, ht⟩ | ⟨_, _, _, ht⟩ <;>
    rw [ht] at hidle hcode ⊢
  · cases hcode
  · cases hcode
  · exact ⟨hl, hreached ▸ State.countIteration_iter_of_eq (s := s.popped) hiter, fun r => rfl⟩
  · cases hidle

section
/-! The divisor found (43_gcd_rho.md R226). -/

/-- What stands in `rd` is a divisor of `n` that is not 0, and TRIV says whether it is `n` itself. -/
def HoldsDivisor (s : State) (rd : Reg) (n : Nat) : Prop :=
  s.reg rd ∣ n ∧ 1 ≤ s.reg rd ∧ s.reg rd ≤ n ∧ (s.triv = true ↔ s.reg rd = n)

variable {s : State} {rd ra rb rm : Reg}

theorem State.completeRho_reg_rd (s : State) (rd ra rb : Reg) (x y d n : Nat) :
    (s.completeRho rd ra rb x y d n).reg rd = d := by
  rw [State.completeRho_reg, if_pos rfl]

/-- The success completion of the rho commands leaves the divisor of one iteration. -/
theorem holdsDivisor_completeRho {n : Nat} (hn : 0 < n) (s : State) (rd ra rb : Reg) (a b x y : Nat) :
    HoldsDivisor (s.completeRho rd ra rb x y (rhoIteration a b n).2.2 n) rd n := by
  obtain ⟨-, -, hdvd, hpos, hle, -⟩ := rhoIteration_spec hn a b
  rw [HoldsDivisor, State.completeRho_reg_rd]
  exact ⟨hdvd, hpos, hle, decide_eq_true_iff⟩

/-- A success of RHOSTEP leaves a divisor. -/
theorem holdsDivisor_of_rhostep {t : State} (h : exec (.rhostep rd ra rb rm) s = .next t) (herr : t.err = false) :
    HoldsDivisor t rd (s.reg rm) := by
  rcases exec_cases (.rhostep rd ra rb rm) s with ⟨e, hx⟩ | ⟨_, _, _, _, hcount, _⟩ |
    ⟨_, _, _, _, hi, hn, _, _, hx⟩ | ⟨_, _, _, _, hi, _⟩
  · cases hx.symm.trans h
    cases herr
  · cases hcount
  · cases hi
    cases hx.symm.trans h
    exact holdsDivisor_completeRho hn s rd ra rb _ _ _ _
  · cases hi

/-- A success of RHO's iteration step leaves a divisor that is not 1. -/
theorem holdsDivisor_of_rhoIterate {c : Command} {w : RhoWork} (hdec : decode c.word = some (.rho rd ra rb rm))
    (hn : 0 < w.n) (hidle : (rhoIterate c w s).eng = .idle) (herr : (rhoIterate c w s).err = false) :
    HoldsDivisor (rhoIterate c w s) rd w.n ∧ (rhoIterate c w s).reg rd ≠ 1 := by
  obtain ⟨hrd, -, -⟩ := regs_of_decode_rho hdec
  rcases rhoIterate_cases c w s with ⟨_, h⟩ | ⟨_, hd, h⟩ | ⟨_, _, _, _, h⟩ | ⟨_, _, _, h⟩ <;> rw [h] at hidle herr ⊢
  · cases herr
  · rw [hrd]
    exact ⟨holdsDivisor_completeRho hn _ rd _ _ _ _ _ _, by rwa [State.completeRho_reg_rd]⟩
  · cases herr
  · cases hidle

end

/-- Settles O32: an iteration's gcd divides the modulus, and RHO succeeds only with one that is not 1. -/
theorem rhoDivisorDividesModulus : Obligations.RhoDivisorDividesModulus := by
  refine ⟨fun s t rd ra rb rm h herr => holdsDivisor_of_rhostep h herr,
    fun s t c w rd ra rb rm hm he hp hdec hn h hidle herr => ?_⟩
  cases (step_iterate hm he hp).symm.trans h
  obtain ⟨⟨hdvd, hpos, hle, htriv⟩, hne⟩ := holdsDivisor_of_rhoIterate hdec (by omega) hidle herr
  exact ⟨hdvd, Nat.lt_of_le_of_ne hpos hne.symm, hle, htriv⟩

section
/-! The tortoise and the hare meet within `n` rounds (43_gcd_rho.md R225). -/

open Function (IsPeriodicPt iterate_add_apply)

variable {f : Nat → Nat} {n a i p : Nat}

/-- Of `n + 1` values of an orbit below `n` two are equal, so the orbit is periodic from the first of them on. -/
theorem exists_period_of_iterate_lt (hlt : ∀ k, f^[k] a < n) : ∃ i p, 0 < p ∧ i + p ≤ n ∧ IsPeriodicPt f p (f^[i] a) := by
  obtain ⟨i, j, hij, hj, heq⟩ : ∃ i j, i < j ∧ j ≤ n ∧ f^[i] a = f^[j] a := by
    have hmaps : ∀ k ∈ Finset.range (n + 1), f^[k] a ∈ Finset.range n := fun k _ => Finset.mem_range.mpr (hlt k)
    obtain ⟨i, hi, j, hj, hne, heq⟩ := Finset.exists_ne_map_eq_of_card_lt_of_maps_to (by simp) hmaps
    rw [Finset.mem_range] at hi hj
    rcases Nat.lt_or_gt_of_ne hne with h | h
    · exact ⟨i, j, h, by omega, heq⟩
    · exact ⟨j, i, h, by omega, heq.symm⟩
  obtain ⟨p, rfl⟩ := Nat.exists_eq_add_of_le hij.le
  rw [Nat.add_comm, iterate_add_apply] at heq
  exact ⟨i, p, by omega, hj, heq.symm⟩

/-- Where an orbit has period `p` from `i` on, the next multiple `k` of `p` after `i` has the value that `2·k` has. -/
theorem exists_iterate_eq_double (hp : 0 < p) (h : IsPeriodicPt f p (f^[i] a)) :
    ∃ k, 1 ≤ k ∧ k ≤ i + p ∧ f^[k] a = f^[2 * k] a := by
  have hle := Nat.div_mul_le_self i p
  have hlt := Nat.lt_div_mul_add (a := i) hp
  obtain ⟨m, hm⟩ : ∃ m, (i / p + 1) * p = m + i := Nat.exists_eq_add_of_le' (by rw [Nat.succ_mul]; exact hlt.le)
  have hk : IsPeriodicPt f (m + i) (f^[m + i] a) := by
    rw [iterate_add_apply f m i, ← hm]
    exact (h.apply_iterate m).const_mul _
  rw [Nat.succ_mul] at hm
  refine ⟨m + i, by omega, by omega, ?_⟩
  rw [Nat.two_mul, iterate_add_apply f (m + i) (m + i)]
  exact hk.symm

/-- The orbit of 2 under `g` stays below a modulus of at least 3, so the hare meets the tortoise. -/
theorem rho_meets (hn : 3 ≤ n) : ∃ k, 1 ≤ k ∧ k ≤ n ∧ (rhoG n)^[k] 2 = (rhoG n)^[2 * k] 2 := by
  have hlt (k : Nat) : (rhoG n)^[k] 2 < n := by
    cases k with
    | zero => exact hn
    | succ k =>
      rw [Function.iterate_succ_apply']
      exact rhoG_lt (by omega) _
  obtain ⟨i, p, hp, hip, hperiod⟩ := exists_period_of_iterate_lt hlt
  obtain ⟨k, hk1, hk, hmeet⟩ := exists_iterate_eq_double hp hperiod
  exact ⟨k, hk1, hk.trans hip, hmeet⟩

end

section
/-! RHO left to itself ends (43_gcd_rho.md R225; log 3). -/

/-- RHO, with the modulus `n` and `rd` for its result, has done `k` rounds and goes on with no limit, no abort and no turn
listed. -/
structure RhoRunning (s : State) (rd : Reg) (n k : Nat) : Prop where
  trace : RhoTrace s
  turns : s.turns = []
  abortPending : s.abortPending = false
  inFlight : ∃ c w ra rb rm, s.eng = .busy c ∧ c.phase = .iterate w ∧ decode c.word = some (.rho rd ra rb rm) ∧
    c.limit = 0 ∧ w.n = n ∧ w.itc = k

/-- RHO has ended with success after `k` rounds. -/
structure RhoSucceeded (s : State) (rd : Reg) (n k : Nat) : Prop where
  idle : s.eng = .idle
  done : s.done = true
  err : s.err = false
  iter : s.iter = BitVec.ofNat 64 k
  divisor : HoldsDivisor s rd n
  nontrivial : s.reg rd ≠ 1

variable {s : State} {rd : Reg} {n k : Nat}

/-- With no turn listed, the step is the engine's turn (log 3). -/
theorem step_of_no_turns (h : s.turns = []) : step s = engineTurn s := by
  simp only [step, h]

/-- RHO runs from its start step on. -/
theorem rhoRunning_begins {c : Command} {ra rb rm : Reg} (hturns : s.turns = []) (ha : s.abortPending = false)
    (he : s.eng = .busy c) (hdec : decode c.word = some (.rho rd ra rb rm)) (hlimit : c.limit = 0) :
    RhoRunning (s.clearIter.continueRho ⟨n, 2, 2, 0⟩) rd n 0 :=
  ⟨.begins he hdec n, hturns, ha, _, _, ra, rb, rm, State.continueRho_eng_of_busy (s := s.clearIter) he _, rfl, hdec,
    hlimit, rfl, rfl⟩

/-- A step of RHO ends it with success or goes on; it goes on only where tortoise and hare do not meet. -/
theorem RhoRunning.next (h : RhoRunning s rd n k) (hn : 3 ≤ n) :
    ∃ t, step s = .next t ∧ (RhoSucceeded t rd n (k + 1) ∨
      (RhoRunning t rd n (k + 1) ∧ (rhoG n)^[k + 1] 2 ≠ (rhoG n)^[2 * (k + 1)] 2)) := by
  obtain ⟨hs, hturns, ha, c, w, ra, rb, rm, he, hp, hdec, hlimit, rfl, rfl⟩ := h
  obtain ⟨-, hx, hy, hiter, -⟩ := hs c w he hp
  have hpos : 0 < w.n := by omega
  refine ⟨_, (step_of_no_turns hturns).trans (engineTurn_iterate he hp), ?_⟩
  have hdivisor := holdsDivisor_of_rhoIterate (s := s) hdec hpos
  rcases rhoIterate_cases c w s with ⟨hab, _⟩ | ⟨_, _, ht⟩ | ⟨_, _, hl, _⟩ | ⟨_, hd, hl, ht⟩
  · cases ha.symm.trans hab
  · rw [ht] at hdivisor ⊢
    obtain ⟨hdiv, hne⟩ := hdivisor rfl rfl
    exact .inl ⟨rfl, rfl, rfl, State.countIteration_iter_of_eq hiter, hdiv, hne⟩
  · exact absurd hlimit hl
  · rw [ht]
    refine .inr ⟨⟨hs.goOn he hp hl, hturns, ha, _, _, ra, rb, rm,
      State.continueRho_eng_of_busy (s := s.countIteration) he _, rfl, hdec, hlimit, rfl, rfl⟩, fun hmeet => ?_⟩
    obtain ⟨hx', hy'⟩ := rhoIteration_of_iterate hx hy
    obtain ⟨hg, hgg, -, -, -, hall⟩ := rhoIteration_spec hpos w.x w.y
    have hdn := hall.mpr (by rw [← hg, ← hgg, hx', hy', hmeet])
    omega

/-- Where tortoise and hare meet after `m + 1` more rounds, RHO has ended by then. -/
theorem RhoRunning.run_succeeds {m : Nat} (h : RhoRunning s rd n k) (hn : 3 ≤ n)
    (hmeet : (rhoG n)^[k + (m + 1)] 2 = (rhoG n)^[2 * (k + (m + 1))] 2) :
    ∃ j t, 1 ≤ j ∧ j ≤ m + 1 ∧ core.run j s = .next t ∧ RhoSucceeded t rd n (k + j) := by
  induction m generalizing s k with
  | zero =>
    obtain ⟨t, ht, hend | ⟨_, hne⟩⟩ := h.next hn
    · exact ⟨1, t, le_rfl, le_rfl, run_succ ht 0, hend⟩
    · exact absurd hmeet hne
  | succ m ih =>
    obtain ⟨t, ht, hend | ⟨hgo, _⟩⟩ := h.next hn
    · exact ⟨1, t, le_rfl, by omega, run_succ ht 0, hend⟩
    · rw [show k + (m + 1 + 1) = k + 1 + (m + 1) by omega] at hmeet
      obtain ⟨j, u, _, hj, hrun, hend⟩ := ih hgo hmeet
      exact ⟨j + 1, u, by omega, by omega, (run_succ ht j).trans hrun, by rwa [Nat.add_assoc, Nat.add_comm 1] at hend⟩

end

/-- Settles O33: RHO runs from its start step on until it ends, at the latest where tortoise and hare meet. -/
theorem rhoAlwaysCompletes : Obligations.RhoAlwaysCompletes := by
  intro s c rd ra rb rm hturns he hp hdec hlimit ha hn
  have hstep : step s = .next (s.clearIter.continueRho ⟨s.reg rm, 2, 2, 0⟩) := by
    rw [step_of_no_turns hturns, engineTurn_start he hp hdec, exec_rho_of_not_lt hn.not_gt]
  obtain ⟨K, hK1, hK, hmeet⟩ := rho_meets hn
  obtain ⟨m, rfl⟩ := Nat.exists_eq_add_of_le' hK1
  obtain ⟨k, t, hk1, hk, hrun, hend⟩ :=
    (rhoRunning_begins hturns ha he hdec hlimit).run_succeeds (m := m) hn (by rwa [Nat.zero_add])
  obtain ⟨hdvd, hpos, -, htriv⟩ := hend.divisor
  exact ⟨k, t, hk1, hk.trans hK, (run_succ hstep k).trans hrun, hend.idle, hend.done, hend.err,
    by rw [hend.iter, Nat.zero_add], Nat.lt_of_le_of_ne hpos hend.nontrivial.symm, hdvd, htriv⟩

end Sys2Proof.Machine

/-! The family of 60_exceptions.md: the engine's steps, precise errors, and the interrupt output. -/

namespace Sys2Proof.Machine

section
/-! The engine's turn while a command is in flight (60_exceptions.md R241-R244). -/

variable {s t : State} {c : Command}

/-- A turn that ends the command in flight sets DONE (60_exceptions.md R242, R243). -/
theorem EngineEffect.done_of_completes (h : EngineEffect s t) (he : s.eng = .busy c) (hidle : t.eng = .idle) :
    t.done = true := by
  cases h with
  | idle hs => cases he.symm.trans hs
  | error | success | rhostep | rhoDivisor | rhoLimit => rfl
  | rhoBegins | rhoGoesOn => cases hidle

/-- The engine keeps CTRL.IE (10_state.md R34). -/
theorem EngineEffect.ie (h : EngineEffect s t) : t.ie = s.ie := by
  cases h <;> rfl

/-- A turn of a busy engine changes the state: the command ends, RHO leaves phase Start, or ITER counts. -/
theorem EngineEffect.ne_of_busy (h : EngineEffect s t) (he : s.eng = .busy c) : t ≠ s := by
  intro hts
  have heng : t.eng = .busy c := (congrArg State.eng hts).trans he
  cases h with
  | idle hs => cases he.symm.trans hs
  | error | success | rhostep | rhoDivisor | rhoLimit => cases heng
  | rhoBegins _ _ _ _ _ w hd hp =>
    cases hd.symm.trans he
    have hlatch : Engine.busy { c with phase := .iterate w } = .busy c :=
      (State.continueRho_eng_of_busy (s := s.clearIter) he w).symm.trans heng
    injection hlatch with hlatch
    cases hp.symm.trans (congrArg Command.phase hlatch).symm
  | rhoGoesOn =>
    have hiter : s.iter + 1 = s.iter := congrArg State.iter hts
    simp at hiter

/-- A turn that leaves ERR 1 leaves every operand register alone: a success leaves ERR 0 (60_exceptions.md R242, R248). -/
theorem EngineEffect.reg_of_err (h : EngineEffect s t) (herr : t.err = true) (r : Reg) : t.reg r = s.reg r := by
  cases h with
  | idle | error | rhoBegins | rhoLimit | rhoGoesOn => rfl
  | success | rhostep | rhoDivisor => cases herr

/-- A turn that does not end the command in flight writes no operand register (43_gcd_rho.md R221, R222). -/
theorem EngineEffect.reg_of_goes_on (h : EngineEffect s t) (hbusy : t.eng = .busy c) (r : Reg) : t.reg r = s.reg r := by
  cases h with
  | idle | rhoBegins | rhoGoesOn => rfl
  | error | success | rhostep | rhoDivisor | rhoLimit => cases hbusy

/-- A host write while busy changes no operand register, unless it resets (70_reset_and_hazards.md R282, R290). -/
theorem WriteEffect.reg_of_busy {v : Word} {p : Place} {d : Command} (h : WriteEffect s v p t) (he : s.eng = .busy c)
    (hbusy : t.eng = .busy d) (r : Reg) : t.reg r = s.reg r := by
  cases h with
  | ignored | ctrl | status | dropped | accepted | rhoLimit => rfl
  | reset => cases hbusy
  | operand _ _ hidle => cases he.symm.trans hidle

end

section
/-! The start step of a command, RHO or not (60_exceptions.md R241). -/

variable {s t : State} {c : Command} {i : Instr}

/-- The start step of every command but RHO ends with a completion. -/
theorem exec_completes (hi : i.isRho = false) (h : exec i s = .next t) :
    t.eng = .idle ∧ t.done = true ∧ t.abortPending = false := by
  rcases exec_cases i s with ⟨_, hx⟩ | ⟨_, _, _, _, _, hx⟩ | ⟨_, _, _, _, _, _, _, _, hx⟩ | ⟨_, _, _, _, rfl, _, _⟩
  case inr.inr.inr => cases hi
  all_goals
    cases hx.symm.trans h
    exact ⟨rfl, rfl, rfl⟩

theorem Instr.isRho_iff : i.isRho = true ↔ ∃ rd ra rb rm, i = .rho rd ra rb rm := by
  cases i <;> simp [Instr.isRho]

/-- RHO's start step is E_MOD, or goes on from the latch in phase Iterate (43_gcd_rho.md R221). -/
theorem exec_rho_begins (hi : i.isRho = true) (he : s.eng = .busy c) (h : exec i s = .next t) :
    ErrorCompletion s t 2 ∨ ∃ w, t.eng = .busy { c with phase := .iterate w } := by
  obtain ⟨rd, ra, rb, rm, rfl⟩ := Instr.isRho_iff.mp hi
  by_cases hn : s.reg rm < 3
  · cases (exec_rho_of_lt hn).symm.trans h
    exact .inl (errorCompletion_raiseError s .modulus)
  · cases (exec_rho_of_not_lt hn).symm.trans h
    exact .inr ⟨_, State.continueRho_eng_of_busy (s := s.clearIter) he _⟩

end

section
/-! A host write to a control register, as a step, and the interrupt output after it (60_exceptions.md R250). -/

variable {s t : State} {v : Word} {rest : List Turn}

/-- The one state that a write to a control register leads to (20_memory.md R65). -/
theorem eq_of_step_write {p : Place} (hp : p.IsRegister)
    (hturns : s.turns = .write (BitVec.ofNat 12 p.offset) 0xF v :: rest) (h : step s = .next t) :
    t = { s.writePlace p v with turns := rest, response := .ack } := by
  have hwrite := writesTo_register s hp v rest
  rw [← hturns] at hwrite
  cases hwrite.symm.trans h
  rfl

/-- `irq` bears on IE and DONE only, so after a write to a control register it is that of the write's effect. -/
theorem irq_of_step_write {p : Place} (hp : p.IsRegister)
    (hturns : s.turns = .write (BitVec.ofNat 12 p.offset) 0xF v :: rest) (h : step s = .next t) :
    t.irq = (s.writePlace p v).irq := by
  rw [eq_of_step_write hp hturns h]
  rfl

theorem State.irq_iff (s : State) : s.irq = true ↔ s.ie = true ∧ s.done = true := Bool.and_eq_true_iff

theorem State.irq_toReset (s : State) : s.toReset.irq = false := rfl

/-- A reset leaves `irq` 0, whichever turn it comes from (70_reset_and_hazards.md R280, R282). -/
theorem irq_of_resets (hr : s.Resets) (h : step s = .next t) : t.irq = false := by
  rcases hr with hhead | ⟨v, hhead, hv⟩ <;> obtain ⟨rest, hturns⟩ := List.head?_eq_some_iff.mp hhead
  · simp only [step, hturns, hardwareReset] at h
    cases h
    rfl
  · rw [irq_of_step_write (p := .ctrl) nofun hturns h, State.writePlace, s.writeCtrl_srst hv, State.irq_toReset]

end

/-- Settles O8: the start step is E_ILLEGAL's completion or `exec`, which completes for every command but RHO. -/
theorem startStepCompletesOrBeginsRho : Obligations.StartStepCompletesOrBeginsRho := by
  intro s c hm he hp
  refine ⟨fun hd => endsWithIllegal_of_decode hd s c hm he hp rfl, fun i hd => ?_⟩
  obtain ⟨t, ht⟩ := exec_next i s.popped
  have hstep : step s = .next t := (step_engine hm).trans ((engineTurn_start (s := s.popped) he hp hd).trans ht)
  exact ⟨t, hstep, ht, fun hi => exec_completes hi ht, fun hi => exec_rho_begins (s := s.popped) hi he ht⟩

/-- Settles O45: a completion sets DONE and keeps IE, and the host's writes and resets set the two bits as the rule lists. -/
theorem irqFollowsIeAndDone : Obligations.IrqFollowsIeAndDone := by
  refine ⟨State.irq_iff, fun s t hm h ⟨c, he⟩ hidle => ?_, fun s t v rest hturns h hv => ?_, fun s t v rest hturns h => ?_,
    fun s t v rest hturns h he => ?_, fun s t => irq_of_resets⟩
  · have heff : EngineEffect s.popped t := engineTurn_effect ((step_engine hm).symm.trans h)
    have hie : t.ie = s.ie := heff.ie
    rw [State.irq, heff.done_of_completes he hidle, hie, Bool.and_true]
  · rw [irq_of_step_write (p := .ctrl) nofun hturns h, State.writePlace, s.writeCtrl_noSrst hv]
    rfl
  · rw [irq_of_step_write (p := .status) nofun hturns h]
    exact (Bool.and_assoc ..).symm
  · rw [irq_of_step_write (p := .cmd) nofun hturns h, State.writePlace, s.not_busy_iff.mpr he]
    exact Bool.and_false s.ie

/-- Settles O50: of the engine's turns only a success writes a register, and while busy no host write does but a reset, after
which no command is in flight. -/
theorem errorsLeaveOperandsUnchanged : Obligations.ErrorsLeaveOperandsUnchanged := by
  refine ⟨fun s t hm h herr r => ?_, fun s t c he h ⟨d, hbusy⟩ r => ?_⟩
  · have heff : EngineEffect s.popped t := engineTurn_effect ((step_engine hm).symm.trans h)
    exact heff.reg_of_err herr r
  · cases step_effect h with
    | engine _ heff => exact heff.reg_of_goes_on hbusy r
    | read => rfl
    | write _ _ _ _ _ _ hw => exact hw.reg_of_busy he hbusy r
    | reset => cases hbusy

/-- Settles O7: the step is the engine's turn, which runs the command that the word spells. -/
theorem stepRunsTheDecodedCommand : Obligations.StepRunsTheDecodedCommand := by
  intro s c i hm he hp hd
  exact (step_engine hm).trans (engineTurn_start (s := s.popped) he hp hd)

/-- Settles O9: an idle engine's turn is the identity, and a busy engine's turn changes the engine's own state or ITER. -/
theorem engineHasAStepExactlyWhileBusy : Obligations.EngineHasAStepExactlyWhileBusy := by
  intro s hm
  refine ⟨fun he => (step_engine hm).trans (engineTurn_idle he), fun c he => ?_⟩
  obtain ⟨t, ht⟩ := engineTurn_next s.popped
  exact ⟨t, (step_engine hm).trans ht, (engineTurn_effect ht).ne_of_busy he⟩

end Sys2Proof.Machine

/-! The family of 70_reset_and_hazards.md: accesses while busy, and the engine running to idle in finitely many turns. -/

namespace Sys2Proof.Machine

open Laws

section
/-! Transactions while a command is in flight (70_reset_and_hazards.md R290). -/

variable {s : State} {c : Command} {w : Nat}

/-- A write to RHO_LIMIT while busy is dropped. -/
theorem writesTo_rhoLimit_of_busy (he : s.eng = .busy c) (v : Word) : WritesTo s 0x01C v s.dropWrite := by
  have hwrite : WritesTo s 0x01C v (s.writePlace .rhoLimit v) := writesTo_register s (p := .rhoLimit) nofun v
  rwa [State.writePlace, s.busy_iff.mpr ⟨c, he⟩] at hwrite

/-- A write of an operand word while busy is dropped. -/
theorem writesTo_operand_of_busy (hcfg : s.cfg.Valid) (he : s.eng = .busy c) (r : Reg) (hw : w < s.cfg.nw) (v : Word) :
    WritesTo s (operandOffset r w) v s.dropWrite := by
  have hwrite := writesTo_of_accessCheck (accessCheck_operand hcfg r hw) v
  rwa [State.writePlace, s.busy_iff.mpr ⟨c, he⟩] at hwrite

/-- A read of an operand word while busy draws an unspecified word. -/
theorem step_read_operand_of_busy (hcfg : s.cfg.Valid) (he : s.eng = .busy c) (r : Reg) (hw : w < s.cfg.nw)
    (rest : List Turn) : step { s with turns := .read (BitVec.ofNat 12 (operandOffset r w)) 0xF :: rest }
      = .next ({ s with turns := rest } : State).drawWord := by
  have hbusy : ({ s with turns := rest } : State).busy = true := s.busy_iff.mpr ⟨c, he⟩
  simp only [step, busRead, accessCheck_operand hcfg r hw, State.readPlace, hbusy, if_true]

end

/-- Settles O35: while busy these writes are `dropWrite`, a read of an operand word draws, and a control register answers its
word. -/
theorem accessesWhileBusy : Obligations.AccessesWhileBusy := by
  intro s c hcfg he
  refine ⟨writesTo_rhoLimit_of_busy he, fun r w v hw => writesTo_operand_of_busy hcfg he r hw v, fun r w rest hw =>
    ⟨_, _, step_read_operand_of_busy hcfg he r hw rest, rfl⟩, ?_⟩
  exact ⟨readsTo_register s (p := .id) nofun, readsTo_register s (p := .cfg) nofun, readsTo_register s (p := .ctrl) nofun,
    readsTo_register s (p := .status) nofun, readsTo_register s (p := .cmd) nofun, readsTo_register s (p := .iterLo) nofun,
    readsTo_register s (p := .iterHi) nofun, readsTo_register s (p := .rhoLimit) nofun⟩

section
/-! The rounds that RHO has left: it ends at the latest where tortoise and hare meet (43_gcd_rho.md R225). -/

/-- After `k` rounds modulo `n` the tortoise and the hare are at one value. -/
def RhoMeets (n k : Nat) : Prop := (rhoG n)^[k] 2 = (rhoG n)^[2 * k] 2

variable {s : State} {c : Command} {w : RhoWork} {n k : Nat}

/-- Where they meet after `k` rounds, `k` is a period from there on, and they meet at its multiples too. -/
theorem RhoMeets.mul (h : RhoMeets n k) (m : Nat) : RhoMeets n ((m + 1) * k) := by
  have hperiod : Function.IsPeriodicPt (rhoG n) k ((rhoG n)^[k] 2) := by
    rw [RhoMeets, Nat.two_mul, Function.iterate_add_apply] at h
    exact h.symm
  have hmul : (m + 1) * k = m * k + k := Nat.succ_mul m k
  have hlater : Function.IsPeriodicPt (rhoG n) ((m + 1) * k) ((rhoG n)^[(m + 1) * k] 2) := by
    rw [hmul, Function.iterate_add_apply _ (m * k), ← hmul]
    exact (hperiod.apply_iterate _).const_mul _
  rw [RhoMeets, Nat.two_mul, Function.iterate_add_apply]
  exact hlater.symm

/-- However many rounds are done, the hare and the tortoise meet later. -/
theorem exists_rhoMeets_after (hn : 3 ≤ n) (k : Nat) : ∃ j, RhoMeets n (k + (j + 1)) := by
  obtain ⟨p, hp, -, hmeet⟩ := rho_meets hn
  have hlt : k < (k + 1) * p := Nat.lt_of_lt_of_le k.lt_succ_self (Nat.le_mul_of_pos_right _ hp)
  obtain ⟨j, hj⟩ := Nat.exists_eq_add_of_lt hlt
  exact ⟨j, hj ▸ RhoMeets.mul hmeet k⟩

/-- The round in which tortoise and hare meet has the modulus for its divisor, and not 1. -/
theorem RhoTrace.divisor_ne_one (hs : RhoTrace s) (he : s.eng = .busy c) (hp : c.phase = .iterate w) (hn : 3 ≤ w.n)
    (hmeet : RhoMeets w.n (w.itc + 1)) : (rhoIteration w.x w.y w.n).2.2 ≠ 1 := by
  obtain ⟨-, hx, hy, -, -⟩ := hs c w he hp
  obtain ⟨hx', hy'⟩ := rhoIteration_of_iterate hx hy
  obtain ⟨hg, hgg, -, -, -, hall⟩ := rhoIteration_spec (by omega : 0 < w.n) w.x w.y
  have hdivisor : (rhoIteration w.x w.y w.n).2.2 = w.n := hall.mpr (by rw [← hg, ← hgg, hx', hy']; exact hmeet)
  omega

end

section
/-! The engine idle after a number of its own turns (70_reset_and_hazards.md R301). -/

/-- The engine is idle after at most this many of its turns, on RHO's trace: at once, one turn for a start step with RHO's `n`
rounds after it, or a turn for each round until tortoise and hare meet. -/
inductive EndsWithin (s : State) : Nat → Prop
  | idle {m : Nat} : s.eng = .idle → EndsWithin s m
  | start {c : Command} {m : Nat} : s.eng = .busy c → c.phase = .start →
      (∀ rd ra rb rm, decode c.word = some (.rho rd ra rb rm) → s.reg rm ≤ m) → EndsWithin s (m + 1)
  | iterate {c : Command} {w : RhoWork} {j m : Nat} : s.eng = .busy c → c.phase = .iterate w → 3 ≤ w.n →
      RhoMeets w.n (w.itc + (j + 1)) → j < m → EndsWithin s m

variable {s t : State} {c : Command} {i : Instr} {m : Nat}

theorem EndsWithin.idle_of_zero (h : EndsWithin s 0) : s.eng = .idle := by
  cases h with
  | idle he => exact he
  | iterate _ _ _ _ hj => exact absurd hj (Nat.not_lt_zero _)

/-- Only the engine and the operand registers bear on it. -/
theorem EndsWithin.congr (h : EndsWithin s m) (heng : t.eng = s.eng) (hregs : t.regs = s.regs) : EndsWithin t m := by
  cases h with
  | idle he => exact .idle (heng.trans he)
  | start he hp hrho =>
    exact .start (heng.trans he) hp fun rd ra rb rm hd => State.reg_congr hregs rm ▸ hrho rd ra rb rm hd
  | iterate he hp hn hmeet hj => exact .iterate (heng.trans he) hp hn hmeet hj

/-- A start step ends the command, or begins RHO, which ends within as many rounds as its modulus says. -/
theorem endsWithin_of_exec (he : s.eng = .busy c) (hrho : ∀ rd ra rb rm, i = .rho rd ra rb rm → s.reg rm ≤ m)
    (h : exec i s = .next t) : EndsWithin t m := by
  rcases exec_cases i s with ⟨_, hx⟩ | ⟨_, _, _, _, _, hx⟩ | ⟨_, _, _, _, _, _, _, _, hx⟩ |
    ⟨rd, ra, rb, rm, hi, hn, hx⟩ <;> cases hx.symm.trans h
  · exact .idle rfl
  · exact .idle rfl
  · exact .idle rfl
  · obtain ⟨k, hk1, hk, hmeet⟩ := rho_meets hn
    obtain ⟨j, rfl⟩ := Nat.exists_eq_add_of_le' hk1
    exact .iterate (State.continueRho_eng_of_busy (s := s.clearIter) he _) rfl hn ((Nat.zero_add (j + 1)).symm ▸ hmeet)
      (hk.trans (hrho rd ra rb rm hi))

/-- A turn of the engine leaves one turn less. -/
theorem EndsWithin.next (hs : RhoTrace s) (h : EndsWithin s (m + 1)) (ht : engineTurn s = .next t) : EndsWithin t m := by
  cases h with
  | idle he =>
    cases (engineTurn_idle he).symm.trans ht
    exact .idle he
  | @start c _ he hp hrho =>
    cases hd : decode c.word with
    | none =>
      cases (engineTurn_illegal he hp hd).symm.trans ht
      exact .idle rfl
    | some i =>
      have hx : exec i s = .next t := (engineTurn_start he hp hd).symm.trans ht
      exact endsWithin_of_exec he (fun rd ra rb rm hi => hrho rd ra rb rm (hi ▸ hd)) hx
  | @iterate c w j _ he hp hn hmeet hj =>
    cases (engineTurn_iterate he hp).symm.trans ht
    rcases rhoIterate_cases c w s with ⟨_, h⟩ | ⟨_, _, h⟩ | ⟨_, _, _, _, h⟩ | ⟨_, hd, _, h⟩ <;> rw [h]
    · exact .idle rfl
    · exact .idle rfl
    · exact .idle rfl
    · cases j with
      | zero => exact absurd hd (hs.divisor_ne_one he hp hn hmeet)
      | succ j =>
        refine .iterate (State.continueRho_eng_of_busy (s := s.countIteration) he _) rfl hn (j := j) ?_ (by omega)
        rwa [Nat.add_assoc, Nat.add_comm 1]

/-- The engine always becomes idle after some number of its turns. -/
theorem exists_endsWithin (hv : ValuesInRange s) : ∃ m, EndsWithin s m := by
  cases he : s.eng with
  | idle => exact ⟨0, .idle he⟩
  | busy c =>
    cases hp : c.phase with
    | start => exact ⟨_, .start he hp fun _ _ _ rm _ => (hv.regs rm).le⟩
    | iterate w =>
      obtain ⟨hn, -, -, -⟩ := hv.rho c w he hp
      obtain ⟨j, hmeet⟩ := exists_rhoMeets_after hn w.itc
      exact ⟨j + 1, .iterate he hp hn hmeet j.lt_succ_self⟩

/-- With no turn listed, the run ends in that many steps (log 3). -/
theorem EndsWithin.run_ends (h : EndsWithin s m) (hs : RhoTrace s) (hturns : s.turns = []) :
    ∃ t, core.run m s = .next t ∧ t.RunEnded := by
  induction m generalizing s with
  | zero => exact ⟨s, rfl, hturns, h.idle_of_zero⟩
  | succ m ih =>
    obtain ⟨t, ht⟩ := engineTurn_next s
    obtain ⟨u, hrun, hend⟩ := ih (h.next hs ht) (hs.engineTurn ht) ((engineTurn_keeps ht).turns.trans hturns)
    exact ⟨u, (run_succ ((step_of_no_turns hturns).trans ht) m).trans hrun, hend⟩

end

/-- Settles O57: the engine becomes idle after some number of its turns, which are the steps where no turn is listed. -/
theorem everyRunEndsOnceTheHostIsDone : Obligations.EveryRunEndsOnceTheHostIsDone := by
  intro s hturns hs hv
  obtain ⟨m, h⟩ := exists_endsWithin hv
  exact ⟨m, h.run_ends hs hturns⟩

section
/-! The turns of WAIT: one of the engine before each poll of STATUS (30_encoding.md R102; log 20). -/

variable {s : State} {m : Nat}

/-- A turn of the engine and a poll: one turn of the engine less is left, and the poll has answered STATUS as it is. -/
theorem EndsWithin.poll (h : EndsWithin s (m + 1)) (hs : RhoTrace s) (rest : List Turn) :
    ∃ t, (∀ j, core.run (j + 2) { s with turns := .engine :: rcsr .status :: rest }
        = core.run j { t with turns := rest }) ∧
      RhoTrace t ∧ EndsWithin t m ∧ t.response = .data t.statusWord := by
  have hs' : RhoTrace { s with turns := rcsr .status :: rest } := hs.congr rfl rfl
  have h' : EndsWithin { s with turns := rcsr .status :: rest } (m + 1) := h.congr rfl rfl
  obtain ⟨t, ht⟩ := engineTurn_next { s with turns := rcsr .status :: rest }
  have hpoll := readsTo_register t (p := .status) nofun rest
  have hturns : t.turns = .read (BitVec.ofNat 12 (Place.offset .status)) 0xF :: rest := (engineTurn_keeps ht).turns
  rw [← hturns] at hpoll
  refine ⟨{ t with response := .data t.statusWord }, fun j => ?_, (hs'.engineTurn ht).congr rfl rfl,
    (h'.next hs' ht).congr rfl rfl, rfl⟩
  have hstep : step { s with turns := .engine :: rcsr .status :: rest } = .next t := ht
  exact (run_succ hstep (j + 1)).trans (run_succ hpoll j)

/-- As many more polls as the engine has turns left end the run, and the last answer is STATUS as it is. -/
theorem EndsWithin.run_wait (h : EndsWithin s m) (hs : RhoTrace s) (hlast : s.response = .data s.statusWord) :
    ∃ t, core.run (2 * m) { s with turns := wait m } = .next t ∧ t.RunEnded ∧ t.response = .data t.statusWord := by
  induction m generalizing s with
  | zero => exact ⟨{ s with turns := [] }, rfl, ⟨rfl, h.idle_of_zero⟩, hlast⟩
  | succ m ih =>
    obtain ⟨t, hrun, ht, hleft, hpoll⟩ := h.poll hs (wait m)
    obtain ⟨u, hu, hend⟩ := ih hleft ht hpoll
    exact ⟨u, (hrun (2 * m)).trans hu, hend⟩

/-- An idle engine's STATUS has BUSY 0 (10_state.md R38, R39). -/
theorem State.slice_statusWord_of_idle (he : s.eng = .idle) : slice s.statusWord 0 0 = 0 := by
  have hbusy := s.not_busy_iff.mpr he
  simp only [slice, s.toNat_statusWord, hbusy, Bool.toNat_false]
  omega

/-- The rounds that a command may take after its start step: RHO's modulus, none for the others (43_gcd_rho.md R225). -/
def State.roundsBound (s : State) : Instr → Nat
  | .rho _ _ _ rm => s.reg rm
  | .nop | .mov _ _ | .ldi _ _ | .reduce _ _ _ | .modadd _ _ _ _ | .modsub _ _ _ _ | .modmul _ _ _ _ | .modexp _ _ _ _
  | .modinv _ _ _ | .montmul _ _ _ _ | .tomont _ _ _ | .frommont _ _ _ | .gcd _ _ _ | .rhostep _ _ _ _ => 0

theorem State.roundsBound_of_not_rho {i : Instr} (hi : i.isRho = false) : s.roundsBound i = 0 := by
  cases i with
  | rho => cases hi
  | _ => rfl

/-- A command just accepted ends within its start step and its rounds. -/
theorem endsWithin_accept (s : State) (i : Instr) : EndsWithin (s.accept (encode i)) (s.roundsBound i + 1) := by
  refine .start rfl rfl fun rd ra rb rm hd => ?_
  cases (decode_encode i).symm.trans hd
  exact le_rfl

end

/-- Settles O47: the CMD write accepts the command; one poll follows its start step, and one each round that it may take. -/
theorem execMacroEnds : Obligations.ExecMacroEnds := by
  intro s i he
  have hissue := (cmdWriteIssuesOrIsDropped s (encode i)).1 he (wait (s.roundsBound i + 1))
  have hend : EndsWithin ((s.accept (encode i)).respond .ack) (s.roundsBound i + 1) := (endsWithin_accept s i).congr rfl rfl
  obtain ⟨t, hrun, ht, hleft, hpoll⟩ := hend.poll (.of_start rfl rfl) (wait (s.roundsBound i))
  obtain ⟨u, hu, hended, hlast⟩ := hleft.run_wait ht hpoll
  refine ⟨s.roundsBound i + 1, u, u.statusWord, ?_, hended, hlast, State.slice_statusWord_of_idle hended.2,
    fun hi => by rw [State.roundsBound_of_not_rho hi], ?_⟩
  · exact (run_succ hissue _).trans ((hrun (2 * s.roundsBound i)).trans hu)
  · rintro rd ra rb rm rfl
    exact le_rfl

end Sys2Proof.Machine
